-- ==== Sys2Proof/Word.lean ====
section
/-! DEFINITION. The word types of AS7-CORE: the 32-bit command word, the parameter byte and the binary32 value
(spec/00_scope.md R12), each a bit vector, because software sees each as bits. -/

namespace Sys2Proof

/-- A command word or a register value: bit 31 is the most significant bit (R11, R170). -/
abbrev Word := BitVec 32

/-- One byte of PARAM or VBUF (R150). -/
abbrev Byte := BitVec 8

/-- An IEEE 754 binary32 value, held as its bit pattern (R12). -/
abbrev F32 := BitVec 32

/-- A bit as a one-bit vector, 1 = true (R12). -/
abbrev bit (b : Bool) : BitVec 1 := BitVec.ofBool b

end Sys2Proof
end

