-- ==== Sys2Proof/Config.lean ====
section
/-! DEFINITION. What an implementation of AS7-CORE fixes (spec/00_scope.md R9) and the values the spec leaves open. A fixed parameter is a
definition; an OPEN table entry or an open value is an opaque constant with no body, so that no proof can lean on its
value. The codomain of each opaque constant carries the limits that the spec sets for it (92_eei_decisions.md, "Named parameters
left open") and, where its docstring says so, a choice of the model: the sign of a zero entry (assumption log 17), the
limit of VEL_TABLE (assumption log 18) and which of two stated ranges LFO_SPEED and LFO_DELAY have (assumption log 19). -/

namespace Sys2Proof

/-- SAMPLE_RATE, fixed at 44100 for this hardware (R9). -/
def Config.sampleRate : Nat := 44100

/-- SR_MULT = floor(44100 * 2^24 / SAMPLE_RATE) (R10). -/
def Config.srMult : Nat := 44100 * 2 ^ 24 / Config.sampleRate

/-- The default of LFO_SEED (R9, D27; assumption log 3). The parameter itself is the argument `Rom.lfoSeed`. -/
def Config.lfoSeed : BitVec 32 := 0x92D68CA2#32

/-- One record of the routing catalogue (R430): `mods` lists, for the core indices that have any, the modulators of the index
in ascending order. -/
structure Algorithm where
  carriers : List (Fin 6)
  mods : List (Fin 6 × List (Fin 6))
  hasFb : Bool
  fbOp : Fin 6
  deriving DecidableEq, Repr

/-- The OPEN implementation parameters of R9: LFO_SEED, and the ROM tables of R154 of which the spec leaves at least one entry
OPEN. The datapath and the reset take them as an argument (93_implementation_defined.md I1, I2, I3: "parameter"); the
hardware's own are `Machine.rom`. -/
structure Rom where
  /-- LEVEL_LUT, 20 entries (R155). -/
  levelLut : Nat → Nat
  /-- STATICS, 77 entries (R156). -/
  statics : Nat → Nat
  /-- DETUNE_TABLE, 15 entries, read at 1..7 (R157). -/
  detune : Nat → F32
  /-- VEL_TABLE[s][k], 8 x 9 (R162). -/
  velTable : Nat → Nat → F32
  /-- KEYSCALE_EXP, 33 entries (R163). -/
  keyscaleExp : Nat → Nat
  /-- LFO_SPEED in Hz, 100 entries (R165). -/
  lfoSpeed : Nat → F32
  /-- LFO_DELAY in seconds, 100 entries (R166). -/
  lfoDelay : Nat → F32
  /-- LFO_PMS, 8 entries (R167). -/
  lfoPms : Nat → F32
  /-- PITCHENV_TAB, 100 entries (R168). -/
  pitchenvTab : Nat → Int
  /-- PITCHENV_RATE, 100 entries (R169). -/
  pitchenvRate : Nat → Nat
  /-- ALGORITHMS, 32 entries (R430, R431). -/
  algorithms : Nat → Algorithm
  /-- LFO_SEED, a non-zero word (R9, R475). -/
  lfoSeed : BitVec 32

/-! ## OPEN table entries (R154; assumption log 2) -/

/-- STATICS[0..76] (R156): non-negative integers; they fit the i32 staticCount register (R12, R68; assumption log 7). -/
opaque Config.staticsOpen : Nat → Fin (2 ^ 31)

/-- DETUNE_TABLE[2..7] (R157): finite F32 with 0 <= entry < 1000 (R393); the value is the bit pattern, 0x447A0000 is 1000.0.
DESIGN CHOICE: a zero entry is +0.0, though R393 admits -0.0 as well (assumption log 17). -/
opaque Config.detuneOpen : Nat → Fin 0x447A0000

/-- VEL_TABLE (R162): a finite F32 of either sign, as the sign and the other 31 bits. DESIGN CHOICE: the magnitude is at most 2^64,
0x5F800000, a limit below which no rule overflows, as R14 and R636 say of every rule (assumption log 18). -/
opaque Config.velOpen : Nat → Nat → Bool × Fin 0x5F800001

/-- LFO_SPEED[1..98] (R165): finite and positive; the bit pattern less one. DESIGN CHOICE: the limit is the one of
92_eei_decisions.md, looser than the 0.0625 to 49.0 Hz of R471 and than R476's increment below 1 (assumption log 19). -/
opaque Config.lfoSpeedOpen : Nat → Fin 0x7F7FFFFF

/-- LFO_DELAY[1..98] (R166): 0 <= entry < 97000 (R480); the bit pattern, 0x47BD7400 is 97000.0. DESIGN CHOICE: a zero entry is +0.0
(assumption log 17), and the limit is looser than the 0 to 2.83 s of R166 (assumption log 19). -/
opaque Config.lfoDelayOpen : Nat → Fin 0x47BD7400

/-- LFO_PMS[1..6] (R167): in [0, 1]; the bit pattern, 0x3F800000 is 1.0. DESIGN CHOICE: a zero entry is +0.0 (assumption log
17). -/
opaque Config.lfoPmsOpen : Nat → Fin 0x3F800001

/-- PITCHENV_TAB but entries 0, 50, 99 (R168): integers in [-128, 127], as a signed byte. -/
opaque Config.pitchenvTabOpen : Nat → BitVec 8

/-- PITCHENV_RATE less one (R169): integers 1 <= entry <= 2^20 (92_eei_decisions.md, "Named parameters left open"; R362, R685). -/
opaque Config.pitchenvRateOpen : Nat → Fin (2 ^ 20)

/-! ## Open values -/

/-- Which binary32 operation an open result belongs to. -/
inductive F32Op where
  | add | sub | mul | div
  deriving DecidableEq, Repr

/-- The result of a binary32 operation with a non-finite operand or a zero divisor: the spec gives those no meaning
(R16, R636; assumption log 4), so it is a free value, a function of the operation and its operands. -/
opaque Config.f32Open : F32Op → F32 → F32 → F32

/-- frac of a non-finite value: free within the limit of R15, a value in [0, 1) (assumption log 4). -/
opaque Config.fracOpen : F32 → Fin 0x3F800000

/-- floor of a non-finite value, the delay count of a non-finite LFO_DELAY entry among them: free (assumption log 4). -/
opaque Config.floorOpen : F32 → Int

/-- lut_exp2 of a NaN: free within the limit of R257, a value in [2^-20, 1024.0], given as the distance of its bit pattern from
0x35800000 (assumption log 4). -/
opaque Config.exp2Open : F32 → Fin 0x0F000001

/-- S.counter after the increment of 2^64 - 1, whose wrap the spec does not define (R533; assumption log 5). -/
opaque Config.counterAfterMax : BitVec 64

end Sys2Proof
end

