-- ==== Sys2Proof/Machine/Float.lean ====
section
/-! DEFINITION. Binary32 arithmetic (spec/00_scope.md R12, R14): every operation is the exact rational result rounded once, to nearest,
ties to even. A finite value is held exactly as an integer count of 2^-149, the smallest positive binary32 step. -/

namespace Sys2Proof.Machine

/-- The sign bit. -/
def f32Sign (x : F32) : Bool := x.msb

/-- The 31 bits below the sign. -/
def f32Bits (x : F32) : Nat := x.toNat % 2 ^ 31

/-- Neither an infinity nor a NaN. -/
def f32Finite (x : F32) : Bool := decide (f32Bits x < 0x7F800000)

/-- A NaN. -/
def f32IsNaN (x : F32) : Bool := decide (0x7F800000 < f32Bits x)

/-- The magnitude that 31 bits stand for, in units of 2^-149 (for a finite value). -/
def magOfBits (b : Nat) : Nat :=
  if b < 2 ^ 23 then b else (2 ^ 23 + b % 2 ^ 23) * 2 ^ (b / 2 ^ 23 - 1)

/-- The exact value of a finite binary32, in units of 2^-149. -/
def f32Scaled (x : F32) : Int :=
  if f32Sign x then -(magOfBits (f32Bits x) : Int) else (magOfBits (f32Bits x) : Int)

/-- num / den to the nearest integer, ties to even. -/
def divNearestEven (num den : Nat) : Nat :=
  if den < 2 * (num % den) || (2 * (num % den) == den && num / den % 2 == 1) then num / den + 1 else num / den

/-- The binary exponent of the last place of the binary32 nearest to num / den units of 2^-149, in units of 2^-149. -/
def lastPlace (num den : Nat) : Nat := Nat.log2 (num / den) - 23

/-- The 31 bits of the binary32 nearest to num / den units of 2^-149, ties to even; 0x7F800000, infinity, from the overflow
threshold on (R14; assumption log 4). The significand's carry moves into the exponent by the addition. -/
def roundBits (num den : Nat) : Nat :=
  min (lastPlace num den * 2 ^ 23 + divNearestEven num (den * 2 ^ lastPlace num den)) 0x7F800000

/-- The binary32 with the given sign and 31 bits. -/
def f32Pack (neg : Bool) (b : Nat) : F32 := BitVec.ofNat 32 (if neg then 2 ^ 31 + b else b)

/-- f32(n * 2^-149): nearest binary32 of an integer count of 2^-149. -/
def f32OfScaled (n : Int) : F32 := f32Pack (decide (n < 0)) (roundBits n.natAbs 1)

/-- f32(num / den), the nearest binary32 of an exact quotient, den > 0 (R14). -/
def f32OfRat (num : Int) (den : Nat) : F32 :=
  f32Pack (decide (num < 0)) (roundBits (num.natAbs * 2 ^ 149) den)

/-- f32(n), an integer used as an F32 operand (R14). -/
def f32OfInt (n : Int) : F32 := f32OfRat n 1

/-- -x, the exact negation: the sign bit inverted. -/
def f32Neg (x : F32) : F32 := x ^^^ 0x80000000#32

/-- a ⊕ b (R14). An exact sum of zero is -0.0 only where both operands are negative zeros (IEEE 754; assumption log 13). -/
def f32Add (a b : F32) : F32 :=
  if f32Finite a && f32Finite b then
    if f32Scaled a + f32Scaled b = 0 then f32Pack (f32Sign a && f32Sign b) 0
    else f32OfScaled (f32Scaled a + f32Scaled b)
  else Config.f32Open .add a b

/-- a ⊖ b (R14). -/
def f32Sub (a b : F32) : F32 :=
  if f32Finite a && f32Finite b then
    if f32Scaled a - f32Scaled b = 0 then f32Pack (f32Sign a && !f32Sign b) 0
    else f32OfScaled (f32Scaled a - f32Scaled b)
  else Config.f32Open .sub a b

/-- a ⊗ b (R14); the sign is the exclusive or of the signs, also of a zero. -/
def f32Mul (a b : F32) : F32 :=
  if f32Finite a && f32Finite b then
    f32Pack (f32Sign a != f32Sign b) (roundBits (magOfBits (f32Bits a) * magOfBits (f32Bits b)) (2 ^ 149))
  else Config.f32Open .mul a b

/-- a ⊘ b (R14); every divisor of a rule is a non-zero constant (R16). -/
def f32Div (a b : F32) : F32 :=
  if f32Finite a && f32Finite b && f32Bits b != 0 then
    f32Pack (f32Sign a != f32Sign b) (roundBits (magOfBits (f32Bits a) * 2 ^ 149) (magOfBits (f32Bits b)))
  else Config.f32Open .div a b

/-- The place of a value that is no NaN in the order of the reals with both infinities; the two zeros share one place. -/
def f32Order (x : F32) : Int := if f32Sign x then -(f32Bits x : Int) else (f32Bits x : Int)

/-- a < b, the IEEE comparison (R14): false where an operand is a NaN. -/
def f32Lt (a b : F32) : Bool := !f32IsNaN a && !f32IsNaN b && decide (f32Order a < f32Order b)

/-- a <= b, the IEEE comparison (R14). -/
def f32Le (a b : F32) : Bool := !f32IsNaN a && !f32IsNaN b && decide (f32Order a ≤ f32Order b)

/-- a == b, the IEEE comparison (R14): +0.0 == -0.0. -/
def f32Eq (a b : F32) : Bool := !f32IsNaN a && !f32IsNaN b && decide (f32Order a = f32Order b)

/-- floor(x), the exact mathematical floor of a finite value (R15). -/
def f32Floor (x : F32) : Int := if f32Finite x then f32Scaled x / 2 ^ 149 else Config.floorOpen x

/-- frac(x) = f32(x - floor(x)), a rounded 1.0 mapped to +0.0 (R15). -/
def f32Frac (x : F32) : F32 :=
  if f32Finite x then
    if f32OfScaled (f32Scaled x % 2 ^ 149) = 0x3F800000#32 then 0#32 else f32OfScaled (f32Scaled x % 2 ^ 149)
  else BitVec.ofNat 32 (Config.fracOpen x).val

/-- floor of the `q`-th root of `x`, found bit by bit from bit `bits - 1` down, above the bits `r` found so far. -/
def rootBits (q x : Nat) : Nat → Nat → Nat
  | 0, r => r
  | b + 1, r => rootBits q x b (if (r + 2 ^ b) ^ q ≤ x then r + 2 ^ b else r)

/-- f32((num / den)^(1/q)), evaluated exactly and rounded once, for a value of at least 2^-24 and below 2^14. The root's first 50
fraction bits are floored to r, and the half below r + 1 stands for what the floor cut off. -/
def f32OfRoot (num den q : Nat) : F32 :=
  let r := rootBits q (num * 2 ^ (50 * q) / den) 64 0
  let cut := if r ^ q * den = num * 2 ^ (50 * q) then 0 else 1
  f32Pack false (roundBits ((2 * r + cut) * 2 ^ 149) (2 ^ 51))

/-- The binary32 constants the rules name. -/
def f32Zero : F32 := 0#32
def f32One : F32 := 0x3F800000#32
def f32Half : F32 := 0x3F000000#32

end Sys2Proof.Machine
end

