-- ==== Sys2Proof/Machine/Tables.lean ====
section
/-! DEFINITION. The ROM tables (spec/20_memory.md section 3, 40_lut.md R250, R251, 45_algorithm.md R431): the fixed tables as functions of
the index, and `rom`, the hardware's tables with OPEN entries. A table read outside its entries has no rule and does
not arise, since every index is clamped or masked at use; the functions answer there too (assumption log 14). -/

namespace Sys2Proof.Machine

/-! ## Fixed tables -/

/-- floor(pi * 2^128). -/
def piScaled : Nat := 0x3243F6A8885A308D313198A2E03707344

/-- 1 - y/(a(a+1)) * (1 - y/((a+2)(a+3)) * (...)), `terms` factors deep, everything in units of 2^-128: the nested Taylor
series of sin(x)/x for a = 2 and of cos(x) for a = 1, where y = x^2. -/
def taylorNest (y : Nat) : Nat → Nat → Nat
  | 0, _ => 2 ^ 128
  | terms + 1, a => 2 ^ 128 - y * taylorNest y terms (a + 2) / (2 ^ 128 * (a * (a + 1)))

/-- The angle 2 * pi * j / 4096 in units of 2^-128. -/
def angleScaled (j : Nat) : Nat := piScaled * j / 2048

/-- sin(2 * pi * j / 4096) for j in 0..1024 (the first quarter), in units of 2^-128: the sine series up to an eighth of a
period, the cosine series of the complement from there on. -/
def sineQuarter (j : Nat) : Nat :=
  if j ≤ 512 then angleScaled j * taylorNest (angleScaled j ^ 2 / 2 ^ 128) 20 2 / 2 ^ 128
  else taylorNest (angleScaled (1024 - j) ^ 2 / 2 ^ 128) 20 1

/-- sin(2 * pi * k / 4096) in units of 2^-128, by the symmetries of the sine. -/
def sineScaled (k : Nat) : Int :=
  let r := k % 2048
  let m := sineQuarter (if r ≤ 1024 then r else 2048 - r)
  if k % 4096 < 2048 then (m : Int) else -(m : Int)

/-- SINE_LUT[k] = f32(sin(2 pi k / 4096)), one rounding (R250; assumption log 9). -/
def sineLut (k : Nat) : F32 := f32OfRat (sineScaled k) (2 ^ 128)

/-- EXP2_LUT[k] = f32(2^(-20 + 30 k / 4095)), one rounding (R251): the 273rd root of 2^(2k) / 2^5460. -/
def exp2Lut (k : Nat) : F32 := f32OfRoot (2 ^ (2 * k)) (2 ^ 5460) 273

/-- FIXED_FREQ_BASE (R158). -/
def fixedFreqBase (k : Nat) : F32 := f32OfInt (10 ^ k)

/-- FIXED_FREQ_FINE[f] = f32(10^(f / 100)) (R159). -/
def fixedFreqFine (f : Nat) : F32 := f32OfRoot (10 ^ f) 1 100

/-- NOTE_FREQ[n] = f32(13.75 * 2^((n - 9) / 12)), evaluated exactly and rounded once (R160): the twelfth root of
(55/4)^12 * 2^n / 2^9. -/
def noteFreq (n : Nat) : F32 := f32OfRoot (55 ^ 12 * 2 ^ n) (4 ^ 12 * 2 ^ 9) 12

/-- VEL_BP, the velocity breakpoints (R161). -/
def velBreakpoints : List Nat := [127, 111, 95, 79, 64, 48, 32, 16, 1]

/-- FEEDBACK_TABLE (R164): 0, then the powers of two from 1/64 to 1. -/
def feedbackTable (k : Nat) : F32 := if k = 0 then f32Zero else f32OfRat (2 ^ k) (2 ^ 7)

/-- MODULATION_SCALING = 12.5 (R9, R443). -/
def modulationScaling : F32 := f32OfRat 25 2

/-- INV_PARAM_3 = f32(1/3) (R9, D49). -/
def invParam3 : F32 := f32OfRat 1 3

/-- f32(SAMPLE_RATE). -/
def sampleRateF32 : F32 := f32OfInt Config.sampleRate

/-! ## Defaults that the spec writes down (assumption log 3) -/

/-- LEVEL_LUT with the default entries 3..18 (R155). -/
def levelLutDefault : List Nat := [0, 5, 9, 13, 17, 20, 23, 25, 27, 29, 31, 33, 35, 37, 39, 41, 42, 43, 45, 46]

/-- KEYSCALE_EXP's default (R163). -/
def keyscaleExpDefault : List Nat :=
  [0, 1, 2, 3, 4, 5, 6, 7, 8, 9, 11, 14, 16, 19, 23, 27, 33, 39, 47, 56, 66, 80, 94, 110, 126, 142, 158, 174, 190, 206,
    222, 238, 250]

/-- A routing record with a feedback operator, as R431 writes a row. -/
def route (carriers : List (Fin 6)) (mods : List (Fin 6 × List (Fin 6))) (fbOp : Fin 6) : Algorithm :=
  { carriers, mods, hasFb := true, fbOp }

/-- The default catalogue (R431), entry a at position a. -/
def catalogueDefault : List Algorithm :=
  [ route [0, 2] [(0, [1]), (2, [3]), (3, [4]), (4, [5])] 5,
    route [0, 2] [(0, [1]), (2, [3]), (3, [4]), (4, [5])] 1,
    route [0, 3] [(0, [1]), (1, [2]), (3, [4]), (4, [5])] 5,
    route [0, 3] [(0, [1]), (1, [2]), (3, [4]), (4, [5])] 5,
    route [0, 2, 4] [(0, [1]), (2, [3]), (4, [5])] 5,
    route [0, 2, 4] [(0, [1]), (2, [3]), (4, [5])] 5,
    route [0, 2] [(0, [1]), (2, [3, 4]), (4, [5])] 5,
    route [0, 2] [(0, [1]), (2, [3, 4]), (4, [5])] 3 ] ++
  [ route [0, 2] [(0, [1]), (2, [3, 4]), (4, [5])] 1,
    route [0, 3] [(0, [1]), (1, [2]), (3, [4, 5])] 2,
    route [0, 3] [(0, [1]), (1, [2]), (3, [4, 5])] 5,
    route [0, 2] [(0, [1]), (2, [3, 4, 5])] 1,
    route [0, 2] [(0, [1]), (2, [3, 4, 5])] 5,
    route [0, 2] [(0, [1]), (2, [3]), (3, [4, 5])] 5,
    route [0, 2] [(0, [1]), (2, [3]), (3, [4, 5])] 1,
    route [0] [(0, [1, 2, 4]), (2, [3]), (4, [5])] 5 ] ++
  [ route [0] [(0, [1, 2, 4]), (2, [3]), (4, [5])] 1,
    route [0] [(0, [1, 2, 3]), (3, [4]), (4, [5])] 2,
    route [0, 3, 4] [(0, [1]), (1, [2]), (3, [5]), (4, [5])] 5,
    route [0, 1, 3] [(0, [2]), (1, [2]), (3, [4, 5])] 2,
    route [0, 1, 3, 4] [(0, [2]), (1, [2]), (3, [5]), (4, [5])] 2,
    route [0, 2, 3, 4] [(0, [1]), (2, [5]), (3, [5]), (4, [5])] 5,
    route [0, 1, 3, 4] [(1, [2]), (3, [5]), (4, [5])] 5,
    route [0, 1, 2, 3, 4] [(2, [5]), (3, [5]), (4, [5])] 5 ] ++
  [ route [0, 1, 2, 3, 4] [(3, [5]), (4, [5])] 5,
    route [0, 1, 3] [(1, [2]), (3, [4, 5])] 5,
    route [0, 1, 3] [(1, [2]), (3, [4, 5])] 2,
    route [0, 2, 5] [(0, [1]), (2, [3]), (3, [4])] 4,
    route [0, 1, 2, 4] [(2, [3]), (4, [5])] 5,
    route [0, 1, 2, 5] [(2, [3]), (3, [4])] 4,
    route [0, 1, 2, 3, 4] [(4, [5])] 5,
    route [0, 1, 2, 3, 4, 5] [] 5 ]

/-- The all-carrier entry 31, which the source fixes (R431). -/
def allCarriers : Algorithm := route [0, 1, 2, 3, 4, 5] [] 5

/-! ## The hardware's tables with OPEN entries (assumption log 2) -/

/-- An F32 of a sign and 31 bits. -/
def f32OfOpen (p : Bool × Fin 0x5F800001) : F32 := f32Pack p.1 p.2.val

/-- The tables of R154 that have an OPEN entry, with the entries the spec fixes (R155 to R169, R431), and LFO_SEED at its default
(R9). -/
def rom : Rom where
  levelLut k := levelLutDefault.getD k 0
  statics k := (Config.staticsOpen k).val
  detune k := if k = 1 then f32OfRat 78 1000 else BitVec.ofNat 32 (Config.detuneOpen k).val
  velTable s k := f32OfOpen (Config.velOpen s k)
  keyscaleExp k := keyscaleExpDefault.getD k 0
  lfoSpeed k :=
    if k = 0 then f32OfRat 1 16 else if k = 99 then f32OfInt 49
    else BitVec.ofNat 32 ((Config.lfoSpeedOpen k).val + 1)
  lfoDelay k :=
    if k = 0 then f32Zero else if k = 99 then f32OfRat 283 100 else BitVec.ofNat 32 (Config.lfoDelayOpen k).val
  lfoPms k :=
    if k = 0 then f32Zero else if k = 7 then f32One else BitVec.ofNat 32 (Config.lfoPmsOpen k).val
  pitchenvTab k :=
    if k = 0 then -128 else if k = 50 then 0 else if k = 99 then 127 else (Config.pitchenvTabOpen k).toInt
  pitchenvRate k := (Config.pitchenvRateOpen k).val + 1
  algorithms k := catalogueDefault.getD k allCarriers
  lfoSeed := Config.lfoSeed

end Sys2Proof.Machine
end

