-- ==== Sys2Proof/Machine/Lut.lean ====
section
/-! DEFINITION. The LUT (spec/40_lut.md): sine and exp2 look-up with interpolation, and the closed-form waveforms. -/

namespace Sys2Proof.Machine

/-- A + fr * (B - A), the linear interpolation of R253 and R256: one rounding per written operation. -/
def interpolate (a b fr : F32) : F32 := f32Add a (f32Mul fr (f32Sub b a))

/-- lut_sin(p), p in cycles (R253); the wrap is the full wrap of R254. -/
def lutSin (p : F32) : F32 :=
  let pos := f32Mul (f32Frac p) (f32OfInt 4096)
  let i0 := (f32Floor pos).toNat
  let fr := f32Sub pos (f32OfInt i0)
  interpolate (sineLut i0) (sineLut ((i0 + 1) % 4096)) fr

/-- EXP2_XMAX = 10 - 2^-20 (R256, D42). -/
def exp2Xmax : F32 := 0x411FFFFF#32

/-- The clamp of R256 to [-20, EXP2_XMAX]. -/
def exp2Clamp (x : F32) : F32 :=
  if f32Lt x (f32OfInt (-20)) then f32OfInt (-20) else if f32Lt exp2Xmax x then exp2Xmax else x

/-- The table position of a clamped argument: (c ⊕ 20) ⊗ 136.5 (R256). -/
def exp2Pos (c : F32) : F32 := f32Mul (f32Add c (f32OfInt 20)) (f32OfRat 273 2)

/-- lut_exp2(x) (R256): 1.0 at zero without the table, the index guard at 4094. A NaN argument does not arise (R257). -/
def lutExp2 (x : F32) : F32 :=
  if f32IsNaN x then BitVec.ofNat 32 (0x35800000 + (Config.exp2Open x).val)
  else if f32Eq x f32Zero then f32One
  else
    let pos := exp2Pos (exp2Clamp x)
    let i0 := min (f32Floor pos).toNat 4094
    let fr := f32Sub pos (f32OfInt i0)
    interpolate (exp2Lut i0) (exp2Lut (i0 + 1)) fr

/-- tri(p) (R259). -/
def tri (p : F32) : F32 :=
  if f32Lt p f32Half then f32Sub (f32Mul (f32OfInt 4) p) f32One else f32Sub (f32OfInt 3) (f32Mul (f32OfInt 4) p)

/-- saw(p), the rising saw (R260). -/
def saw (p : F32) : F32 := f32Sub (f32Mul (f32OfInt 2) p) f32One

/-- square(p) (R261). -/
def square (p : F32) : F32 := if f32Lt p f32Half then f32One else f32OfInt (-1)

/-- wave(w, p), the operator waveform codes (R263); w is clamped to 4 at use. -/
def wave (w : Nat) (p : F32) : F32 :=
  match w with
  | 0 => lutSin p
  | 1 => tri p
  | 2 => f32Neg (saw p)
  | 3 => saw p
  | _ => square p

end Sys2Proof.Machine
end

