-- ==== Sys2Proof/Syntax.lean ====
section
/-! DEFINITION. The command set of AS7-CORE: one constructor per row of spec/opcode_table.json (spec/30_encoding.md R203), with
the operands of its format (R201), each an unsigned field taken as is (R202). -/

namespace Sys2Proof

/-- The 14 commands of R203. -/
inductive Instr where
  /-- NOP (R580), format N. -/
  | nop
  /-- NOTE_ON note, vel (R550), format K. -/
  | noteOn (note vel : BitVec 7)
  /-- NOTE_OFF note (R555), format K0. -/
  | noteOff (note : BitVec 7)
  /-- SET_ALGORITHM value (R582), format V. -/
  | setAlgorithm (value : Byte)
  /-- SET_FEEDBACK value (R584), format V. -/
  | setFeedback (value : Byte)
  /-- SET_OSC_KEY_SYNC b (R586), format B. -/
  | setOscKeySync (b : BitVec 1)
  /-- SET_MONO b (R588), format B. -/
  | setMono (b : BitVec 1)
  /-- CONFIGURE (R590), format N. -/
  | configure
  /-- STATUS_CLEAR (R592), format N. -/
  | statusClear
  /-- PARAM_WRITE addr, data (R594), format A. -/
  | paramWrite (addr data : Byte)
  /-- PARAM_READ addr (R596), format A0. -/
  | paramRead (addr : Byte)
  /-- VBUF_WRITE offset, data (R598), format A. -/
  | vbufWrite (offset data : Byte)
  /-- VOICE_LOAD (R600), format N. -/
  | voiceLoad
  /-- REG_READ reg (R604), format V. -/
  | regRead (reg : Byte)
  deriving DecidableEq, Repr

/-- The causes of a command rejection (spec/60_exceptions.md R631). -/
inductive RejectCode where
  /-- Code 1, ILLEGAL_OPCODE: w[31:24] is not in the opcode map. -/
  | illegalOpcode
  /-- Code 2, RESERVED_BITS: a bit that the opcode's format reserves as 0 is 1. -/
  | reservedBits
  /-- Code 3, PARAM_UNMAPPED: w[15:8] is an unmapped PARAM address. -/
  | paramUnmapped
  /-- Code 4, VBUF_RANGE: w[15:8] is 128 or more. -/
  | vbufRange
  /-- Code 5, REG_UNMAPPED: w[7:0] is an unmapped register number. -/
  | regUnmapped
  deriving DecidableEq, Repr

end Sys2Proof
end

