-- ==== Sys2Proof/Machine/AddressMap.lean ====
section
/-! DEFINITION. The address map of PARAM (spec/20_memory.md R152), the range of VBUF (R150) and the register numbers of REG
(spec/10_state.md R100). -/

namespace Sys2Proof.Machine

/-- The per-operator parameters (10_state.md R58); `l n` is L(n+1) and `r n` is R(n+1). -/
inductive OpField where
  | enabled | fixedMode | detune | coarse | fine | outputLevel
  | l (n : Fin 4)
  | r (n : Fin 4)
  | rateScaling | velSens | ampModSens
  | ksBreakpoint | ksLeftDepth | ksRightDepth | ksLeftCurve | ksRightCurve
  | oscKeySync | waveform
  deriving DecidableEq, Repr

/-- The voice, LFO, pitch-envelope and synth parameters (R59 to R62); `pl n` is PL(n+1) and `pr n` is PR(n+1). -/
inductive GlobalField where
  | algorithm | feedback | transpose
  | lfoWaveform | lfoSpeed | lfoDelay | lfoPmd | lfoAmd | lfoPms | lfoKeySync
  | pl (n : Fin 4)
  | pr (n : Fin 4)
  | mono
  deriving DecidableEq, Repr

/-- The offset of a field in its operator's block (R152). -/
def opOffset : OpField → Nat
  | .enabled => 0x00
  | .fixedMode => 0x01
  | .detune => 0x02
  | .coarse => 0x03
  | .fine => 0x04
  | .outputLevel => 0x05
  | .l n => 0x06 + n.val
  | .r n => 0x0A + n.val
  | .rateScaling => 0x0E
  | .velSens => 0x0F
  | .ampModSens => 0x10
  | .ksBreakpoint => 0x11
  | .ksLeftDepth => 0x12
  | .ksRightDepth => 0x13
  | .ksLeftCurve => 0x14
  | .ksRightCurve => 0x15
  | .oscKeySync => 0x16
  | .waveform => 0x17

/-- The PARAM address of field `f` of core index `i`: 0x20 * i + offset (R152). -/
def opAddr (i : Fin 6) (f : OpField) : Nat := 0x20 * i.val + opOffset f

/-- The PARAM address of a voice, LFO, pitch-envelope or synth field (R152). -/
def globalAddr : GlobalField → Nat
  | .algorithm => 0xC0
  | .feedback => 0xC1
  | .transpose => 0xC2
  | .lfoWaveform => 0xD0
  | .lfoSpeed => 0xD1
  | .lfoDelay => 0xD2
  | .lfoPmd => 0xD3
  | .lfoAmd => 0xD4
  | .lfoPms => 0xD5
  | .lfoKeySync => 0xD6
  | .pl n => 0xE0 + n.val
  | .pr n => 0xE4 + n.val
  | .mono => 0xF0

/-- The mapped PARAM addresses (R151, R152). -/
def paramMapped (a : Nat) : Bool :=
  if a < 0xC0 then decide (a % 0x20 < 0x18)
  else decide (a ≤ 0xC2) || (decide (0xD0 ≤ a) && decide (a ≤ 0xD6)) ||
    (decide (0xE0 ≤ a) && decide (a ≤ 0xE7)) || decide (a = 0xF0)

/-- The legal VBUF offsets, 0..127 (R150). -/
def vbufMapped (a : Nat) : Bool := decide (a < 128)

/-- The read-only registers (10_state.md R100). -/
inductive Reg where
  | status | voiceActive | voiceHeld | lastOut | ageCounterLo | ageCounterHi
  | voiceNote (v : Fin 8)
  | voiceAgeLo (v : Fin 8)
  | voiceAgeHi (v : Fin 8)
  | lfoAmpMod | lfoPitchMod | lfoPhase | lfoDelay | lfoPrng | lfoHeld
  | envStatus (v : Fin 8) (i : Fin 6)
  | penvStatus (v : Fin 8)
  | envLevel (v : Fin 8) (i : Fin 6)
  | penvLevel (v : Fin 8)
  | oscPhase (v : Fin 8) (i : Fin 6)
  deriving DecidableEq, Repr

/-- The voice of a register number: (n mod 64) / 8 in the three banks from 0x40 on, n mod 8 below. -/
def regBankVoice (n : Nat) : Fin 8 := Fin.ofNat 8 (n / 8)

/-- The register with number `n`, none where unmapped (R100). -/
def regOf (n : Nat) : Option Reg :=
  if n < 0x08 then
    match n with
    | 0x00 => some .status
    | 0x01 => some .voiceActive
    | 0x02 => some .voiceHeld
    | 0x03 => some .lastOut
    | 0x04 => some .ageCounterLo
    | 0x05 => some .ageCounterHi
    | _ => none
  else if n < 0x10 then some (.voiceNote (Fin.ofNat 8 n))
  else if n < 0x18 then some (.voiceAgeLo (Fin.ofNat 8 n))
  else if n < 0x20 then some (.voiceAgeHi (Fin.ofNat 8 n))
  else if n < 0x40 then
    match n with
    | 0x20 => some .lfoAmpMod
    | 0x21 => some .lfoPitchMod
    | 0x22 => some .lfoPhase
    | 0x23 => some .lfoDelay
    | 0x24 => some .lfoPrng
    | 0x25 => some .lfoHeld
    | _ => none
  else if n < 0x80 then
    if n % 8 < 6 then some (.envStatus (regBankVoice n) (Fin.ofNat 6 (n % 8)))
    else if n % 8 = 6 then some (.penvStatus (regBankVoice n))
    else none
  else if n < 0xC0 then
    if n % 8 < 6 then some (.envLevel (regBankVoice n) (Fin.ofNat 6 (n % 8)))
    else if n % 8 = 6 then some (.penvLevel (regBankVoice n))
    else none
  else if n < 0x100 then
    if n % 8 < 6 then some (.oscPhase (regBankVoice n) (Fin.ofNat 6 (n % 8))) else none
  else none

/-- The operand checks of 30_encoding.md R205, lines 3 to 5: the rejection that a recognised command's operand earns, if any. -/
def operandReject : Instr → Option RejectCode
  | .nop => none
  | .noteOn _ _ => none
  | .noteOff _ => none
  | .setAlgorithm _ => none
  | .setFeedback _ => none
  | .setOscKeySync _ => none
  | .setMono _ => none
  | .configure => none
  | .statusClear => none
  | .paramWrite addr _ => if paramMapped addr.toNat then none else some .paramUnmapped
  | .paramRead addr => if paramMapped addr.toNat then none else some .paramUnmapped
  | .vbufWrite offset _ => if vbufMapped offset.toNat then none else some .vbufRange
  | .voiceLoad => none
  | .regRead reg => if (regOf reg.toNat).isSome then none else some .regUnmapped

end Sys2Proof.Machine
end

