-- ==== Sys2Proof/WellFormed.lean ====
section
/-! DEFINITION. The well-formed commands: those whose operands pass the operand checks of spec/30_encoding.md R205 (a mapped PARAM
address, a VBUF offset below 128, a mapped register number). Every other operand is bounded by its type. -/

namespace Sys2Proof

/-- A command whose operands R205 accepts. -/
abbrev WellFormed (i : Instr) : Prop := Machine.operandReject i = none

end Sys2Proof
end

