-- ==== Sys2Proof/Decode.lean ====
section
/-! DEFINITION. The command decoder and encoder (spec/30_encoding.md R200 to R205). The decoder makes the first two checks of R205 (opcode,
reserved bits) and takes the fields; the operand checks, lines 3 to 5, are `Machine.operandReject`, which a meaning makes
before it has any effect (assumption log 8). -/

namespace Sys2Proof

/-- The command formats of R201. -/
inductive Format where
  | N | K | K0 | V | B | A | A0
  deriving DecidableEq, Repr

/-- The bits of [23:0] that a format reserves as 0 (R201, "Field by field"). -/
def formatReserved : Format → Word
  | .N => 0x00FFFFFF#32
  | .K => 0x00FF8080#32
  | .K0 => 0x00FF80FF#32
  | .V => 0x00FFFF00#32
  | .B => 0x00FFFFFE#32
  | .A => 0x00FF0000#32
  | .A0 => 0x00FF00FF#32

/-- The second check of R205: a non-zero reserved bit is a rejection with code 2. -/
def checkReserved (f : Format) (w : Word) (i : Instr) : Except RejectCode Instr :=
  if w &&& formatReserved f = 0 then .ok i else .error .reservedBits

/-- w[31:24], the opcode (R200). -/
def wordOpcode (w : Word) : Byte := w.extractLsb' 24 8

/-- note = w[14:8] (R201, formats K and K0). -/
def wordNote (w : Word) : BitVec 7 := w.extractLsb' 8 7

/-- vel = w[6:0] (R201, format K). -/
def wordVel (w : Word) : BitVec 7 := w.extractLsb' 0 7

/-- addr = w[15:8] (R201, formats A and A0). -/
def wordAddr (w : Word) : Byte := w.extractLsb' 8 8

/-- value or data = w[7:0] (R201, formats V and A). -/
def wordLow (w : Word) : Byte := w.extractLsb' 0 8

/-- b = w[0] (R201, format B). -/
def wordBit (w : Word) : BitVec 1 := w.extractLsb' 0 1

/-- The command that a word stands for, or the rejection of the first two checks of R205. -/
def decode (w : Word) : Except RejectCode Instr :=
  match (wordOpcode w).toNat with
  | 0x00 => checkReserved .N w .nop
  | 0x01 => checkReserved .K w (.noteOn (wordNote w) (wordVel w))
  | 0x02 => checkReserved .K0 w (.noteOff (wordNote w))
  | 0x03 => checkReserved .V w (.setAlgorithm (wordLow w))
  | 0x04 => checkReserved .V w (.setFeedback (wordLow w))
  | 0x05 => checkReserved .B w (.setOscKeySync (wordBit w))
  | 0x06 => checkReserved .B w (.setMono (wordBit w))
  | 0x07 => checkReserved .N w .configure
  | 0x08 => checkReserved .N w .statusClear
  | 0x10 => checkReserved .A w (.paramWrite (wordAddr w) (wordLow w))
  | 0x11 => checkReserved .A0 w (.paramRead (wordAddr w))
  | 0x12 => checkReserved .A w (.vbufWrite (wordAddr w) (wordLow w))
  | 0x13 => checkReserved .N w .voiceLoad
  | 0x14 => checkReserved .V w (.regRead (wordLow w))
  | _ => .error .illegalOpcode

/-- All the checks of R205 in their order: the rejection that a word earns, none where its rule executes. -/
def commandReject (w : Word) : Option RejectCode :=
  match decode w with
  | .error c => some c
  | .ok i => Machine.operandReject i

/-- The word of a command (R201, R203): the opcode in [31:24], the operands in their fields, every reserved bit 0. -/
def encode : Instr → Word
  | .nop => 0x00#8 ++ 0#24
  | .noteOn note vel => 0x01#8 ++ 0#9 ++ note ++ 0#1 ++ vel
  | .noteOff note => 0x02#8 ++ 0#9 ++ note ++ 0#8
  | .setAlgorithm value => 0x03#8 ++ 0#16 ++ value
  | .setFeedback value => 0x04#8 ++ 0#16 ++ value
  | .setOscKeySync b => 0x05#8 ++ 0#23 ++ b
  | .setMono b => 0x06#8 ++ 0#23 ++ b
  | .configure => 0x07#8 ++ 0#24
  | .statusClear => 0x08#8 ++ 0#24
  | .paramWrite addr data => 0x10#8 ++ 0#8 ++ addr ++ data
  | .paramRead addr => 0x11#8 ++ 0#8 ++ addr ++ 0#8
  | .vbufWrite offset data => 0x12#8 ++ 0#8 ++ offset ++ data
  | .voiceLoad => 0x13#8 ++ 0#24
  | .regRead reg => 0x14#8 ++ 0#16 ++ reg

/-- The command read from the low `nbits` bits of `w`, as spec/opcode_table.json numbers them; a command is one word (R200). -/
def decodeTableWord (nbits w : Nat) : Option Instr :=
  match decode (BitVec.ofNat 32 (w % 2 ^ nbits)) with
  | .ok i => some i
  | .error _ => none

end Sys2Proof
end

