-- ==== Sys2Proof/Machine/State.lean ====
section
/-! DEFINITION. The state of AS7-CORE (spec/10_state.md R50 to R71) as plain data, its reset value (R101), and the reasons a step can
stop. -/

namespace Sys2Proof.Machine

/-- A byte store: (address, byte) pairs, addresses strictly rising, no byte 0. An unlisted address holds 0, the reset
contents of PARAM and VBUF (R57, R63). -/
abbrev Memory := List Host.Cell

/-- An envelope stage: 0 attack, 1 decay-1, 2 decay-2, 3 release, 4 idle (R68, R69). -/
inductive Stage where
  | attack | decay1 | decay2 | release | idle
  deriving DecidableEq, Repr

/-- An oscillator (R67). -/
structure Oscillator where
  phase : F32
  inc : F32
  deriving DecidableEq, Repr

/-- An amplitude envelope (R68); the 32-bit fields are i32. -/
structure Envelope where
  level : BitVec 32
  target : BitVec 32
  inc : BitVec 32
  stage : Stage
  rising : Bool
  keyDown : Bool
  staticCount : BitVec 32
  rsDelta : BitVec 32
  armed : Bool
  deriving DecidableEq, Repr

/-- A pitch envelope (R69); the 32-bit fields are i32. -/
structure PitchEnvelope where
  level : BitVec 32
  target : BitVec 32
  inc : BitVec 32
  stage : Stage
  rising : Bool
  keyDown : Bool
  deriving DecidableEq, Repr

/-- An operator: its own fields (R66), its oscillator and its amplitude envelope. -/
structure Operator where
  freq : F32
  velF : F32
  lsF : F32
  prevOut : F32
  osc : Oscillator
  env : Envelope
  deriving DecidableEq, Repr

/-- A voice: its note and held bit (R65), its age (R64), its operators by core index, its pitch envelope and its scratch
buffer (R70). -/
structure Voice where
  note : Byte
  held : Bool
  age : BitVec 64
  ops : Vector Operator 6
  pe : PitchEnvelope
  scratch : Vector F32 6
  deriving DecidableEq, Repr

/-- The global LFO (R71). -/
structure Lfo where
  phase : F32
  delay : BitVec 32
  ampMod : F32
  pitchMod : F32
  held : F32
  prng : BitVec 32
  deriving DecidableEq, Repr

/-- An input event of the block (00_scope.md R6). -/
inductive Event where
  /-- One 32-bit command word on the command port. -/
  | command (w : Word)
  /-- One sample period. -/
  | tick
  /-- Hardware reset. -/
  | reset
  deriving DecidableEq, Repr

/-- The state of the block, and the events the host has sent that the block has not taken yet. -/
structure State where
  /-- S.configured (R55). -/
  configured : Bool
  /-- STATUS.CMD_ERR (R53). -/
  cmdErr : Bool
  /-- STATUS.ERR_CODE (R53). -/
  errCode : BitVec 4
  /-- S.rdata (R54). -/
  rdata : Word
  /-- S.out (R56). -/
  out : F32
  /-- The parameter store P (R57, R151). -/
  params : Memory
  /-- S.vbuf (R63). -/
  vbuf : Memory
  /-- S.counter (R64). -/
  counter : BitVec 64
  /-- The eight voices (R64 to R70). -/
  voices : Vector Voice 8
  /-- S.lfo (R71). -/
  lfo : Lfo
  /-- The model's own field: the host's events not yet taken, the next one first (assumption log 1). -/
  events : List Event
  deriving DecidableEq, Repr

/-- The reasons to stop with a fault. There is none: every event has an outcome the spec defines (60_exceptions.md R630, R651), and
where it leaves a value open the step goes on with a free value (assumption log 4, 5). Nothing raises a fault, which is safe. -/
inductive Fault where
  deriving DecidableEq, Repr

/-- The reasons to refuse an instruction. -/
inductive Refusal where
  /-- An instruction without a meaning, named by its mnemonic; raised by an arm of exec only, and by none now. Safe. -/
  | notModelled (mnemonic : String)
  deriving DecidableEq, Repr

/-- An oscillator after reset (R67). -/
def Oscillator.reset : Oscillator := { phase := 0#32, inc := 0#32 }

/-- An amplitude envelope after reset (R68). -/
def Envelope.reset : Envelope :=
  { level := 0#32, target := 0#32, inc := 0#32, stage := .idle, rising := false, keyDown := false,
    staticCount := 0#32, rsDelta := 0#32, armed := false }

/-- A pitch envelope after reset (R69). -/
def PitchEnvelope.reset : PitchEnvelope :=
  { level := 0#32, target := 0#32, inc := 0#32, stage := .idle, rising := false, keyDown := false }

/-- An operator after reset (R66). -/
def Operator.reset : Operator :=
  { freq := 0#32, velF := 0#32, lsF := 0#32, prevOut := 0#32, osc := .reset, env := .reset }

/-- A voice after reset (R64, R65); the scratch buffer's value is the model's (assumption log 6). -/
def Voice.reset : Voice :=
  { note := 0xFF#8, held := false, age := 0#64, ops := Vector.replicate 6 .reset, pe := .reset,
    scratch := Vector.replicate 6 0#32 }

/-- The LFO after reset of a block with LFO_SEED `seed` (R71); 0x3F800000 is 1.0. -/
def Lfo.reset (seed : BitVec 32) : Lfo :=
  { phase := 0#32, delay := 0#32, ampMod := 0#32, pitchMod := 0x3F800000#32, held := 0#32, prng := seed }

/-- The state right after hardware reset of a block with LFO_SEED `seed` (R101, 70_reset_and_hazards.md R670), with no event
pending (assumption log 1). -/
def State.resetOf (seed : BitVec 32) : State :=
  { configured := false, cmdErr := false, errCode := 0#4, rdata := 0#32, out := 0#32, params := [], vbuf := [],
    counter := 0#64, voices := Vector.replicate 8 .reset, lfo := .reset seed, events := [] }

/-- The state right after hardware reset with the default LFO_SEED (assumption log 3), the one that `Machine.rom` holds. -/
def State.reset : State := State.resetOf Config.lfoSeed

end Sys2Proof.Machine
end

