-- ==== Sys2Proof/Machine/Ops.lean ====
section
/-! DEFINITION. The named operations over memory, registers and events: reading and writing a byte store, storing an integer into a
register, the age counter, taking the next event, and rejecting a command (spec/60_exceptions.md R632), the one exceptional
event of the block. There is no return from a rejection (R642). -/

namespace Sys2Proof.Machine

/-! ## Byte stores (PARAM, VBUF) -/

/-- The byte at an address; an unlisted address holds 0, the reset contents (R57, R63). -/
def Memory.read (m : Memory) (a : Nat) : Byte :=
  match m with
  | [] => 0#8
  | (k, b) :: rest => if k = a then b else Memory.read rest a

/-- The store with byte `b` at address `a`, in canonical form. -/
def Memory.write (m : Memory) (a : Nat) (b : Byte) : Memory :=
  match m with
  | [] => if b = 0#8 then [] else [(a, b)]
  | (k, c) :: rest =>
    if a < k then (if b = 0#8 then (k, c) :: rest else (a, b) :: (k, c) :: rest)
    else if a = k then (if b = 0#8 then rest else (a, b) :: rest)
    else (k, c) :: Memory.write rest a b

/-- A list of writes in order. -/
def Memory.writeAll (m : Memory) : List (Nat × Byte) → Memory
  | [] => m
  | (a, b) :: rest => Memory.writeAll (Memory.write m a b) rest

/-- Every address of the store is above `low`, the addresses rise, and no byte is 0. -/
def Memory.wfAbove (low : Nat) (m : Memory) : Bool :=
  match m with
  | [] => true
  | (k, b) :: rest => decide (low < k) && b != 0#8 && Memory.wfAbove k rest

/-- The canonical form: addresses strictly rising, no byte equal to what an unlisted address holds. -/
def Memory.wf (m : Memory) : Bool :=
  match m with
  | [] => true
  | (k, b) :: rest => b != 0#8 && Memory.wfAbove k rest

/-- Every listed address satisfies `p`. -/
def Memory.within (p : Nat → Bool) (m : Memory) : Bool := m.all fun c => p c.1

/-! ## Integers in registers -/

/-- An integer in an i32 register (R12). Every rule that stores one shows that it fits (assumption log 7). -/
def toI32 (n : Int) : BitVec 32 := BitVec.ofInt 32 n

/-- An integer in a u32 register (R12). -/
def toU32 (n : Int) : BitVec 32 := BitVec.ofInt 32 n

/-- S.counter + 1 (R530); the wrap of 2^64 - 1 is not defined (R533; assumption log 5). -/
def nextCounter (c : BitVec 64) : BitVec 64 := if c = BitVec.allOnes 64 then Config.counterAfterMax else c + 1#64

/-- The number of a stage (R68). -/
def stageCode : Stage → Nat
  | .attack => 0
  | .decay1 => 1
  | .decay2 => 2
  | .release => 3
  | .idle => 4

/-- The index n in 0..3 of a stage's level and rate parameters; none for the idle stage. -/
def stageIndex : Stage → Option (Fin 4)
  | .attack => some 0
  | .decay1 => some 1
  | .decay2 => some 2
  | .release => some 3
  | .idle => none

/-- stage + 1. The idle stage is never advanced from (R307; assumption log 10). -/
def nextStage : Stage → Stage
  | .attack => .decay1
  | .decay1 => .decay2
  | .decay2 => .release
  | .release => .idle
  | .idle => .idle

/-- "stage < 3 or (stage == 3 and not keyDown)": the stages in which an envelope moves (R307, R354). -/
def stageMoves (st : Stage) (keyDown : Bool) : Bool :=
  match st with
  | .attack => true
  | .decay1 => true
  | .decay2 => true
  | .release => !keyDown
  | .idle => false

/-! ## Events and rejections -/

/-- The next event, and the state without it; none when the host has sent none (assumption log 1). -/
def takeEvent (s : State) : Option (Event × State) :=
  match s.events with
  | [] => none
  | e :: rest => some (e, { s with events := rest })

/-- ERR_CODE of a rejection (R631). -/
def rejectNumber : RejectCode → BitVec 4
  | .illegalOpcode => 1#4
  | .reservedBits => 2#4
  | .paramUnmapped => 3#4
  | .vbufRange => 4#4
  | .regUnmapped => 5#4

/-- raise CmdError(code): CMD_ERR <- 1, ERR_CODE <- code, nothing else (R632). -/
def rejectCommand (c : RejectCode) (s : State) : State := { s with cmdErr := true, errCode := rejectNumber c }

/-- Hardware reset (R670) of a block with the parameters `T`: every state element at its reset value, prng at LFO_SEED. The host's
later events stay pending (assumption log 12). -/
def hardwareReset (T : Rom) (s : State) : State := { State.resetOf T.lfoSeed with events := s.events }

end Sys2Proof.Machine
end

