-- ==== Sys2Proof/Machine/Operands.lean ====
section
/-! DEFINITION. Operand forms: the parameter views of spec/20_memory.md R153. A stored byte is raw; every use clamps it to the
range of 10_state.md R58 to R62 ("the clamp is the contract", R57), or takes it as a boolean. -/

namespace Sys2Proof.Machine

/-- clampmax(raw, hi) (R15). -/
def clampMax (raw hi : Nat) : Nat := min raw hi

/-- clamp(x, lo, hi) (R15). -/
def clampInt (x lo hi : Int) : Int := min (max x lo) hi

/-- The range maximum of a per-operator field (R58); a boolean's is 1 and is not used as a clamp. -/
def opMax : OpField → Nat
  | .enabled => 1
  | .fixedMode => 1
  | .detune => 14
  | .coarse => 31
  | .fine => 99
  | .outputLevel => 99
  | .l _ => 99
  | .r _ => 99
  | .rateScaling => 7
  | .velSens => 7
  | .ampModSens => 3
  | .ksBreakpoint => 99
  | .ksLeftDepth => 99
  | .ksRightDepth => 99
  | .ksLeftCurve => 3
  | .ksRightCurve => 3
  | .oscKeySync => 1
  | .waveform => 4

/-- The range maximum of a voice, LFO, pitch-envelope or synth field (R59 to R62). -/
def globalMax : GlobalField → Nat
  | .algorithm => 31
  | .feedback => 7
  | .transpose => 48
  | .lfoWaveform => 5
  | .lfoSpeed => 99
  | .lfoDelay => 99
  | .lfoPmd => 99
  | .lfoAmd => 99
  | .lfoPms => 7
  | .lfoKeySync => 1
  | .pl _ => 99
  | .pr _ => 99
  | .mono => 1

/-- P.F(i), the raw byte (R153). -/
def rawOp (P : Memory) (i : Fin 6) (f : OpField) : Nat := (Memory.read P (opAddr i f)).toNat

/-- P.F, the raw byte (R153). -/
def rawGlobal (P : Memory) (f : GlobalField) : Nat := (Memory.read P (globalAddr f)).toNat

/-- clampmax(P.F(i), hi) (R153). -/
def opParam (P : Memory) (i : Fin 6) (f : OpField) : Nat := clampMax (rawOp P i f) (opMax f)

/-- bool(P.F(i)) (R15, R153). -/
def opFlag (P : Memory) (i : Fin 6) (f : OpField) : Bool := rawOp P i f != 0

/-- clampmax(P.F, hi) (R153). -/
def globalParam (P : Memory) (f : GlobalField) : Nat := clampMax (rawGlobal P f) (globalMax f)

/-- bool(P.F) (R15, R153). -/
def globalFlag (P : Memory) (f : GlobalField) : Bool := rawGlobal P f != 0

end Sys2Proof.Machine
end

