-- ==== Sys2Proof/Machine/Envelope.lean ====
section
/-! DEFINITION. The amplitude envelope (spec/42_envelope.md): four stages in the Q24 log2 domain. `P` is the parameter store, `i` the core
index of the envelope's operator; integers are exact (00_scope.md R13) and stored into i32 registers. -/

namespace Sys2Proof.Machine

/-- scaleOut(l) (R300). -/
def scaleOut (T : Rom) (l : Nat) : Nat := if 20 ≤ l then 28 + l else T.levelLut l

/-- actual(n) (R301). -/
def envActual (T : Rom) (P : Memory) (i : Fin 6) (n : Fin 4) : Int :=
  max (((scaleOut T (opParam P i (.l n)) / 2 * 2 ^ 6 + scaleOut T (opParam P i .outputLevel) * 2 ^ 5 : Nat) : Int) - 4256) 16

/-- target(n) = actual(n) << 16 (R301). -/
def envTarget (T : Rom) (P : Memory) (i : Fin 6) (n : Fin 4) : Int := envActual T P i n * 2 ^ 16

/-- q(n) (R302). A negative sum does not arise, since rsDelta lies in 0..27 (R397; assumption log 10). -/
def envQRate (P : Memory) (i : Fin 6) (rsDelta : BitVec 32) (n : Fin 4) : Nat :=
  (min (((opParam P i (.r n) * 41 / 2 ^ 6 : Nat) : Int) + rsDelta.toInt) 63).toNat

/-- inc(n) (R303), from q(n). -/
def envIncOf (q : Nat) : Nat := (4 + q % 4) * 2 ^ (2 + q / 4) * Config.srMult / 2 ^ 24

/-- staticRate(n) (R304). -/
def envStaticRate (P : Memory) (i : Fin 6) (rsDelta : BitVec 32) (n : Fin 4) : Nat :=
  (min ((opParam P i (.r n) : Int) + rsDelta.toInt) 99).toNat

/-- staticCount(n) (R305). -/
def envStaticCount (T : Rom) (P : Memory) (i : Fin 6) (rsDelta : BitVec 32) (n : Fin 4) : Nat :=
  let sr := envStaticRate P i rsDelta n
  let c := if sr < 77 then T.statics sr else 20 * (99 - sr)
  let c := if sr < 77 ∧ n = 0 ∧ opParam P i (.l n) = 0 then c / 20 else c
  c * Config.srMult / 2 ^ 24

/-- env_advance(v, i, n) (R306): enter stage `st`. The level does not change. -/
def envAdvance (T : Rom) (P : Memory) (i : Fin 6) (st : Stage) (e : Envelope) : Envelope :=
  match stageIndex st with
  | none => { e with stage := st }
  | some n =>
    { e with
      stage := st
      target := toI32 (envTarget T P i n)
      rising := decide (e.level.toInt < envTarget T P i n)
      staticCount :=
        if envTarget T P i n = e.level.toInt ∨ (n = 0 ∧ opParam P i (.l n) = 0) then
          toI32 (envStaticCount T P i e.rsDelta n)
        else 0#32
      inc := toI32 (envIncOf (envQRate P i e.rsDelta n)) }

/-- Part (1) of R307: the countdown of a static pause, and the next stage when it ends. -/
def envCountdown (T : Rom) (P : Memory) (i : Fin 6) (e : Envelope) : Envelope :=
  if e.staticCount = 0#32 then e
  else if e.staticCount.toInt - 1 ≤ 0 then envAdvance T P i (nextStage e.stage) { e with staticCount := 0#32 }
  else { e with staticCount := toI32 (e.staticCount.toInt - 1) }

/-- 1716 << 16, the attack's jump target (R307, R308). -/
def envJumpTarget : Int := 1716 * 2 ^ 16

/-- The level after a rising step, before the clamp to the target (R307, R308). -/
def envRisen (level inc : Int) : Int :=
  max level envJumpTarget + (17 * 2 ^ 24 - max level envJumpTarget) / 2 ^ 24 * inc

/-- Part (2) of R307: one integration step of the current stage. -/
def envIntegrate (T : Rom) (P : Memory) (i : Fin 6) (e : Envelope) : Envelope :=
  if !stageMoves e.stage e.keyDown then e
  else if e.staticCount ≠ 0#32 then e
  else if e.rising then
    if e.target.toInt ≤ envRisen e.level.toInt e.inc.toInt then
      envAdvance T P i (nextStage e.stage) { e with level := e.target }
    else { e with level := toI32 (envRisen e.level.toInt e.inc.toInt) }
  else if e.level.toInt - e.inc.toInt ≤ e.target.toInt then
    envAdvance T P i (nextStage e.stage) { e with level := e.target }
  else { e with level := toI32 (e.level.toInt - e.inc.toInt) }

/-- env_gain (R310). -/
def envGain (P : Memory) (i : Fin 6) (e : Envelope) : F32 :=
  if !e.armed then f32Zero
  else if e.stage = .idle ∧ opParam P i (.l 3) = 0 then f32Zero
  else lutExp2 (f32OfRat (e.level.toInt - 14 * 2 ^ 24) (2 ^ 24))

/-- env_step (R307): the envelope after one tick, and its gain from the level after the step. -/
def envStep (T : Rom) (P : Memory) (i : Fin 6) (e : Envelope) : Envelope × F32 :=
  let e' := envIntegrate T P i (envCountdown T P i e)
  (e', envGain P i e')

/-- env_trigger (R313): the level is kept. -/
def envTrigger (T : Rom) (P : Memory) (i : Fin 6) (e : Envelope) : Envelope :=
  envAdvance T P i .attack { e with keyDown := true, armed := true }

/-- env_release (R314). -/
def envRelease (T : Rom) (P : Memory) (i : Fin 6) (e : Envelope) : Envelope :=
  if stageCode e.stage < 3 then envAdvance T P i .release { e with keyDown := false } else { e with keyDown := false }

end Sys2Proof.Machine
end

