-- ==== Sys2Proof/Machine/Oscillator.lean ====
section
/-! DEFINITION. The oscillator (spec/41_oscillator.md): a phase accumulator with phase modulation and a pitch multiplier. -/

namespace Sys2Proof.Machine

/-- The clamp of a frequency to [0, 20000] Hz by binary32 comparisons (R281, D48). -/
def oscClampFreq (f : F32) : F32 :=
  if f32Lt f f32Zero then f32Zero else if f32Lt (f32OfInt 20000) f then f32OfInt 20000 else f

/-- osc_set_freq (R281): the phase does not change. -/
def oscSetFreq (f : F32) (o : Oscillator) : Oscillator := { o with inc := f32Div (oscClampFreq f) sampleRateF32 }

/-- osc_step (R282): the sample of waveform `w` at the modulated phase, and the oscillator with its phase advanced. -/
def oscStep (pm pitchMod : F32) (w : Nat) (o : Oscillator) : Oscillator × F32 :=
  ({ o with phase := f32Frac (f32Add o.phase (f32Mul o.inc pitchMod)) }, wave w (f32Frac (f32Add o.phase pm)))

end Sys2Proof.Machine
end

