-- ==== Sys2Proof/Machine/Operator.lean ====
section
/-! DEFINITION. The operator (spec/44_operator.md): oscillator, envelope, velocity, key scaling, rate scaling, feedback. `P` is the
parameter store and `i` the core index. -/

namespace Sys2Proof.Machine

/-- base_freq(i, n) (R392), left to right with one rounding per operation. -/
def baseFreq (P : Memory) (i : Fin 6) (n : Nat) : F32 :=
  if opFlag P i .fixedMode then
    f32Mul (fixedFreqBase (opParam P i .coarse % 4)) (fixedFreqFine (opParam P i .fine))
  else
    let cv := if opParam P i .coarse = 0 then f32Half else f32OfInt (opParam P i .coarse)
    f32Mul (f32Mul (noteFreq n) cv) (f32Add f32One (f32Div (f32OfInt (opParam P i .fine)) (f32OfInt 100)))

/-- detune(i, base) (R393). -/
def detuneFreq (T : Rom) (P : Memory) (i : Fin 6) (base : F32) : F32 :=
  let det := opParam P i .detune
  if det = 7 then base
  else if det < 7 then f32Mul base (f32Sub f32One (f32Mul (T.detune (7 - det)) (f32OfRat 1 1000)))
  else f32Mul base (f32Add f32One (f32Mul (T.detune (det - 7)) (f32OfRat 1 1000)))

/-- op_freq(i, n) (R391). -/
def opFreq (T : Rom) (P : Memory) (i : Fin 6) (n : Nat) : F32 := detuneFreq T P i (baseFreq P i n)

/-- The piecewise linear interpolation of R396 over breakpoints that fall from `k` on, for a `vv` not above the first. -/
def velInterpolate (row : Nat → F32) (vv : Nat) : Nat → List Nat → F32
  | _, [] => row 8
  | k, [_] => row k
  | k, hi :: lo :: rest =>
    if vv = hi then row k
    else if lo < vv then
      interpolate (row (k + 1)) (row k) (f32OfRat (vv - lo) (hi - lo))
    else velInterpolate row vv (k + 1) (lo :: rest)

/-- vel_factor(i, vel) (R396), with the velocity clamp of R395. -/
def velFactor (T : Rom) (P : Memory) (i : Fin 6) (vel : Nat) : F32 :=
  velInterpolate (T.velTable (opParam P i .velSens)) (min (max vel 1) 127) 0 velBreakpoints

/-- rate_delta(i, n) (R397). -/
def rateDelta (P : Memory) (i : Fin 6) (n : Nat) : Int :=
  let rs := opParam P i .rateScaling
  let x := (clampInt (((n / 3 : Nat) : Int) - 7) 0 31).toNat
  let d : Int := (rs * x / 2 ^ 3 : Nat)
  let d := if rs = 3 ∧ x % 8 = 3 then d - 1 else d
  if rs = 7 ∧ (x % 8 = 1 ∨ x % 8 = 2 ∨ x % 8 = 3) then d + 1 else d

/-- The scale of R398 before its sign: linear for curves 0 and 3, exponential for curves 1 and 2. -/
def klsScale (T : Rom) (group depth curve : Nat) : Nat :=
  if curve = 0 ∨ curve = 3 then group * depth * 329 / 2 ^ 12 else T.keyscaleExp (min group 32) * depth * 329 / 2 ^ 15

/-- cl - so of R398: the clamped level less the level. -/
def klsDelta (T : Rom) (P : Memory) (i : Fin 6) (n : Nat) : Int :=
  let so : Int := scaleOut T (opParam P i .outputLevel)
  let offset : Int := (n : Int) - opParam P i .ksBreakpoint - 17
  let depth := if 0 ≤ offset then opParam P i .ksRightDepth else opParam P i .ksLeftDepth
  let curve := if 0 ≤ offset then opParam P i .ksRightCurve else opParam P i .ksLeftCurve
  let scale : Int := klsScale T (min (offset.natAbs / 3) 99) depth curve
  min (so + if curve < 2 then -scale else scale) 127 - so

/-- kls_factor(i, n), keyboard level scaling (R398), taken literally (R399). -/
def klsFactor (T : Rom) (P : Memory) (i : Fin 6) (n : Nat) : F32 :=
  lutExp2 (f32OfRat (klsDelta T P i n * 2 ^ 5) (2 ^ 24))

/-- Oscillator key sync (R390): the phase to +0.0 where OSC_KEY_SYNC is set. -/
def oscKeySyncAt (P : Memory) (i : Fin 6) (o : Oscillator) : Oscillator :=
  if opFlag P i .oscKeySync then { o with phase := f32Zero } else o

/-- op_trigger(v, i, n, vel) (R390): prevOut is kept. -/
def opTrigger (T : Rom) (P : Memory) (n vel : Nat) (i : Fin 6) (o : Operator) : Operator :=
  { o with
    freq := opFreq T P i n
    velF := velFactor T P i vel
    lsF := klsFactor T P i n
    osc := oscKeySyncAt P i (oscSetFreq (opFreq T P i n) o.osc)
    env := envTrigger T P i { o.env with rsDelta := toI32 (rateDelta P i n) } }

/-- The phase modulation of a step: the feedback variant ignores the given one (R400, R402, R403). -/
def opPhaseMod (P : Memory) (isFb : Bool) (pm : F32) (o : Operator) : F32 :=
  if isFb then f32Mul (feedbackTable (globalParam P .feedback)) o.prevOut else pm

/-- amf, the amplitude-modulation factor (R404). -/
def ampFactor (P : Memory) (i : Fin 6) (ampMod : F32) : F32 :=
  f32Sub f32One (f32Mul ampMod (f32Mul (f32OfInt (opParam P i .ampModSens)) invParam3))

/-- op_step(v, i, pm, pitchMod, ampMod, isFb) (R400): the operator after one tick, and its output. A disabled operator is silent
and keeps its state. -/
def opStep (T : Rom) (P : Memory) (i : Fin 6) (pm pitchMod ampMod : F32) (isFb : Bool) (o : Operator) : Operator × F32 :=
  if !opFlag P i .enabled then (o, f32Zero)
  else
    let x := oscStep (opPhaseMod P isFb pm o) pitchMod (opParam P i .waveform) o.osc
    let g := envStep T P i o.env
    let y := f32Mul (f32Mul (f32Mul x.2 g.2) o.velF) o.lsF
    ({ o with osc := x.1, env := g.1, prevOut := if isFb then y else o.prevOut }, f32Mul y (ampFactor P i ampMod))

/-- Operator release: its envelope's (R503). -/
def opRelease (T : Rom) (P : Memory) (i : Fin 6) (o : Operator) : Operator := { o with env := envRelease T P i o.env }

end Sys2Proof.Machine
end

