-- ==== Sys2Proof/Machine/Algorithm.lean ====
section
/-! DEFINITION. The algorithm router (spec/45_algorithm.md): the routing record and the per-tick pass over the operators, core index 5
down to 0. -/

namespace Sys2Proof.Machine

/-- mods[i] of a routing record (R430): the empty list where the record lists none. -/
def algMods (A : Algorithm) (i : Fin 6) : List (Fin 6) := (A.mods.lookup i).getD []

/-- carrier[i] (R430). -/
def algCarrier (A : Algorithm) (i : Fin 6) : Bool := A.carriers.contains i

/-- isFb of R441: core `i` is the feedback operator. -/
def algIsFb (A : Algorithm) (i : Fin 6) : Bool := A.hasFb && i == A.fbOp

/-- The algorithm of every voice, read live (R433). -/
def selectedAlgorithm (T : Rom) (P : Memory) : Algorithm := T.algorithms (globalParam P .algorithm)

/-- The core indices in evaluation order (R441). -/
def evaluationOrder : List (Fin 6) := [5, 4, 3, 2, 1, 0]

/-- The summed phase input of core `i`: from +0.0 in ascending order, then times MODULATION_SCALING (R441). -/
def phaseInput (A : Algorithm) (scratch : Vector F32 6) (i : Fin 6) : F32 :=
  f32Mul ((algMods A i).foldl (fun pm j => f32Add pm scratch[j]) f32Zero) modulationScaling

/-- The voice and the output sum within a pass. -/
structure AlgPass where
  ops : Vector Operator 6
  scratch : Vector F32 6
  out : F32
  deriving DecidableEq, Repr

/-- One turn of R441's loop: core `i`. -/
def algTurn (T : Rom) (P : Memory) (pitchMod ampMod : F32) (s : AlgPass) (i : Fin 6) : AlgPass :=
  let A := selectedAlgorithm T P
  let r := opStep T P i (phaseInput A s.scratch i) pitchMod ampMod (algIsFb A i) s.ops[i]
  { ops := s.ops.set i r.1
    scratch := s.scratch.set i r.2
    out := if algCarrier A i then f32Add s.out r.2 else s.out }

/-- alg_step(v, pitchMod, ampMod) (R441), from a cleared scratch buffer (R440). -/
def algStep (T : Rom) (P : Memory) (pitchMod ampMod : F32) (ops : Vector Operator 6) : AlgPass :=
  evaluationOrder.foldl (algTurn T P pitchMod ampMod)
    { ops := ops, scratch := Vector.replicate 6 f32Zero, out := f32Zero }

end Sys2Proof.Machine
end

