-- ==== Sys2Proof/Machine/Flags.lean ====
section
/-! DEFINITION. Status bits and derived predicates: envelope and voice activity (spec/10_state.md R86, R87), the STATUS word (R53) and
the values of the read-only registers (R100). The block has no arithmetic flags (R52). -/

namespace Sys2Proof.Machine

/-- The voices in slot order. -/
def voiceIndices : List (Fin 8) := [0, 1, 2, 3, 4, 5, 6, 7]

/-- The core indices in ascending order. -/
def coreIndices : List (Fin 6) := [0, 1, 2, 3, 4, 5]

/-- env_active (R86) of an envelope of core index `i`: L4 is read live. -/
def envActive (configured : Bool) (P : Memory) (i : Fin 6) (e : Envelope) : Bool :=
  configured && e.armed && (e.stage != .idle || decide (0 < opParam P i (.l 3)))

/-- voice_active (R87): some enabled operator's envelope is active. -/
def voiceActive (configured : Bool) (P : Memory) (vc : Voice) : Bool :=
  coreIndices.any fun i => opFlag P i .enabled && envActive configured P i vc.ops[i].env

/-- voice_active(v) of the state. -/
def activeIn (s : State) (v : Fin 8) : Bool := voiceActive s.configured s.params s.voices[v]

/-- One bit per voice, bit v from `p v`, bits 31:8 zero (R100). -/
def voiceBits (p : Fin 8 → Bool) : Word :=
  0#24 ++ bit (p 7) ++ bit (p 6) ++ bit (p 5) ++ bit (p 4) ++ bit (p 3) ++ bit (p 2) ++ bit (p 1) ++ bit (p 0)

/-- The STATUS word (R53): CONFIGURED in bit 0, CMD_ERR in bit 1, ERR_CODE in bits 7:4. -/
def statusWord (s : State) : Word := 0#24 ++ s.errCode ++ 0#2 ++ bit s.cmdErr ++ bit s.configured

/-- A stage in three bits. -/
def stageBits (st : Stage) : BitVec 3 := BitVec.ofNat 3 (stageCode st)

/-- ENV_STATUS[v][i] (R100). -/
def envStatusWord (configured : Bool) (P : Memory) (i : Fin 6) (e : Envelope) : Word :=
  0#25 ++ bit (envActive configured P i e) ++ bit e.armed ++ bit e.rising ++ bit e.keyDown ++ stageBits e.stage

/-- PENV_STATUS[v] (R100). -/
def penvStatusWord (p : PitchEnvelope) : Word := 0#27 ++ bit p.rising ++ bit p.keyDown ++ stageBits p.stage

/-- REG[reg], the contents of a mapped register (R100). -/
def regValue (s : State) : Reg → Word
  | .status => statusWord s
  | .voiceActive => voiceBits (activeIn s)
  | .voiceHeld => voiceBits fun v => s.voices[v].held
  | .lastOut => s.out
  | .ageCounterLo => s.counter.extractLsb' 0 32
  | .ageCounterHi => s.counter.extractLsb' 32 32
  | .voiceNote v => s.voices[v].note.setWidth 32
  | .voiceAgeLo v => s.voices[v].age.extractLsb' 0 32
  | .voiceAgeHi v => s.voices[v].age.extractLsb' 32 32
  | .lfoAmpMod => s.lfo.ampMod
  | .lfoPitchMod => s.lfo.pitchMod
  | .lfoPhase => s.lfo.phase
  | .lfoDelay => s.lfo.delay
  | .lfoPrng => s.lfo.prng
  | .lfoHeld => s.lfo.held
  | .envStatus v i => envStatusWord s.configured s.params i s.voices[v].ops[i].env
  | .penvStatus v => penvStatusWord s.voices[v].pe
  | .envLevel v i => s.voices[v].ops[i].env.level
  | .penvLevel v => s.voices[v].pe.level
  | .oscPhase v i => s.voices[v].ops[i].osc.phase

end Sys2Proof.Machine
end

