-- ==== Sys2Proof/Machine/Lfo.lean ====
section
/-! DEFINITION. The global LFO (spec/46_lfo.md): delay, waveforms, sample-and-hold, and the two cached modulation values. -/

namespace Sys2Proof.Machine

/-- lfo_inc (R471), from the live speed. -/
def lfoInc (T : Rom) (P : Memory) : F32 := f32Div (T.lfoSpeed (globalParam P .lfoSpeed)) sampleRateF32

/-- wave_lfo(LW, p) for the codes 0..4 (R472). -/
def lfoWave (w : Nat) (p : F32) : F32 :=
  match w with
  | 0 => tri p
  | 1 => f32Neg (saw p)
  | 2 => saw p
  | 3 => square p
  | _ => lutSin p

/-- The xorshift32 step of R475. -/
def xorshift32 (x : BitVec 32) : BitVec 32 :=
  let x := x ^^^ (x <<< 13)
  let x := x ^^^ (x >>> 17)
  x ^^^ (x <<< 5)

/-- sh_refresh() (R475). -/
def shRefresh (L : Lfo) : Lfo :=
  { L with
    prng := xorshift32 L.prng
    held := f32OfRat (((xorshift32 L.prng).toNat : Int) - 2 ^ 31) (2 ^ 31) }

/-- value_am ⊘ 99 (R473): the amplitude-modulation amount of a waveform value. -/
def lfoAmpMod (P : Memory) (value : F32) : F32 :=
  f32Div (f32Mul (f32Add (f32Mul value f32Half) f32Half) (f32OfInt (globalParam P .lfoAmd))) (f32OfInt 99)

/-- The frequency multiplier of a waveform value (R473). -/
def lfoPitchMod (T : Rom) (P : Memory) (value : F32) : F32 :=
  lutExp2 (f32Mul (f32Div (f32Mul value (f32OfInt (globalParam P .lfoPmd))) (f32OfInt 99))
    (T.lfoPms (globalParam P .lfoPms)))

/-- The sample-and-hold advance of R473: the phase moves first, and its wrap refreshes the held value. -/
def shAdvance (T : Rom) (P : Memory) (L : Lfo) : Lfo :=
  let p := f32Add L.phase (lfoInc T P)
  let L := { L with phase := f32Frac p }
  if f32Le f32One p then shRefresh L else L

/-- lfo_step() (R473). -/
def lfoStep (T : Rom) (P : Memory) (L : Lfo) : Lfo :=
  if L.delay ≠ 0#32 then { L with delay := L.delay - 1#32, ampMod := f32Zero, pitchMod := f32One }
  else if globalParam P .lfoWaveform = 5 then
    let L := shAdvance T P L
    { L with ampMod := lfoAmpMod P L.held, pitchMod := lfoPitchMod T P L.held }
  else
    let value := lfoWave (globalParam P .lfoWaveform) L.phase
    { L with
      ampMod := lfoAmpMod P value
      pitchMod := lfoPitchMod T P value
      phase := f32Frac (f32Add L.phase (lfoInc T P)) }

/-- floor(LFO_DELAY[DLY] * SAMPLE_RATE), the exact real product floored (R480). DESIGN CHOICE: a non-finite entry, for which R16
lets a model fault, gives a free integer, as the floor of any non-finite value does (assumption log 4). -/
def lfoDelayTicks (T : Rom) (P : Memory) : Int :=
  let d := T.lfoDelay (globalParam P .lfoDelay)
  if f32Finite d then f32Scaled d * Config.sampleRate / 2 ^ 149 else Config.floorOpen d

/-- lfo_trigger() (R480): held and prng are kept. -/
def lfoTrigger (T : Rom) (P : Memory) (L : Lfo) : Lfo :=
  { L with phase := f32Zero, ampMod := f32Zero, pitchMod := f32One, delay := toU32 (lfoDelayTicks T P) }

end Sys2Proof.Machine
end

