-- ==== Sys2Proof/Machine/PitchEnvelope.lean ====
section
/-! DEFINITION. The pitch envelope (spec/43_pitch_envelope.md): four linear stages of a signed Q24 log2 frequency multiplier. -/

namespace Sys2Proof.Machine

/-- pe_target(n) = PITCHENV_TAB[PL[n]] << 19 (R351). -/
def peTarget (T : Rom) (P : Memory) (n : Fin 4) : Int := T.pitchenvTab (globalParam P (.pl n)) * 2 ^ 19

/-- pe_inc(n) = floor(PITCHENV_RATE[PR[n]] * 2^24 * 10 / (213 * SAMPLE_RATE)) (R352). -/
def peInc (T : Rom) (P : Memory) (n : Fin 4) : Nat :=
  T.pitchenvRate (globalParam P (.pr n)) * 2 ^ 24 * 10 / (213 * Config.sampleRate)

/-- pe_advance (R353): enter stage `st`. The level does not change. -/
def peAdvance (T : Rom) (P : Memory) (st : Stage) (p : PitchEnvelope) : PitchEnvelope :=
  match stageIndex st with
  | none => { p with stage := st }
  | some n =>
    { p with
      stage := st
      target := toI32 (peTarget T P n)
      rising := decide (p.level.toInt < peTarget T P n)
      inc := toI32 (peInc T P n) }

/-- The state part of pe_step (R354). -/
def peMove (T : Rom) (P : Memory) (p : PitchEnvelope) : PitchEnvelope :=
  if !stageMoves p.stage p.keyDown then p
  else if p.rising then
    if p.target.toInt ≤ p.level.toInt + p.inc.toInt then peAdvance T P (nextStage p.stage) { p with level := p.target }
    else { p with level := toI32 (p.level.toInt + p.inc.toInt) }
  else if p.level.toInt - p.inc.toInt ≤ p.target.toInt then
    peAdvance T P (nextStage p.stage) { p with level := p.target }
  else { p with level := toI32 (p.level.toInt - p.inc.toInt) }

/-- pe_out (R355). -/
def peOut (p : PitchEnvelope) : F32 := lutExp2 (f32OfRat p.level.toInt (2 ^ 24))

/-- pe_step (R354): the pitch envelope after one tick, and its multiplier from the level after the step. -/
def peStep (T : Rom) (P : Memory) (p : PitchEnvelope) : PitchEnvelope × F32 := (peMove T P p, peOut (peMove T P p))

/-- pe_trigger (R357): the level is kept. -/
def peTrigger (T : Rom) (P : Memory) (p : PitchEnvelope) : PitchEnvelope :=
  peAdvance T P .attack { p with keyDown := true }

/-- pe_release (R358). -/
def peRelease (T : Rom) (P : Memory) (p : PitchEnvelope) : PitchEnvelope :=
  if stageCode p.stage < 3 then peAdvance T P .release { p with keyDown := false } else { p with keyDown := false }

end Sys2Proof.Machine
end

