-- ==== Sys2Proof/Machine/Voice.lean ====
section
/-! DEFINITION. The voice, the voice allocator and the tick (spec/47_voice_synth.md). `T` is the ROM. -/

namespace Sys2Proof.Machine

/-! ## Voice -/

/-- eff(note), the transposed note (R501). -/
def effectiveNote (P : Memory) (note : BitVec 7) : Nat :=
  (clampInt ((note.toNat : Int) + globalParam P .transpose - 24) 0 127).toNat

/-- voice_note_on(v, note, vel) (R502): the untransposed note is kept for NOTE_OFF. -/
def voiceNoteOn (T : Rom) (P : Memory) (note vel : BitVec 7) (vc : Voice) : Voice :=
  { vc with
    note := note.setWidth 8
    held := true
    ops := Vector.ofFn fun i => opTrigger T P (effectiveNote P note) vel.toNat i vc.ops[i]
    pe := peTrigger T P vc.pe }

/-- voice_note_off(v) (R503): the note is kept. -/
def voiceNoteOff (T : Rom) (P : Memory) (vc : Voice) : Voice :=
  { vc with held := false, ops := Vector.ofFn fun i => opRelease T P i vc.ops[i], pe := peRelease T P vc.pe }

/-- The pass of voice_step(v) (R510): the pitch envelope steps first, its multiplier times the LFO's is the pitch modulation. -/
def voicePass (T : Rom) (P : Memory) (L : Lfo) (vc : Voice) : AlgPass :=
  algStep T P (f32Mul (peStep T P vc.pe).2 L.pitchMod) L.ampMod vc.ops

/-- voice_step(v) (R510): the voice after one tick, and its sample. -/
def voiceStep (T : Rom) (P : Memory) (L : Lfo) (vc : Voice) : Voice × F32 :=
  ({ vc with
      ops := (voicePass T P L vc).ops
      pe := (peStep T P vc.pe).1
      scratch := (voicePass T P L vc).scratch },
    (voicePass T P L vc).out)

/-! ## The tick -/

/-- What the tick's loop does at a voice: an active voice steps and gives a sample, an inactive one is left alone (R511, R520). A
voice's step changes only its own state, so every activity test reads what the loop would read (R520). -/
def voiceTurn (T : Rom) (P : Memory) (L : Lfo) (vc : Voice) : Voice × Option F32 :=
  if voiceActive true P vc then ((voiceStep T P L vc).1, some (voiceStep T P L vc).2) else (vc, none)

/-- acc ⊕ sample for a voice that gave one (R520). -/
def addSample (acc : F32) : Option F32 → F32
  | none => acc
  | some y => f32Add acc y

/-- tick(), one sample period (R520): the LFO, then the voices 0 to 7, their samples summed from +0.0 in slot order. -/
def tick (T : Rom) (s : State) : State :=
  if !s.configured then { s with out := f32Zero }
  else
    let L := lfoStep T s.params s.lfo
    let turns := s.voices.map (voiceTurn T s.params L)
    { s with
      lfo := L
      voices := turns.map Prod.fst
      out := voiceIndices.foldl (fun acc v => addSample acc turns[v].2) f32Zero }

/-! ## Allocation -/

/-- The lowest voice that is not active (R530). -/
def firstFree (s : State) : Option (Fin 8) := voiceIndices.find? fun v => !activeIn s v

/-- Some voice is active (R530, R64: activeNoteCount is not 0). -/
def anyActive (s : State) : Bool := voiceIndices.any (activeIn s)

/-- Of a voice and a higher one, the one of smaller age, the lower where the ages tie (R531). -/
def olderVoice (s : State) (m v : Fin 8) : Fin 8 := if s.voices[v].age < s.voices[m].age then v else m

/-- The lowest voice with the smallest age (R531). -/
def oldestVoice (s : State) : Fin 8 := voiceIndices.foldl (olderVoice s) 0

/-- Apply `f` to voice `v`. -/
def updateVoice (v : Fin 8) (f : Voice → Voice) (s : State) : State :=
  { s with voices := s.voices.set v (f s.voices[v]) }

/-- S.counter <- S.counter + 1; S.age[v] <- S.counter (R530). -/
def bumpAge (v : Fin 8) (s : State) : State :=
  updateVoice v (fun vc => { vc with age := nextCounter s.counter }) { s with counter := nextCounter s.counter }

/-- A new age and a new note for voice `v` (R530, R531). -/
def startNote (T : Rom) (v : Fin 8) (note vel : BitVec 7) (s : State) : State :=
  updateVoice v (voiceNoteOn T s.params note vel) (bumpAge v s)

/-- Release every voice (R530, monophonic). -/
def releaseAll (T : Rom) (s : State) : State := { s with voices := s.voices.map (voiceNoteOff T s.params) }

/-- lfo_trigger() on the state (R480). -/
def triggerLfo (T : Rom) (s : State) : State := { s with lfo := lfoTrigger T s.params s.lfo }

/-- steal(note, vel) (R531): the LFO is not triggered. -/
def stealVoice (T : Rom) (note vel : BitVec 7) (s : State) : State :=
  startNote T (oldestVoice s) note vel (updateVoice (oldestVoice s) (voiceNoteOff T s.params) s)

/-- synth_note_on(note, vel) (R530). -/
def synthNoteOn (T : Rom) (note vel : BitVec 7) (s : State) : State :=
  if globalFlag s.params .mono then startNote T 0 note vel (triggerLfo T (releaseAll T s))
  else
    match firstFree s with
    | some f =>
      if !anyActive s || globalFlag s.params .lfoKeySync then triggerLfo T (startNote T f note vel s)
      else startNote T f note vel s
    | none => stealVoice T note vel s

/-- The lowest held voice with the untransposed note (R532). -/
def heldVoice (note : BitVec 7) (s : State) : Option (Fin 8) :=
  voiceIndices.find? fun v => s.voices[v].held && s.voices[v].note == note.setWidth 8

/-- synth_note_off(note) (R532): the first match is released, no match has no effect. -/
def synthNoteOff (T : Rom) (note : BitVec 7) (s : State) : State :=
  match heldVoice note s with
  | some v => updateVoice v (voiceNoteOff T s.params) s
  | none => s

end Sys2Proof.Machine
end

