-- ==== Sys2Proof/Machine/NoteCommands.lean ====
section
/-! DEFINITION. The note commands NOTE_ON and NOTE_OFF (spec/48_commands_note.md). -/

namespace Sys2Proof.Machine

/-- NOTE_ON (R550): no effect while unconfigured, else synth_note_on. -/
def execNoteOn (note vel : BitVec 7) (s : State) : Host.Outcome State Fault Refusal :=
  if s.configured then .next (synthNoteOn rom note vel s) else .next s

/-- NOTE_OFF (R555): no effect while unconfigured, else synth_note_off. -/
def execNoteOff (note : BitVec 7) (s : State) : Host.Outcome State Fault Refusal :=
  if s.configured then .next (synthNoteOff rom note s) else .next s

end Sys2Proof.Machine
end

