-- ==== Sys2Proof/Machine/ConfigCommands.lean ====
section
/-! DEFINITION. NOP, the voice-level setters, CONFIGURE and STATUS_CLEAR (spec/49_commands_config.md sections 1 to 3). -/

namespace Sys2Proof.Machine

/-- P[a] <- b. -/
def writeParam (a : Nat) (b : Byte) (s : State) : State := { s with params := Memory.write s.params a b }

/-- NOP (R580): no operation. -/
def execNop (s : State) : Host.Outcome State Fault Refusal := .next s

/-- SET_ALGORITHM (R582): the byte is stored raw. -/
def execSetAlgorithm (value : Byte) (s : State) : Host.Outcome State Fault Refusal :=
  .next (writeParam (globalAddr .algorithm) value s)

/-- SET_FEEDBACK (R584): the byte is stored raw. -/
def execSetFeedback (value : Byte) (s : State) : Host.Outcome State Fault Refusal :=
  .next (writeParam (globalAddr .feedback) value s)

/-- The six writes of OSC_KEY_SYNC (R586). -/
def oscKeySyncWrites (b : Byte) : List (Nat × Byte) := coreIndices.map fun i => (opAddr i .oscKeySync, b)

/-- SET_OSC_KEY_SYNC (R586): OSC_KEY_SYNC of every core index. -/
def execSetOscKeySync (b : BitVec 1) (s : State) : Host.Outcome State Fault Refusal :=
  .next { s with params := Memory.writeAll s.params (oscKeySyncWrites (b.setWidth 8)) }

/-- SET_MONO (R588). -/
def execSetMono (b : BitVec 1) (s : State) : Host.Outcome State Fault Refusal :=
  .next (writeParam (globalAddr .mono) (b.setWidth 8) s)

/-- CONFIGURE (R590): S.configured <- 1, nothing else. -/
def execConfigure (s : State) : Host.Outcome State Fault Refusal := .next { s with configured := true }

/-- STATUS_CLEAR (R592): CMD_ERR and ERR_CODE to 0. -/
def execStatusClear (s : State) : Host.Outcome State Fault Refusal := .next { s with cmdErr := false, errCode := 0#4 }

end Sys2Proof.Machine
end

