-- ==== Sys2Proof/Machine/ParamCommands.lean ====
section
/-! DEFINITION. Parameter store access, the voice buffer, VOICE_LOAD and REG_READ (spec/49_commands_config.md sections 4 to 6). A command
whose operand fails its check of 30_encoding.md R205 is rejected before it has any effect (assumption log 8). -/

namespace Sys2Proof.Machine

/-- The command's effect where its operand passes the checks of R205, lines 3 to 5; else the rejection (R632). -/
def checkOperand (i : Instr) (s t : State) : State :=
  match operandReject i with
  | some c => rejectCommand c s
  | none => t

/-- PARAM_WRITE (R594): the raw byte, no clamp. -/
def execParamWrite (addr data : Byte) (s : State) : Host.Outcome State Fault Refusal :=
  .next (checkOperand (.paramWrite addr data) s (writeParam addr.toNat data s))

/-- PARAM_READ (R596): the raw byte into S.rdata. -/
def execParamRead (addr : Byte) (s : State) : Host.Outcome State Fault Refusal :=
  .next (checkOperand (.paramRead addr) s { s with rdata := (Memory.read s.params addr.toNat).setWidth 32 })

/-- VBUF_WRITE (R598): the byte as it is. -/
def execVbufWrite (offset data : Byte) (s : State) : Host.Outcome State Fault Refusal :=
  .next (checkOperand (.vbufWrite offset data) s { s with vbuf := Memory.write s.vbuf offset.toNat data })

/-- (b >> lo) & (2^width - 1), a bit field of a packed byte (R221, R222). -/
def byteField (b : Byte) (lo width : Nat) : Byte := (b >>> lo) &&& BitVec.ofNat 8 (2 ^ width - 1)

/-- The writes of packed slot `p`, which describes core index 5 - p (R220, R221, R600); `B` is the voice buffer. -/
def slotWrites (B : Memory) (p : Fin 6) : List (Nat × Byte) :=
  let i : Fin 6 := p.rev
  let at' (k : Nat) : Byte := Memory.read B (17 * p.val + k)
  [ (opAddr i (.r 0), byteField (at' 0) 0 7), (opAddr i (.r 1), byteField (at' 1) 0 7),
    (opAddr i (.r 2), byteField (at' 2) 0 7), (opAddr i (.r 3), byteField (at' 3) 0 7),
    (opAddr i (.l 0), byteField (at' 4) 0 7), (opAddr i (.l 1), byteField (at' 5) 0 7),
    (opAddr i (.l 2), byteField (at' 6) 0 7), (opAddr i (.l 3), byteField (at' 7) 0 7),
    (opAddr i .ksBreakpoint, byteField (at' 8) 0 7),
    (opAddr i .ksLeftDepth, byteField (at' 9) 0 7),
    (opAddr i .ksRightDepth, byteField (at' 10) 0 7),
    (opAddr i .ksLeftCurve, byteField (at' 11) 0 2),
    (opAddr i .ksRightCurve, byteField (at' 11) 2 2),
    (opAddr i .rateScaling, byteField (at' 12) 0 3),
    (opAddr i .detune, byteField (at' 12) 3 4),
    (opAddr i .ampModSens, byteField (at' 13) 0 2),
    (opAddr i .velSens, byteField (at' 13) 2 3),
    (opAddr i .outputLevel, byteField (at' 14) 0 7),
    (opAddr i .fixedMode, byteField (at' 15) 0 1),
    (opAddr i .coarse, byteField (at' 15) 1 5),
    (opAddr i .fine, byteField (at' 16) 0 7),
    (opAddr i .enabled, 1#8),
    (opAddr i .waveform, 0#8),
    (opAddr i .oscKeySync, byteField (Memory.read B 111) 3 1) ]

/-- The writes of the global bytes (R222, R600). -/
def globalWrites (B : Memory) : List (Nat × Byte) :=
  let at' (k : Nat) : Byte := Memory.read B k
  [ (globalAddr (.pr 0), byteField (at' 102) 0 7), (globalAddr (.pr 1), byteField (at' 103) 0 7),
    (globalAddr (.pr 2), byteField (at' 104) 0 7), (globalAddr (.pr 3), byteField (at' 105) 0 7),
    (globalAddr (.pl 0), byteField (at' 106) 0 7), (globalAddr (.pl 1), byteField (at' 107) 0 7),
    (globalAddr (.pl 2), byteField (at' 108) 0 7), (globalAddr (.pl 3), byteField (at' 109) 0 7),
    (globalAddr .algorithm, byteField (at' 110) 0 5),
    (globalAddr .feedback, byteField (at' 111) 0 3),
    (globalAddr .lfoSpeed, byteField (at' 112) 0 7),
    (globalAddr .lfoDelay, byteField (at' 113) 0 7),
    (globalAddr .lfoPmd, byteField (at' 114) 0 7),
    (globalAddr .lfoAmd, byteField (at' 115) 0 7),
    (globalAddr .lfoKeySync, byteField (at' 116) 0 1),
    (globalAddr .lfoWaveform, byteField (at' 116) 1 3),
    (globalAddr .lfoPms, byteField (at' 116) 4 3),
    (globalAddr .transpose, byteField (at' 117) 0 7) ]

/-- The packed slots in order. -/
def packedSlots : List (Fin 6) := [0, 1, 2, 3, 4, 5]

/-- Every write of VOICE_LOAD, 162 bytes (R600, R602). -/
def voiceLoadWrites (B : Memory) : List (Nat × Byte) := packedSlots.flatMap (slotWrites B) ++ globalWrites B

/-- VOICE_LOAD (R600): the packed voice into the parameter store, as one step; MONO and the buffer are kept. -/
def execVoiceLoad (s : State) : Host.Outcome State Fault Refusal :=
  .next { s with params := Memory.writeAll s.params (voiceLoadWrites s.vbuf) }

/-- S.rdata <- REG[n] (R604), for a mapped register. -/
def readReg (n : Nat) (s : State) : State :=
  match regOf n with
  | some r => { s with rdata := regValue s r }
  | none => s

/-- REG_READ (R604). -/
def execRegRead (reg : Byte) (s : State) : Host.Outcome State Fault Refusal :=
  .next (checkOperand (.regRead reg) s (readReg reg.toNat s))

end Sys2Proof.Machine
end

