-- ==== Sys2Proof/Machine/Dispatch.lean ====
section
/-! DEFINITION. exec: one arm per command, each a direct call of its meaning. -/

namespace Sys2Proof.Machine

/-- The effect of one command (spec/30_encoding.md R205, "execute rule(op)"). -/
def exec (i : Instr) (s : State) : Host.Outcome State Fault Refusal :=
  match i with
  | .nop => Sys2Proof.Machine.execNop s
  | .noteOn note vel => Sys2Proof.Machine.execNoteOn note vel s
  | .noteOff note => Sys2Proof.Machine.execNoteOff note s
  | .setAlgorithm value => Sys2Proof.Machine.execSetAlgorithm value s
  | .setFeedback value => Sys2Proof.Machine.execSetFeedback value s
  | .setOscKeySync b => Sys2Proof.Machine.execSetOscKeySync b s
  | .setMono b => Sys2Proof.Machine.execSetMono b s
  | .configure => Sys2Proof.Machine.execConfigure s
  | .statusClear => Sys2Proof.Machine.execStatusClear s
  | .paramWrite addr data => Sys2Proof.Machine.execParamWrite addr data s
  | .paramRead addr => Sys2Proof.Machine.execParamRead addr s
  | .vbufWrite offset data => Sys2Proof.Machine.execVbufWrite offset data s
  | .voiceLoad => Sys2Proof.Machine.execVoiceLoad s
  | .regRead reg => Sys2Proof.Machine.execRegRead reg s

end Sys2Proof.Machine
end

