-- ==== Sys2Proof/Machine/Step.lean ====
section
/-! DEFINITION. One step of the block: the next event of the host, taken whole (spec/00_scope.md R6, R7). -/

namespace Sys2Proof.Machine

/-- One command word: decoded and executed at once, or rejected (R205, 60_exceptions.md R650). -/
def commandStep (w : Word) (s : State) : Host.Outcome State Fault Refusal :=
  match decode w with
  | .ok i => exec i s
  | .error c => .next (rejectCommand c s)

/-- One step: the next event; without one the state stays as it is (R649; assumption log 1). -/
def step (s : State) : Host.Outcome State Fault Refusal :=
  match takeEvent s with
  | none => .next s
  | some (.command w, s) => commandStep w s
  | some (.tick, s) => .next (tick rom s)
  | some (.reset, s) => .next (hardwareReset rom s)

/-- The state with one more event, a command word, ahead of the pending ones: the word that the next step takes. -/
def State.withFetchWord (s : State) (nbits w : Nat) : State :=
  { s with events := .command (BitVec.ofNat 32 (w % 2 ^ nbits)) :: s.events }

end Sys2Proof.Machine
end

