-- ==== Sys2Proof/Machine/HostSide.lean ====
section
/-! DEFINITION. What the spec gives of the host's side of the command port: the numbers of the registers (spec/10_state.md R100), the
assembler syntax (30_encoding.md R207), the pseudo-instructions (R208) and the packing of a voice, the inverse of
VOICE_LOAD (R223). No step of the block uses any of it. -/

namespace Sys2Proof.Machine

/-- The number of a register (R100). -/
def regNumber : Reg → Nat
  | .status => 0x00
  | .voiceActive => 0x01
  | .voiceHeld => 0x02
  | .lastOut => 0x03
  | .ageCounterLo => 0x04
  | .ageCounterHi => 0x05
  | .voiceNote v => 0x08 + v.val
  | .voiceAgeLo v => 0x10 + v.val
  | .voiceAgeHi v => 0x18 + v.val
  | .lfoAmpMod => 0x20
  | .lfoPitchMod => 0x21
  | .lfoPhase => 0x22
  | .lfoDelay => 0x23
  | .lfoPrng => 0x24
  | .lfoHeld => 0x25
  | .envStatus v i => 0x40 + 8 * v.val + i.val
  | .penvStatus v => 0x40 + 8 * v.val + 6
  | .envLevel v i => 0x80 + 8 * v.val + i.val
  | .penvLevel v => 0x80 + 8 * v.val + 6
  | .oscPhase v i => 0xC0 + 8 * v.val + i.val

/-! ## Assembler syntax -/

/-- The mnemonic of a command (R203). -/
def mnemonic : Instr → String
  | .nop => "NOP"
  | .noteOn _ _ => "NOTE_ON"
  | .noteOff _ => "NOTE_OFF"
  | .setAlgorithm _ => "SET_ALGORITHM"
  | .setFeedback _ => "SET_FEEDBACK"
  | .setOscKeySync _ => "SET_OSC_KEY_SYNC"
  | .setMono _ => "SET_MONO"
  | .configure => "CONFIGURE"
  | .statusClear => "STATUS_CLEAR"
  | .paramWrite _ _ => "PARAM_WRITE"
  | .paramRead _ => "PARAM_READ"
  | .vbufWrite _ _ => "VBUF_WRITE"
  | .voiceLoad => "VOICE_LOAD"
  | .regRead _ => "REG_READ"

/-- The operands in the order of the syntax: the fields of R201 from high bits to low bits (R207). -/
def asmOperands : Instr → List Nat
  | .nop => []
  | .noteOn note vel => [note.toNat, vel.toNat]
  | .noteOff note => [note.toNat]
  | .setAlgorithm value => [value.toNat]
  | .setFeedback value => [value.toNat]
  | .setOscKeySync b => [b.toNat]
  | .setMono b => [b.toNat]
  | .configure => []
  | .statusClear => []
  | .paramWrite addr data => [addr.toNat, data.toNat]
  | .paramRead addr => [addr.toNat]
  | .vbufWrite offset data => [offset.toNat, data.toNat]
  | .voiceLoad => []
  | .regRead reg => [reg.toNat]

/-- A command as a line of assembler text, its operands in decimal, separated by commas (R207). -/
def asmText (i : Instr) : String :=
  match asmOperands i with
  | [] => mnemonic i
  | ops => mnemonic i ++ " " ++ String.intercalate ", " (ops.map toString)

/-- The pseudo-instructions (R208). -/
inductive Pseudo where
  /-- TICK n. -/
  | tick (n : Nat)
  /-- SETP field[i], v. -/
  | setpOp (f : OpField) (i : Fin 6) (v : Byte)
  /-- SETP field, v. -/
  | setpGlobal (f : GlobalField) (v : Byte)
  /-- SETP_ALL field, v. -/
  | setpAll (f : OpField) (v : Byte)
  /-- ALG_DX7 N, with N = 1..32 held as N - 1. -/
  | algDx7 (index : Fin 32)
  /-- LOAD_VOICE b0, ..., b127. -/
  | loadVoice (bytes : Vector Byte 128)
  /-- READ name. -/
  | read (r : Reg)
  deriving DecidableEq, Repr

/-- The event of a command: its word. -/
def commandEvent (i : Instr) : Event := .command (encode i)

/-- The expansion of a pseudo-instruction (R208). -/
def expandPseudo : Pseudo → List Event
  | .tick n => List.replicate n .tick
  | .setpOp f i v => [commandEvent (.paramWrite (BitVec.ofNat 8 (opAddr i f)) v)]
  | .setpGlobal f v => [commandEvent (.paramWrite (BitVec.ofNat 8 (globalAddr f)) v)]
  | .setpAll f v => coreIndices.map fun i => commandEvent (.paramWrite (BitVec.ofNat 8 (opAddr i f)) v)
  | .algDx7 index => [commandEvent (.setAlgorithm (BitVec.ofNat 8 index.val))]
  | .loadVoice bytes =>
    bytes.toList.mapIdx (fun o b => commandEvent (.vbufWrite (BitVec.ofNat 8 o) b)) ++ [commandEvent .voiceLoad]
  | .read r => [commandEvent (.regRead (BitVec.ofNat 8 (regNumber r)))]

/-! ## Packing a voice (R223) -/

/-- Byte `k` of the packed slot of core index `i` (R221), every don't-care bit 0. -/
def packSlotByte (P : Memory) (i : Fin 6) (k : Nat) : Byte :=
  let f (x : OpField) : Byte := Memory.read P (opAddr i x)
  match k with
  | 0 => f (.r 0)
  | 1 => f (.r 1)
  | 2 => f (.r 2)
  | 3 => f (.r 3)
  | 4 => f (.l 0)
  | 5 => f (.l 1)
  | 6 => f (.l 2)
  | 7 => f (.l 3)
  | 8 => f .ksBreakpoint
  | 9 => f .ksLeftDepth
  | 10 => f .ksRightDepth
  | 11 => f .ksLeftCurve ||| f .ksRightCurve <<< 2
  | 12 => f .rateScaling ||| f .detune <<< 3
  | 13 => f .ampModSens ||| f .velSens <<< 2
  | 14 => f .outputLevel
  | 15 => f .fixedMode ||| f .coarse <<< 1
  | _ => f .fine

/-- Byte `k` of the global part (R222), 102..117; the key-sync bit is core index 0's. -/
def packGlobalByte (P : Memory) (k : Nat) : Byte :=
  let g (x : GlobalField) : Byte := Memory.read P (globalAddr x)
  match k with
  | 102 => g (.pr 0)
  | 103 => g (.pr 1)
  | 104 => g (.pr 2)
  | 105 => g (.pr 3)
  | 106 => g (.pl 0)
  | 107 => g (.pl 1)
  | 108 => g (.pl 2)
  | 109 => g (.pl 3)
  | 110 => g .algorithm
  | 111 => g .feedback ||| Memory.read P (opAddr 0 .oscKeySync) <<< 3
  | 112 => g .lfoSpeed
  | 113 => g .lfoDelay
  | 114 => g .lfoPmd
  | 115 => g .lfoAmd
  | 116 => g .lfoKeySync ||| g .lfoWaveform <<< 1 ||| g .lfoPms <<< 4
  | _ => g .transpose

/-- Byte `k` of the packed voice: the operator slots, OP6 first (R220), the global part, and the name bytes of buffer `B`. -/
def packVoiceByte (P B : Memory) (k : Nat) : Byte :=
  if k < 102 then packSlotByte P (Fin.ofNat 6 (5 - k / 17)) (k % 17)
  else if k < 118 then packGlobalByte P k
  else Memory.read B k

/-- The bits of packed byte `k` that are no don't-care bits (R221, R222). -/
def packedBits (k : Nat) : Byte :=
  if k < 102 then
    match k % 17 with
    | 11 => 0x0F#8
    | 13 => 0x1F#8
    | 15 => 0x3F#8
    | _ => 0x7F#8
  else
    match k with
    | 110 => 0x1F#8
    | 111 => 0x0F#8
    | _ => if k < 118 then 0x7F#8 else 0xFF#8

end Sys2Proof.Machine
end

