-- ==== Sys2Proof/Safety.lean ====
section
/-! DEFINITION. What counts as a good state of AS7-CORE, in the terms the claims use: the invariants the spec states of every state after
every event (spec/10_state.md section 6, 42_envelope.md R317, 43_pitch_envelope.md R362), the constraints on the OPEN tables
(70_reset_and_hazards.md R685), and a well-formed command stream (60_exceptions.md R634). -/

namespace Sys2Proof.Machine

/-- The opcode map of 30_encoding.md R203: the format of every assigned opcode. -/
def opcodeFormat : Nat → Option Format
  | 0x00 => some .N
  | 0x01 => some .K
  | 0x02 => some .K0
  | 0x03 => some .V
  | 0x04 => some .V
  | 0x05 => some .B
  | 0x06 => some .B
  | 0x07 => some .N
  | 0x08 => some .N
  | 0x10 => some .A
  | 0x11 => some .A0
  | 0x12 => some .A
  | 0x13 => some .N
  | 0x14 => some .V
  | _ => none

/-- The state elements hold the reset values of 10_state.md R101, whose summary lists them in this order; LFO_SEED is the default
(assumption log 3). -/
structure ResetValues (s : State) : Prop where
  configured : s.configured = false
  status : statusWord s = 0#32
  rdata : s.rdata = 0#32
  out : s.out = 0#32
  params : ∀ a, Memory.read s.params a = 0#8
  vbuf : ∀ o, Memory.read s.vbuf o = 0#8
  counter : s.counter = 0#64
  age : ∀ v : Fin 8, s.voices[v].age = 0#64
  note : ∀ v : Fin 8, s.voices[v].note = 0xFF#8 ∧ s.voices[v].held = false
  operator : ∀ (v : Fin 8) (i : Fin 6), s.voices[v].ops[i].freq = 0#32 ∧ s.voices[v].ops[i].velF = 0#32 ∧
    s.voices[v].ops[i].lsF = 0#32 ∧ s.voices[v].ops[i].prevOut = 0#32
  oscillator : ∀ (v : Fin 8) (i : Fin 6), s.voices[v].ops[i].osc.phase = 0#32 ∧ s.voices[v].ops[i].osc.inc = 0#32
  envelope : ∀ (v : Fin 8) (i : Fin 6), s.voices[v].ops[i].env =
    { level := 0#32, target := 0#32, inc := 0#32, stage := .idle, rising := false, keyDown := false,
      staticCount := 0#32, rsDelta := 0#32, armed := false }
  pitchEnvelope : ∀ v : Fin 8, s.voices[v].pe =
    { level := 0#32, target := 0#32, inc := 0#32, stage := .idle, rising := false, keyDown := false }
  lfo : s.lfo =
    { phase := 0#32, delay := 0#32, ampMod := 0#32, pitchMod := 0x3F800000#32, held := 0#32, prng := Config.lfoSeed }

/-- No command has been rejected since reset or the last STATUS_CLEAR: R634's premise of a well-formed command stream. -/
def NoRejection (s : State) : Prop := s.cmdErr = false

/-- A binary32 value in [0, 1): the non-negative values are ordered as their bit patterns, and 0x3F800000 is 1.0. -/
abbrev InUnitInterval (x : F32) : Prop := x.toNat < 0x3F800000

/-- `m'` is the byte store `m` after the writes `ws` in their order, and every byte at another address is as it was. -/
def StoresOnly (ws : List (Nat × Byte)) (m m' : Memory) : Prop :=
  m' = Memory.writeAll m ws ∧ ∀ a, (∀ c ∈ ws, c.1 ≠ a) → Memory.read m' a = Memory.read m a

/-- PARAM and VBUF in canonical form, with mapped addresses only (20_memory.md R150, R151). -/
structure MemoryCanonical (s : State) : Prop where
  params_wf : Memory.wf s.params = true
  params_mapped : Memory.within paramMapped s.params = true
  vbuf_wf : Memory.wf s.vbuf = true
  vbuf_mapped : Memory.within vbufMapped s.vbuf = true

/-- ERR_CODE is a code of R631, and it is 0 exactly while CMD_ERR is 0 (R53). -/
structure StatusConsistent (s : State) : Prop where
  code_le : s.errCode.toNat ≤ 5
  clear_iff : s.cmdErr = false ↔ s.errCode = 0#4

/-- The ranges of an amplitude envelope's registers at 44100 Hz (R88, R89, R303, R397). -/
structure EnvelopeInRange (e : Envelope) : Prop where
  level_nonneg : 0 ≤ e.level.toInt
  level_le : e.level.toInt ≤ 15 * 2 ^ 24
  target_nonneg : 0 ≤ e.target.toInt
  target_le : e.target.toInt ≤ 15 * 2 ^ 24
  inc_nonneg : 0 ≤ e.inc.toInt
  inc_le : e.inc.toInt ≤ 917504
  static_nonneg : 0 ≤ e.staticCount.toInt
  static_idle : e.stage = .idle → e.staticCount = 0#32
  rs_nonneg : 0 ≤ e.rsDelta.toInt
  rs_le : e.rsDelta.toInt ≤ 27

/-- The ranges of a pitch envelope's registers (R356, R362). -/
structure PitchEnvelopeInRange (p : PitchEnvelope) : Prop where
  level_ge : -2 ^ 26 ≤ p.level.toInt
  level_le : p.level.toInt ≤ 127 * 2 ^ 19
  target_ge : -2 ^ 26 ≤ p.target.toInt
  target_le : p.target.toInt ≤ 127 * 2 ^ 19
  inc_nonneg : 0 ≤ p.inc.toInt
  inc_lt : p.inc.toInt < 2 ^ 27

/-- Every amplitude envelope is in range. -/
def EnvelopesInRange (s : State) : Prop := ∀ (v : Fin 8) (i : Fin 6), EnvelopeInRange s.voices[v].ops[i].env

/-- Every pitch envelope is in range. -/
def PitchEnvelopesInRange (s : State) : Prop := ∀ v : Fin 8, PitchEnvelopeInRange s.voices[v].pe

/-- Every oscillator phase and the LFO phase lie in [0, 1) (R90). -/
structure PhasesInRange (s : State) : Prop where
  osc : ∀ (v : Fin 8) (i : Fin 6), InUnitInterval s.voices[v].ops[i].osc.phase
  lfo : InUnitInterval s.lfo.phase

/-- A voice's note is a 7-bit note, or 0xFF, none, and a held voice has one (R65). -/
def NotesLegal (s : State) : Prop :=
  ∀ v : Fin 8, (s.voices[v].note.toNat < 128 ∨ s.voices[v].note = 0xFF#8) ∧
    (s.voices[v].held = true → s.voices[v].note.toNat < 128)

/-- Ages (R64, R92, R533): none exceeds the counter, two voices share an age only where it is 0, never started, and an
armed envelope's voice has been started. -/
structure AgesOrdered (s : State) : Prop where
  le_counter : ∀ v : Fin 8, s.voices[v].age ≤ s.counter
  distinct : ∀ v w : Fin 8, v ≠ w → s.voices[v].age = s.voices[w].age → s.voices[v].age = 0#64
  armed_started : ∀ (v : Fin 8) (i : Fin 6), s.voices[v].ops[i].env.armed = true → s.voices[v].age ≠ 0#64

/-- The two factors that a NOTE_ON caches in an operator are bounded (44_operator.md R406): velF by 2^66 and lsF by 2^16. -/
def OperatorBounded (o : Operator) : Prop := f32Bits o.velF ≤ 0x60800000 ∧ f32Bits o.lsF ≤ 0x47800000

/-- The registers that a sample is computed from are bounded (44_operator.md R406, 46_lfo.md R476, R477): the cached factors of
every operator, and the LFO's held value and phase by 1. A tick from such a state gives a finite sample, as R636 says. The
limits are the model's, wide enough for every rounding on the way (assumption log 18). -/
structure DatapathBounded (s : State) : Prop where
  operators : ∀ (v : Fin 8) (i : Fin 6), OperatorBounded s.voices[v].ops[i]
  held : f32Bits s.lfo.held ≤ 0x3F800000
  phase : f32Bits s.lfo.phase ≤ 0x3F800000

/-- No envelope has been triggered since reset (R522). -/
def NothingArmed (s : State) : Prop := ∀ (v : Fin 8) (i : Fin 6), s.voices[v].ops[i].env.armed = false

/-- The invariants of R432 on a routing record: (a) modulators lie above what they modulate, (b) in ascending order without
repeats, (c) mods[fbOp] is empty, whatever hasFb is, (d) there is a carrier. -/
def RoutingOk (A : Algorithm) : Prop :=
  (∀ i : Fin 6, ∀ j ∈ algMods A i, i < j) ∧
  (∀ i : Fin 6, (algMods A i).Pairwise (· < ·)) ∧
  algMods A A.fbOp = [] ∧
  (∃ i : Fin 6, algCarrier A i = true)

/-- The constraints on LFO_SEED and on the entries of the OPEN tables (92_eei_decisions.md "Named parameters left open"), and the
entries that the spec fixes (R155 to R169). The premise that a pitch-envelope stage ends and the limit of VEL_TABLE stand apart, in
`RomPremises`, since only some guarantees need them. That a zero entry of DETUNE_TABLE, LFO_DELAY and LFO_PMS is +0.0 is the
model's choice (assumption log 17), and so is the looser of the two ranges that the spec gives LFO_SPEED and LFO_DELAY
(assumption log 19). -/
structure RomAdmissible (T : Rom) : Prop where
  levelLut_fixed : T.levelLut 0 = 0 ∧ T.levelLut 1 = 5 ∧ T.levelLut 2 = 9 ∧ T.levelLut 19 = 46
  levelLut_le : ∀ k, k < 20 → T.levelLut k ≤ 127
  statics_lt : ∀ k, k < 77 → T.statics k < 2 ^ 31
  detune_fixed : T.detune 1 = f32OfRat 78 1000
  detune_range : ∀ k, 1 ≤ k → k ≤ 7 → (T.detune k).toNat < 0x447A0000
  velTable_finite : ∀ s k, s < 8 → k < 9 → f32Finite (T.velTable s k) = true
  lfoSpeed_fixed : T.lfoSpeed 0 = 0x3D800000#32 ∧ T.lfoSpeed 99 = 0x42440000#32
  lfoSpeed_positive : ∀ k, k < 100 → 0 < (T.lfoSpeed k).toNat ∧ (T.lfoSpeed k).toNat < 0x7F800000
  lfoDelay_fixed : T.lfoDelay 0 = 0#32 ∧ T.lfoDelay 99 = f32OfRat 283 100
  lfoDelay_range : ∀ k, k < 100 → (T.lfoDelay k).toNat < 0x47BD7400
  lfoPms_fixed : T.lfoPms 0 = 0#32 ∧ T.lfoPms 7 = 0x3F800000#32
  lfoPms_range : ∀ k, k < 8 → (T.lfoPms k).toNat ≤ 0x3F800000
  pitchenvTab_fixed : T.pitchenvTab 0 = -128 ∧ T.pitchenvTab 50 = 0 ∧ T.pitchenvTab 99 = 127
  pitchenvTab_range : ∀ k, k < 100 → -128 ≤ T.pitchenvTab k ∧ T.pitchenvTab k ≤ 127
  pitchenvRate_le : ∀ k, k < 100 → T.pitchenvRate k ≤ 2 ^ 20
  routing : ∀ a, a < 32 → RoutingOk (T.algorithms a)
  allCarriers_fixed : T.algorithms 31 = allCarriers
  lfoSeed_ne_zero : T.lfoSeed ≠ 0#32

/-- Every entry of VEL_TABLE has a magnitude of at most 2^64, 0x5F800000: the limit under which no rule overflows (00_scope.md R14,
60_exceptions.md R636). Its value is the model's choice (assumption log 18). -/
def VelTableBounded (T : Rom) : Prop := ∀ s k, s < 8 → k < 9 → f32Bits (T.velTable s k) ≤ 0x5F800000

/-- Every entry of PITCHENV_RATE is at least 1: R685's premise that a pitch-envelope stage ends. -/
def PitchStagesEnd (T : Rom) : Prop := ∀ k, k < 100 → 1 ≤ T.pitchenvRate k

/-- Everything that the spec asks of the OPEN tables (70_reset_and_hazards.md R685, 92_eei_decisions.md "Named parameters left
open"), with the limit of VEL_TABLE that keeps every sample finite (60_exceptions.md R636). -/
structure RomPremises (T : Rom) : Prop where
  admissible : RomAdmissible T
  stages_end : PitchStagesEnd T
  vel_bounded : VelTableBounded T

end Sys2Proof.Machine
end

