-- ==== Sys2Proof/Certificates/Slice0/Obligations.lean ====
section
/-! DEFINITION. The statements about AS7-CORE for the provers, each from the spec's rules. `T` is a ROM: a statement for every `T` holds
for every admissible choice of the OPEN tables, a statement about `rom` for the tables of this model. -/

open Sys2Proof Sys2Proof.Machine

/-! ## Encoding (30_encoding.md) -/

/-- Decoding the word of a command gives the command, with every operand at every value (30_encoding.md section 1). -/
def Obligations.DecodeOfEncode : Prop := ∀ i : Instr, decode (encode i) = .ok i

/-- A word that decodes is the word of its command: every bit is an operand bit, an opcode bit or a reserved 0, so no two words
decode to one command (30_encoding.md section 1). -/
def Obligations.EncodeOfDecode : Prop := ∀ (w : Word) (i : Instr), decode w = .ok i → encode i = w

/-- The example words of the command rules decode to the commands they are written for (48_commands_note.md,
49_commands_config.md). -/
def Obligations.ExampleWordsDecode : Prop :=
  decode 0x00000000#32 = .ok .nop ∧ decode 0x01004564#32 = .ok (.noteOn 69 100) ∧
  decode 0x02004500#32 = .ok (.noteOff 69) ∧ decode 0x0300001F#32 = .ok (.setAlgorithm 31) ∧
  decode 0x04000007#32 = .ok (.setFeedback 7) ∧ decode 0x05000001#32 = .ok (.setOscKeySync 1) ∧
  decode 0x06000001#32 = .ok (.setMono 1) ∧ decode 0x07000000#32 = .ok .configure ∧
  decode 0x08000000#32 = .ok .statusClear ∧ decode 0x10000663#32 = .ok (.paramWrite 6 99) ∧
  decode 0x1100C000#32 = .ok (.paramRead 0xC0) ∧ decode 0x12006E1F#32 = .ok (.vbufWrite 110 31) ∧
  decode 0x13000000#32 = .ok .voiceLoad ∧ decode 0x14000000#32 = .ok (.regRead 0)

/-- R204: a word with an unassigned opcode, 0x09-0x0F or 0x15-0xFF, is rejected with code 1, one with an assigned opcode and
a non-zero reserved bit of its format with code 2, and neither has another effect. -/
def Obligations.IllegalAndReservedWordsRejected : Prop :=
  (∀ op, op < 256 → (opcodeFormat op = none ↔ (0x09 ≤ op ∧ op ≤ 0x0F) ∨ 0x15 ≤ op)) ∧
  ∀ (w : Word) (s : State),
    (opcodeFormat (w.toNat / 2 ^ 24) = none →
      commandStep w s = .next { s with cmdErr := true, errCode := 1#4 }) ∧
    ∀ f, opcodeFormat (w.toNat / 2 ^ 24) = some f → w &&& formatReserved f ≠ 0 →
      commandStep w s = .next { s with cmdErr := true, errCode := 2#4 }

/-- R205: the checks of a command word in their order, and the execution of the command when all pass. -/
def Obligations.CommandChecksInOrder : Prop :=
  ∀ (w : Word) (s : State),
    match opcodeFormat (w.toNat / 2 ^ 24) with
    | none => commandStep w s = .next { s with cmdErr := true, errCode := 1#4 }
    | some f =>
      if w &&& formatReserved f ≠ 0 then commandStep w s = .next { s with cmdErr := true, errCode := 2#4 }
      else if (w.toNat / 2 ^ 24 = 0x10 ∨ w.toNat / 2 ^ 24 = 0x11) ∧ paramMapped (w.toNat / 2 ^ 8 % 2 ^ 8) = false then
        commandStep w s = .next { s with cmdErr := true, errCode := 3#4 }
      else if w.toNat / 2 ^ 24 = 0x12 ∧ 128 ≤ w.toNat / 2 ^ 8 % 2 ^ 8 then
        commandStep w s = .next { s with cmdErr := true, errCode := 4#4 }
      else if w.toNat / 2 ^ 24 = 0x14 ∧ regOf (w.toNat % 2 ^ 8) = none then
        commandStep w s = .next { s with cmdErr := true, errCode := 5#4 }
      else ∃ i, decode w = .ok i ∧ encode i = w ∧ WellFormed i ∧ commandStep w s = exec i s

/-- The PARAM address map is one to one: 163 mapped addresses, each of exactly one field, operator fields at
0x20 * i + offset (20_memory.md sections 1 and 2). -/
def Obligations.ParamMapOneToOne : Prop :=
  ((List.range 256).filter paramMapped).length = 163 ∧
  (∀ a, paramMapped a = true ↔ (∃ i f, a = opAddr i f) ∨ ∃ g, a = globalAddr g) ∧
  (∀ i f, opAddr i f = 0x20 * i.val + opOffset f ∧ opOffset f < 0x18) ∧
  (∀ i f j g, opAddr i f = opAddr j g → i = j ∧ f = g) ∧
  (∀ g h, globalAddr g = globalAddr h → g = h) ∧
  ∀ i f g, opAddr i f ≠ globalAddr g

/-- Every register has one number, and the numbers without a register are those 10_state.md section 7 lists as unmapped. -/
def Obligations.RegisterMapOneToOne : Prop :=
  (∀ n r, regOf n = some r ↔ n = regNumber r) ∧
  ∀ n, n < 256 → (regOf n = none ↔
    n = 0x06 ∨ n = 0x07 ∨ (0x26 ≤ n ∧ n ≤ 0x3F) ∨ (0x40 ≤ n ∧ n % 8 = 7) ∨ (0xC0 ≤ n ∧ n % 8 = 6))

/-! ## Events and steps (00_scope.md section 3, 60_exceptions.md) -/

/-- The next event being the word of a well-formed command, a step is the execution of that command on the state without that event
(00_scope.md section 3). -/
def Obligations.StepRunsDecodedCommand : Prop :=
  ∀ (s : State) (w : Word) (rest : List Event) (i : Instr),
    s.events = .command w :: rest → decode w = .ok i → WellFormed i → step s = exec i { s with events := rest }

/-- The other steps: a rejected word, a tick, a reset, and no event at all. That a reset keeps the host's later events, and that
a step without an event leaves the state, are the model's choices (assumption log 12 and 1). -/
def Obligations.StepOfOtherEvents : Prop :=
  (∀ (s : State) (w : Word) (rest : List Event) (c : RejectCode),
    s.events = .command w :: rest → commandReject w = some c →
      step s = .next (rejectCommand c { s with events := rest })) ∧
  (∀ (s : State) (rest : List Event), s.events = .tick :: rest → step s = .next (tick rom { s with events := rest })) ∧
  (∀ (s : State) (rest : List Event), s.events = .reset :: rest → step s = .next { State.reset with events := rest }) ∧
  ∀ s : State, s.events = [] → step s = .next s

/-- Every event completes: from every state the step answers a next state, with the event taken (60_exceptions.md sections 1
and 6), and NOP, CONFIGURE and STATUS_CLEAR complete with their effect from every state (49_commands_config.md sections 1
and 3). These are the model's choices, not the spec's: that a reset keeps the host's later events (assumption log 12), that
a step without an event leaves the state (log 1), that a step goes on from the counter's last value (log 5) and with
non-finite values (log 4), where 93_implementation_defined.md lets a model fault, and that a rejection is a next state and
no fault of the model (log 16). -/
def Obligations.EveryEventCompletes : Prop :=
  (∀ s : State, ∃ t, step s = .next t ∧ t.events = s.events.tail) ∧
  ∀ s : State,
    exec .nop s = .next s ∧ exec .configure s = .next { s with configured := true } ∧
    exec .statusClear s = .next { s with cmdErr := false, errCode := 0#4 }

/-- R101: every state element's reset value, in the state after reset and after a reset event in any state. -/
def Obligations.ResetSetsEveryElement : Prop :=
  ResetValues State.reset ∧
  ∀ (s : State) (rest : List Event), s.events = .reset :: rest → ∃ t, step s = .next t ∧ ResetValues t

/-- R632: a rejection writes CMD_ERR and ERR_CODE and nothing else, a second one overwrites the code, and a tick or a later
command (but one that reads or clears STATUS) runs as if the rejected word had not been sent. -/
def Obligations.RejectionIsPrecise : Prop :=
  (∀ (w : Word) (c : RejectCode) (s : State), commandReject w = some c →
    commandStep w s = .next { s with cmdErr := true, errCode := rejectNumber c }) ∧
  (∀ (c d : RejectCode) (s : State), rejectCommand d (rejectCommand c s) = rejectCommand d s) ∧
  (∀ (c : RejectCode) (s : State), tick rom (rejectCommand c s) = rejectCommand c (tick rom s)) ∧
  ∀ (c : RejectCode) (i : Instr) (s t : State), WellFormed i → i ≠ .statusClear → i ≠ .regRead 0 →
    exec i s = .next t → exec i (rejectCommand c s) = .next (rejectCommand c t)

/-- R53: the bits of STATUS and their reset value, and who writes CMD_ERR and ERR_CODE: a rejection, STATUS_CLEAR
(0x08000000) and reset. -/
def Obligations.StatusBitsAndWriters : Prop :=
  (∀ s : State, (statusWord s).getLsbD 0 = s.configured ∧ (statusWord s).getLsbD 1 = s.cmdErr ∧
    (statusWord s).extractLsb' 2 2 = 0#2 ∧ (statusWord s).extractLsb' 4 4 = s.errCode ∧
    (statusWord s).extractLsb' 8 24 = 0#24 ∧ exec (.regRead 0) s = .next { s with rdata := statusWord s }) ∧
  statusWord State.reset = 0#32 ∧
  ∀ (s t : State) (e : Event) (rest : List Event), s.events = e :: rest → step s = .next t →
    match e with
    | .tick => t.cmdErr = s.cmdErr ∧ t.errCode = s.errCode
    | .reset => t.cmdErr = false ∧ t.errCode = 0#4
    | .command w =>
      match commandReject w with
      | some c => t.cmdErr = true ∧ t.errCode = rejectNumber c
      | none =>
        if w = 0x08000000#32 then t.cmdErr = false ∧ t.errCode = 0#4 else t.cmdErr = s.cmdErr ∧ t.errCode = s.errCode

/-- R54: S.rdata is the result of the most recent successful PARAM_READ or REG_READ; only they and reset write it. -/
def Obligations.RdataHoldsLastRead : Prop :=
  ∀ (s t : State) (e : Event) (rest : List Event), s.events = e :: rest → step s = .next t →
    match e with
    | .tick => t.rdata = s.rdata
    | .reset => t.rdata = 0#32
    | .command w =>
      match decode w with
      | .ok (.paramRead addr) =>
        t.rdata = if paramMapped addr.toNat then (Memory.read s.params addr.toNat).setWidth 32 else s.rdata
      | .ok (.regRead reg) =>
        match regOf reg.toNat with
        | some r => t.rdata = regValue s r
        | none => t.rdata = s.rdata
      | _ => t.rdata = s.rdata

/-- R55: CONFIGURE sets S.configured, only reset clears it, and while it is 0 a tick outputs +0.0 and changes nothing else and
the note commands have no effect. -/
def Obligations.ConfiguredBitGatesBlock : Prop :=
  State.reset.configured = false ∧
  (∀ (s t : State) (e : Event) (rest : List Event), s.events = e :: rest → step s = .next t →
    t.configured = match e with
      | .tick => s.configured
      | .reset => false
      | .command w => s.configured || w == 0x07000000#32) ∧
  ∀ s : State, s.configured = false →
    tick rom s = { s with out := 0#32 } ∧ (∀ note vel, exec (.noteOn note vel) s = .next s) ∧
    ∀ note, exec (.noteOff note) s = .next s

/-- R63: the voice buffer is 128 bytes, 0 after reset, written only by VBUF_WRITE (and reset) and read only by VOICE_LOAD: no
other command and no tick depends on its contents. -/
def Obligations.VoiceBufferSeenOnlyByVoiceLoad : Prop :=
  (∀ o, vbufMapped o = true ↔ o < 128) ∧ (∀ o, Memory.read State.reset.vbuf o = 0#8) ∧
  (∀ (s t : State) (e : Event) (rest : List Event), s.events = e :: rest → step s = .next t →
    match e with
    | .tick => t.vbuf = s.vbuf
    | .reset => ∀ o, Memory.read t.vbuf o = 0#8
    | .command w =>
      match decode w with
      | .ok (.vbufWrite offset data) =>
        t.vbuf = if offset.toNat < 128 then Memory.write s.vbuf offset.toNat data else s.vbuf
      | _ => t.vbuf = s.vbuf) ∧
  (∀ (B : Memory) (s : State), tick rom { s with vbuf := B } = { tick rom s with vbuf := B }) ∧
  ∀ (B : Memory) (i : Instr) (s t : State), i ≠ .voiceLoad → exec i s = .next t →
    ∃ B', exec i { s with vbuf := B } = .next { t with vbuf := B' }

/-! ## Commands (48_commands_note.md, 49_commands_config.md) -/

/-- R605: what each command writes, and nothing else, whatever S.configured is, but for the note commands, which have no
effect while it is 0. A store is stated with its addresses: the bytes there are those the command writes, every other byte
is as before. Every command can be rejected, whatever S.configured is: each with a reserved bit of its word at 1, which is
code 2, and the four with an operand check by that check. That NOTE_ON completes at S.counter = 2^64 - 1 too, with a free value
as the counter's next, is the model's choice and no rule of the spec, which lets a model fault there (assumption log 5). -/
def Obligations.CommandsWriteOnlyTheirState : Prop :=
  ∀ s : State,
    exec .nop s = .next s ∧
    (s.configured = false → ∀ note vel, exec (.noteOn note vel) s = .next s ∧ exec (.noteOff note) s = .next s) ∧
    (s.configured = true → ∀ note vel, ∃ V L,
      exec (.noteOn note vel) s = .next { s with voices := V, lfo := L, counter := nextCounter s.counter }) ∧
    (∀ note, ∃ V, exec (.noteOff note) s = .next { s with voices := V }) ∧
    (∀ value, ∃ P, exec (.setAlgorithm value) s = .next { s with params := P } ∧
      StoresOnly [(globalAddr .algorithm, value)] s.params P) ∧
    (∀ value, ∃ P, exec (.setFeedback value) s = .next { s with params := P } ∧
      StoresOnly [(globalAddr .feedback, value)] s.params P) ∧
    (∀ b, ∃ P, exec (.setOscKeySync b) s = .next { s with params := P } ∧
      StoresOnly ([0, 1, 2, 3, 4, 5].map fun i : Fin 6 => (opAddr i .oscKeySync, b.setWidth 8)) s.params P) ∧
    (∀ b, ∃ P, exec (.setMono b) s = .next { s with params := P } ∧
      StoresOnly [(globalAddr .mono, b.setWidth 8)] s.params P) ∧
    (∀ addr data, paramMapped addr.toNat = true → ∃ P, exec (.paramWrite addr data) s = .next { s with params := P } ∧
      StoresOnly [(addr.toNat, data)] s.params P) ∧
    (∃ P, exec .voiceLoad s = .next { s with params := P } ∧ StoresOnly (voiceLoadWrites s.vbuf) s.params P) ∧
    (∀ offset data, offset.toNat < 128 → ∃ B, exec (.vbufWrite offset data) s = .next { s with vbuf := B } ∧
      StoresOnly [(offset.toNat, data)] s.vbuf B) ∧
    exec .configure s = .next { s with configured := true } ∧
    exec .statusClear s = .next { s with cmdErr := false, errCode := 0#4 } ∧
    (∀ addr, paramMapped addr.toNat = true →
      exec (.paramRead addr) s = .next { s with rdata := (Memory.read s.params addr.toNat).setWidth 32 }) ∧
    (∀ reg r, regOf reg.toNat = some r → exec (.regRead reg) s = .next { s with rdata := regValue s r }) ∧
    (∀ w f, opcodeFormat (w.toNat / 2 ^ 24) = some f → w &&& formatReserved f ≠ 0 →
      commandStep w s = .next { s with cmdErr := true, errCode := 2#4 }) ∧
    (∀ i, commandStep (encode i ||| 0x00800000#32) s = .next { s with cmdErr := true, errCode := 2#4 }) ∧
    ∀ i c, operandReject i = some c →
      exec i s = .next { s with cmdErr := true, errCode := rejectNumber c } ∧
      commandStep (encode i) s = .next { s with cmdErr := true, errCode := rejectNumber c }

/-- The four setters store their operand raw at their PARAM addresses and leave every other address alone, whatever S.configured
is (49_commands_config.md section 2). -/
def Obligations.SettersStoreRawOperand : Prop :=
  ∀ s : State, MemoryCanonical s →
    (∀ value, ∃ P, exec (.setAlgorithm value) s = .next { s with params := P } ∧
      ∀ a, Memory.read P a = if a = 0xC0 then value else Memory.read s.params a) ∧
    (∀ value, ∃ P, exec (.setFeedback value) s = .next { s with params := P } ∧
      ∀ a, Memory.read P a = if a = 0xC1 then value else Memory.read s.params a) ∧
    (∀ b : BitVec 1, ∃ P, exec (.setMono b) s = .next { s with params := P } ∧
      ∀ a, Memory.read P a = if a = 0xF0 then b.setWidth 8 else Memory.read s.params a) ∧
    ∀ b : BitVec 1, ∃ P, exec (.setOscKeySync b) s = .next { s with params := P } ∧
      ∀ a, Memory.read P a = if a < 0xC0 ∧ a % 0x20 = 0x16 then b.setWidth 8 else Memory.read s.params a

/-- PARAM_WRITE stores the raw byte at its mapped address and nowhere else, and a PARAM_READ of the address then gives that byte,
zero-extended; a PARAM_READ changes S.rdata only (49_commands_config.md section 4). -/
def Obligations.ParamWriteThenReadReturnsByte : Prop :=
  ∀ (s : State) (addr data : Byte), MemoryCanonical s → paramMapped addr.toNat = true →
    exec (.paramRead addr) s = .next { s with rdata := (Memory.read s.params addr.toNat).setWidth 32 } ∧
    ∃ P, exec (.paramWrite addr data) s = .next { s with params := P } ∧
      (∀ a, Memory.read P a = if a = addr.toNat then data else Memory.read s.params a) ∧
      exec (.paramRead addr) { s with params := P } = .next { s with params := P, rdata := data.setWidth 32 }

/-- VBUF_WRITE stores the byte at its offset below 128, every bit of it, and nowhere else (49_commands_config.md section 5). -/
def Obligations.VbufWriteStoresByte : Prop :=
  ∀ (s : State) (offset data : Byte), MemoryCanonical s → offset.toNat < 128 →
    ∃ B, exec (.vbufWrite offset data) s = .next { s with vbuf := B } ∧
      ∀ a, Memory.read B a = if a = offset.toNat then data else Memory.read s.vbuf a

/-- R220 to R222: VOICE_LOAD reads every field of the packed voice from its bits, slot p into core index 5 - p, and leaves MONO,
the unmapped addresses and the buffer alone; the values it gives ENABLED, WAVEFORM and OSC_KEY_SYNC stand beside them. -/
def Obligations.VoiceLoadUnpacksFields : Prop :=
  ∀ s : State, MemoryCanonical s →
    ∃ P, exec .voiceLoad s = .next { s with params := P } ∧
      (∀ p : Fin 6,
        let i := 5 - p.val
        let b (k : Nat) : Byte := Memory.read s.vbuf (17 * p.val + k)
        (∀ n, n < 4 → Memory.read P (0x20 * i + 0x0A + n) = b n &&& 0x7F) ∧
        (∀ n, n < 4 → Memory.read P (0x20 * i + 0x06 + n) = b (4 + n) &&& 0x7F) ∧
        Memory.read P (0x20 * i + 0x11) = b 8 &&& 0x7F ∧
        Memory.read P (0x20 * i + 0x12) = b 9 &&& 0x7F ∧
        Memory.read P (0x20 * i + 0x13) = b 10 &&& 0x7F ∧
        Memory.read P (0x20 * i + 0x14) = b 11 &&& 0x03 ∧
        Memory.read P (0x20 * i + 0x15) = (b 11 >>> 2) &&& 0x03 ∧
        Memory.read P (0x20 * i + 0x0E) = b 12 &&& 0x07 ∧
        Memory.read P (0x20 * i + 0x02) = (b 12 >>> 3) &&& 0x0F ∧
        Memory.read P (0x20 * i + 0x10) = b 13 &&& 0x03 ∧
        Memory.read P (0x20 * i + 0x0F) = (b 13 >>> 2) &&& 0x07 ∧
        Memory.read P (0x20 * i + 0x05) = b 14 &&& 0x7F ∧
        Memory.read P (0x20 * i + 0x01) = b 15 &&& 0x01 ∧
        Memory.read P (0x20 * i + 0x03) = (b 15 >>> 1) &&& 0x1F ∧
        Memory.read P (0x20 * i + 0x04) = b 16 &&& 0x7F ∧
        Memory.read P (0x20 * i + 0x00) = 1 ∧
        Memory.read P (0x20 * i + 0x17) = 0 ∧
        Memory.read P (0x20 * i + 0x16) = (Memory.read s.vbuf 111 >>> 3) &&& 0x01) ∧
      (∀ n, n < 4 → Memory.read P (0xE4 + n) = Memory.read s.vbuf (102 + n) &&& 0x7F) ∧
      (∀ n, n < 4 → Memory.read P (0xE0 + n) = Memory.read s.vbuf (106 + n) &&& 0x7F) ∧
      Memory.read P 0xC0 = Memory.read s.vbuf 110 &&& 0x1F ∧
      Memory.read P 0xC1 = Memory.read s.vbuf 111 &&& 0x07 ∧
      Memory.read P 0xD1 = Memory.read s.vbuf 112 &&& 0x7F ∧
      Memory.read P 0xD2 = Memory.read s.vbuf 113 &&& 0x7F ∧
      Memory.read P 0xD3 = Memory.read s.vbuf 114 &&& 0x7F ∧
      Memory.read P 0xD4 = Memory.read s.vbuf 115 &&& 0x7F ∧
      Memory.read P 0xD6 = Memory.read s.vbuf 116 &&& 0x01 ∧
      Memory.read P 0xD0 = (Memory.read s.vbuf 116 >>> 1) &&& 0x07 ∧
      Memory.read P 0xD5 = (Memory.read s.vbuf 116 >>> 4) &&& 0x07 ∧
      Memory.read P 0xC2 = Memory.read s.vbuf 117 &&& 0x7F ∧
      ∀ a, paramMapped a = false ∨ a = 0xF0 → Memory.read P a = Memory.read s.params a

/-- R223: packing the fields that VOICE_LOAD unpacked gives the packed voice back with every don't-care bit 0, the name bytes
118-127 unchanged. -/
def Obligations.PackAfterVoiceLoadReproducesVoice : Prop :=
  ∀ s : State, MemoryCanonical s → ∃ P, exec .voiceLoad s = .next { s with params := P } ∧
    ∀ k, k < 128 → packVoiceByte P s.vbuf k = Memory.read s.vbuf k &&& packedBits k

/-- R100: REG_READ of every register number gives the register's contents, bit by bit, in S.rdata and changes nothing else; an
unmapped number is rejected with code 5. -/
def Obligations.RegReadGivesRegisterContents : Prop :=
  ∀ s : State,
    let reads (n : Nat) (x : Word) : Prop := exec (.regRead (BitVec.ofNat 8 n)) s = .next { s with rdata := x }
    reads 0x00 (statusWord s) ∧
    (∃ x, reads 0x01 x ∧ (∀ v : Fin 8, x.getLsbD v.val = activeIn s v) ∧ x.extractLsb' 8 24 = 0#24) ∧
    (∃ x, reads 0x02 x ∧ (∀ v : Fin 8, x.getLsbD v.val = s.voices[v].held) ∧ x.extractLsb' 8 24 = 0#24) ∧
    reads 0x03 s.out ∧ reads 0x04 (s.counter.extractLsb' 0 32) ∧ reads 0x05 (s.counter.extractLsb' 32 32) ∧
    (∀ v : Fin 8, reads (0x08 + v.val) (s.voices[v].note.setWidth 32) ∧
      reads (0x10 + v.val) (s.voices[v].age.extractLsb' 0 32) ∧
      reads (0x18 + v.val) (s.voices[v].age.extractLsb' 32 32)) ∧
    reads 0x20 s.lfo.ampMod ∧ reads 0x21 s.lfo.pitchMod ∧ reads 0x22 s.lfo.phase ∧ reads 0x23 s.lfo.delay ∧
    reads 0x24 s.lfo.prng ∧ reads 0x25 s.lfo.held ∧
    (∀ (v : Fin 8) (i : Fin 6),
      (∃ x, reads (0x40 + 8 * v.val + i.val) x ∧ (x.extractLsb' 0 3).toNat = stageCode s.voices[v].ops[i].env.stage ∧
        x.getLsbD 3 = s.voices[v].ops[i].env.keyDown ∧ x.getLsbD 4 = s.voices[v].ops[i].env.rising ∧
        x.getLsbD 5 = s.voices[v].ops[i].env.armed ∧
        x.getLsbD 6 = envActive s.configured s.params i s.voices[v].ops[i].env ∧ x.extractLsb' 7 25 = 0#25) ∧
      reads (0x80 + 8 * v.val + i.val) s.voices[v].ops[i].env.level ∧
      reads (0xC0 + 8 * v.val + i.val) s.voices[v].ops[i].osc.phase) ∧
    (∀ v : Fin 8,
      (∃ x, reads (0x40 + 8 * v.val + 6) x ∧ (x.extractLsb' 0 3).toNat = stageCode s.voices[v].pe.stage ∧
        x.getLsbD 3 = s.voices[v].pe.keyDown ∧ x.getLsbD 4 = s.voices[v].pe.rising ∧ x.extractLsb' 5 27 = 0#27) ∧
      reads (0x80 + 8 * v.val + 6) s.voices[v].pe.level) ∧
    ∀ n, n < 256 →
      (n = 0x06 ∨ n = 0x07 ∨ (0x26 ≤ n ∧ n ≤ 0x3F) ∨ (0x40 ≤ n ∧ n % 8 = 7) ∨ (0xC0 ≤ n ∧ n % 8 = 6)) →
      exec (.regRead (BitVec.ofNat 8 n)) s = .next { s with cmdErr := true, errCode := 5#4 }

/-- R86 and R87: when an envelope and a voice are active, from the live ENABLED and L4 bytes. -/
def Obligations.ActivityFromLiveParameters : Prop :=
  ∀ (s : State) (v : Fin 8),
    (∀ i : Fin 6, envActive s.configured s.params i s.voices[v].ops[i].env = true ↔
      s.configured = true ∧ s.voices[v].ops[i].env.armed = true ∧
        (stageCode s.voices[v].ops[i].env.stage < 4 ∨
          0 < min (Memory.read s.params (0x20 * i.val + 0x09)).toNat 99)) ∧
    (activeIn s v = true ↔ ∃ i : Fin 6, Memory.read s.params (0x20 * i.val) ≠ 0#8 ∧
      envActive s.configured s.params i s.voices[v].ops[i].env = true)

/-! ## Notes and allocation (47_voice_synth.md sections 1 and 3) -/

/-- R530: NOTE_ON in monophonic mode releases every voice, triggers the LFO and starts voice 0; in polyphonic mode it starts the
lowest free voice and triggers the LFO where the pool was idle or LFO_KEY_SYNC is set; with no free voice it steals. -/
def Obligations.NoteOnAllocatesVoice : Prop :=
  ∀ (s : State) (note vel : BitVec 7), s.configured = true → s.counter ≠ BitVec.allOnes 64 →
    (Memory.read s.params 0xF0 ≠ 0#8 →
      ∃ t, exec (.noteOn note vel) s = .next t ∧
        t = { s with counter := s.counter + 1#64, lfo := lfoTrigger rom s.params s.lfo, voices := t.voices } ∧
        t.voices[0] = voiceNoteOn rom s.params note vel
          { voiceNoteOff rom s.params s.voices[0] with age := s.counter + 1#64 } ∧
        ∀ v : Fin 8, v ≠ 0 → t.voices[v] = voiceNoteOff rom s.params s.voices[v]) ∧
    (Memory.read s.params 0xF0 = 0#8 → ∀ f : Fin 8, activeIn s f = false → (∀ v, v < f → activeIn s v = true) →
      ∃ t, exec (.noteOn note vel) s = .next t ∧
        t = { s with counter := s.counter + 1#64, lfo := t.lfo, voices := t.voices } ∧
        t.voices[f] = voiceNoteOn rom s.params note vel { s.voices[f] with age := s.counter + 1#64 } ∧
        (∀ v, v ≠ f → t.voices[v] = s.voices[v]) ∧
        t.lfo = if (∀ v, activeIn s v = false) ∨ Memory.read s.params 0xD6 ≠ 0#8 then lfoTrigger rom s.params s.lfo
          else s.lfo) ∧
    (Memory.read s.params 0xF0 = 0#8 → (∀ v, activeIn s v = true) →
      exec (.noteOn note vel) s = .next (stealVoice rom note vel s))

/-- R531: with every voice active, NOTE_ON releases the voice of smallest age, the lowest such, gives it the next age and starts
the note on it; no other voice changes and the LFO is not triggered. -/
def Obligations.NoteOnStealsOldestVoice : Prop :=
  ∀ (s : State) (note vel : BitVec 7) (m : Fin 8), s.configured = true → s.counter ≠ BitVec.allOnes 64 →
    Memory.read s.params 0xF0 = 0#8 → (∀ v, activeIn s v = true) →
    (∀ v : Fin 8, s.voices[m].age ≤ s.voices[v].age) → (∀ v : Fin 8, v < m → s.voices[m].age < s.voices[v].age) →
      ∃ t, exec (.noteOn note vel) s = .next t ∧
        t = { s with counter := s.counter + 1#64, voices := t.voices } ∧
        t.voices[m] = voiceNoteOn rom s.params note vel
          { voiceNoteOff rom s.params s.voices[m] with age := s.counter + 1#64 } ∧
        ∀ v, v ≠ m → t.voices[v] = s.voices[v]

/-- R501 and R502: starting a note keeps the untransposed note, holds the voice, triggers every operator with the note
transposed by TRANSPOSE - 24 and clamped to 0..127, and triggers the pitch envelope. -/
def Obligations.VoiceStartTransposesAndTriggers : Prop :=
  ∀ (T : Rom) (P : Memory) (note vel : BitVec 7) (vc : Voice),
    let n := (min (max ((note.toNat : Int) + min (Memory.read P 0xC2).toNat 48 - 24) 0) 127).toNat
    voiceNoteOn T P note vel vc =
      { vc with
        note := note.setWidth 8
        held := true
        ops := Vector.ofFn fun i => opTrigger T P n vel.toNat i vc.ops[i]
        pe := peTrigger T P vc.pe }

/-- R390: what op_trigger writes, the rate delta before the envelope trigger that reads it; prevOut and, without key sync, the
phase are kept. -/
def Obligations.OperatorTriggerWrites : Prop :=
  ∀ (T : Rom) (P : Memory) (i : Fin 6) (n vel : Nat) (o : Operator),
    let o' := opTrigger T P n vel i o
    o'.freq = opFreq T P i n ∧
    o'.osc.inc = f32Div (oscClampFreq (opFreq T P i n)) sampleRateF32 ∧
    o'.velF = velFactor T P i vel ∧
    o'.lsF = klsFactor T P i n ∧
    o'.env = envTrigger T P i { o.env with rsDelta := toI32 (rateDelta P i n) } ∧
    (Memory.read P (0x20 * i.val + 0x16) ≠ 0#8 → o'.osc.phase = 0#32) ∧
    (Memory.read P (0x20 * i.val + 0x16) = 0#8 → o'.osc.phase = o.osc.phase) ∧
    o'.prevOut = o.prevOut

/-- R313: env_trigger sets keyDown and armed and enters stage 0 with the target, direction, increment and static count of the
live parameters; the level is not reset. -/
def Obligations.EnvelopeTriggerEntersAttack : Prop :=
  ∀ (T : Rom) (P : Memory) (i : Fin 6) (e : Envelope),
    envTrigger T P i e =
      { e with
        keyDown := true
        armed := true
        stage := .attack
        target := toI32 (envTarget T P i 0)
        rising := decide (e.level.toInt < envTarget T P i 0)
        staticCount :=
          if envTarget T P i 0 = e.level.toInt ∨ min (Memory.read P (0x20 * i.val + 0x06)).toNat 99 = 0 then
            toI32 (envStaticCount T P i e.rsDelta 0) else 0#32
        inc := toI32 (envIncOf (envQRate P i e.rsDelta 0)) }

/-- R314, R358 and R503: a release clears held and every keyDown and moves each envelope that is before stage 3 to stage 3; an
envelope in stage 3 or 4 only loses keyDown, an un-armed one stays un-armed and silent, and the note is kept. -/
def Obligations.VoiceReleaseEntersStageThree : Prop :=
  ∀ (T : Rom) (P : Memory) (vc : Voice),
    voiceNoteOff T P vc =
      { vc with held := false, ops := (voiceNoteOff T P vc).ops, pe := (voiceNoteOff T P vc).pe } ∧
    (∀ i : Fin 6, (voiceNoteOff T P vc).ops[i] = { vc.ops[i] with env := envRelease T P i vc.ops[i].env } ∧
      (stageCode vc.ops[i].env.stage < 3 →
        envRelease T P i vc.ops[i].env = envAdvance T P i .release { vc.ops[i].env with keyDown := false }) ∧
      (3 ≤ stageCode vc.ops[i].env.stage →
        envRelease T P i vc.ops[i].env = { vc.ops[i].env with keyDown := false }) ∧
      (vc.ops[i].env.armed = false → (envRelease T P i vc.ops[i].env).armed = false ∧
        envGain P i (envRelease T P i vc.ops[i].env) = 0#32)) ∧
    (voiceNoteOff T P vc).pe = peRelease T P vc.pe ∧
    (stageCode vc.pe.stage < 3 → peRelease T P vc.pe = peAdvance T P .release { vc.pe with keyDown := false }) ∧
    (3 ≤ stageCode vc.pe.stage → peRelease T P vc.pe = { vc.pe with keyDown := false })

/-- NOTE_OFF releases the lowest voice that is held with the untransposed note, no other voice, and has no effect where no voice is
(47_voice_synth.md section 3). -/
def Obligations.NoteOffReleasesLowestHeldVoice : Prop :=
  ∀ (s : State) (note : BitVec 7), s.configured = true →
    (∀ v : Fin 8, s.voices[v].held = true → s.voices[v].note = note.setWidth 8 →
      (∀ w : Fin 8, w < v → s.voices[w].held = false ∨ s.voices[w].note ≠ note.setWidth 8) →
      ∃ t, exec (.noteOff note) s = .next t ∧ t = { s with voices := t.voices } ∧
        t.voices[v] = voiceNoteOff rom s.params s.voices[v] ∧ ∀ w, w ≠ v → t.voices[w] = s.voices[w]) ∧
    ((∀ v : Fin 8, s.voices[v].held = false ∨ s.voices[v].note ≠ note.setWidth 8) →
      exec (.noteOff note) s = .next s)

/-- R534: a NOTE_ON with all 8 voices active reassigns exactly one, of smallest age, and leaves 8 active, the new note's envelopes
armed and in stage 0; with a free voice it makes that voice active where some operator is enabled, and inactive otherwise. That
NOTE_ON answers a next state at S.counter = 2^64 - 1 too, where item I7 lets a model fault, is the model's choice and no rule of
the spec (assumption log 5). -/
def Obligations.VoicePoolStaysFull : Prop :=
  ∀ (s : State) (note vel : BitVec 7), s.configured = true → Memory.read s.params 0xF0 = 0#8 →
    ((∀ v, activeIn s v = true) →
      ∃ (t : State) (m : Fin 8), exec (.noteOn note vel) s = .next t ∧ (∀ v, activeIn t v = true) ∧
        (∀ v : Fin 8, s.voices[m].age ≤ s.voices[v].age) ∧ (∀ v, v ≠ m → t.voices[v] = s.voices[v]) ∧
        t.voices[m].note = note.setWidth 8 ∧
        ∀ i : Fin 6, t.voices[m].ops[i].env.armed = true ∧ t.voices[m].ops[i].env.stage = .attack) ∧
    ∀ f : Fin 8, activeIn s f = false → (∀ v, v < f → activeIn s v = true) →
      ∃ t, exec (.noteOn note vel) s = .next t ∧ t.voices[f].note = note.setWidth 8 ∧
        (activeIn t f = true ↔ ∃ i : Fin 6, Memory.read s.params (0x20 * i.val) ≠ 0#8)

/-! ## The tick (47_voice_synth.md section 2) -/

/-- R520: the tick is the sequential loop of the rule: the LFO's step, then the voices 0 to 7, the activity of each read when
the loop reaches it, the samples summed in that order from +0.0. -/
def Obligations.TickIsSequentialLoop : Prop :=
  ∀ (T : Rom) (s : State),
    (s.configured = false → tick T s = { s with out := 0#32 }) ∧
    (s.configured = true →
      let body (x : State × F32) (v : Fin 8) : State × F32 :=
        if activeIn x.1 v then
          ({ x.1 with voices := x.1.voices.set v (voiceStep T x.1.params x.1.lfo x.1.voices[v]).1 },
            f32Add x.2 (voiceStep T x.1.params x.1.lfo x.1.voices[v]).2)
        else x
      let x := [0, 1, 2, 3, 4, 5, 6, 7].foldl body ({ s with lfo := lfoStep T s.params s.lfo }, 0#32)
      tick T s = { x.1 with out := x.2 })

/-- A tick changes the output, the LFO and the voices only, and of a voice only what its step writes: not its note, held bit and
age, not what note-on caches, not keyDown, armed and the rate delta (10_state.md section 4, 47_voice_synth.md section
2). -/
def Obligations.TickKeepsCachedState : Prop :=
  ∀ (T : Rom) (s : State),
    tick T s = { s with out := (tick T s).out, lfo := (tick T s).lfo, voices := (tick T s).voices } ∧
    ∀ v : Fin 8,
      (tick T s).voices[v].note = s.voices[v].note ∧ (tick T s).voices[v].held = s.voices[v].held ∧
      (tick T s).voices[v].age = s.voices[v].age ∧ (tick T s).voices[v].pe.keyDown = s.voices[v].pe.keyDown ∧
      ∀ i : Fin 6,
        (tick T s).voices[v].ops[i].freq = s.voices[v].ops[i].freq ∧
        (tick T s).voices[v].ops[i].velF = s.voices[v].ops[i].velF ∧
        (tick T s).voices[v].ops[i].lsF = s.voices[v].ops[i].lsF ∧
        (tick T s).voices[v].ops[i].osc.inc = s.voices[v].ops[i].osc.inc ∧
        (tick T s).voices[v].ops[i].env.keyDown = s.voices[v].ops[i].env.keyDown ∧
        (tick T s).voices[v].ops[i].env.armed = s.voices[v].ops[i].env.armed ∧
        (tick T s).voices[v].ops[i].env.rsDelta = s.voices[v].ops[i].env.rsDelta

/-- Voices do not see each other: two states that agree on the parameters, the LFO, S.configured and one voice agree on that voice
and the LFO after a tick, and an inactive voice is left as it is (47_voice_synth.md sections 1 and 2). -/
def Obligations.TickIsolatesVoices : Prop :=
  (∀ (T : Rom) (s : State) (v : Fin 8), activeIn s v = false → (tick T s).voices[v] = s.voices[v]) ∧
  ∀ (T : Rom) (s t : State) (v : Fin 8), s.configured = t.configured → s.params = t.params → s.lfo = t.lfo →
    s.voices[v] = t.voices[v] → (tick T s).voices[v] = (tick T t).voices[v] ∧ (tick T s).lfo = (tick T t).lfo

/-- R91: an operator's prevOut changes only in a tick, while the operator is the feedback operator of the current algorithm; a
reset clears it. -/
def Obligations.FeedbackMemoryChangesOnlyInFeedbackOperator : Prop :=
  ∀ (s t : State) (v : Fin 8) (i : Fin 6), step s = .next t →
    t.voices[v].ops[i].prevOut ≠ s.voices[v].ops[i].prevOut →
      (∃ rest, s.events = .reset :: rest) ∨
      (∃ rest, s.events = .tick :: rest) ∧ (selectedAlgorithm rom s.params).hasFb = true ∧
        (selectedAlgorithm rom s.params).fbOp = i

/-- A disabled operator is silent, as a carrier and as a modulator, and a tick leaves its whole state alone
(44_operator.md section 4, 45_algorithm.md section 2). -/
def Obligations.DisabledOperatorIsFrozen : Prop :=
  ∀ (T : Rom) (s : State) (v : Fin 8) (i : Fin 6), Memory.read s.params (0x20 * i.val) = 0#8 →
    (tick T s).voices[v].ops[i] = s.voices[v].ops[i] ∧
    ∀ pm pmod amod fb, opStep T s.params i pm pmod amod fb s.voices[v].ops[i] = (s.voices[v].ops[i], 0#32)

/-- R440: with modulators above what they modulate (R432), the pass reads no scratch slot that it has not written, so what
the scratch buffer held before has no effect on the operators, the scratch buffer or the output. -/
def Obligations.ScratchClearUnobservable : Prop :=
  ∀ (T : Rom) (P : Memory) (pmod amod : F32) (ops : Vector Operator 6) (scratch : Vector F32 6),
    RoutingOk (selectedAlgorithm T P) →
      [5, 4, 3, 2, 1, 0].foldl (algTurn T P pmod amod) { ops := ops, scratch := scratch, out := 0#32 } =
        algStep T P pmod amod ops

/-- R543: after any events without a NOTE_ON, parameter writes and CONFIGURE among them, every sample is +0.0; and the reason: no
step but a NOTE_ON arms an envelope, and with none armed a tick outputs +0.0. -/
def Obligations.SilenceWithoutNoteOn : Prop :=
  (∀ s t : State, NothingArmed s → (∀ w rest note vel, s.events = .command w :: rest → decode w ≠ .ok (.noteOn note vel)) →
    step s = .next t → NothingArmed t ∧ ((∃ rest, s.events = .tick :: rest) → t.out = 0#32)) ∧
  ∀ evs : List Event, (∀ w note vel, Event.command w ∈ evs → decode w ≠ .ok (.noteOn note vel)) →
    ∃ t, Host.Core.run Sys2Proof.core evs.length ({ State.reset with events := evs } : State) = .next t ∧ t.out = 0#32 ∧
      t.events = []

/-! ## Invariants (10_state.md section 6) -/

/-- Every step keeps PARAM and VBUF in canonical form, with mapped addresses only (20_memory.md sections 1 and 2; the canonical
form is the model's, assumption log 11). -/
def Obligations.StepKeepsMemoryCanonical : Prop :=
  ∀ s t : State, MemoryCanonical s → step s = .next t → MemoryCanonical t

/-- Every step keeps ERR_CODE in 0..5, 0 exactly while CMD_ERR is 0 (10_state.md section 2, 60_exceptions.md section 1). -/
def Obligations.StepKeepsStatusConsistent : Prop :=
  ∀ s t : State, StatusConsistent s → step s = .next t → StatusConsistent t

/-- Every step keeps every amplitude envelope in range: level and target in [0, 15 * 2^24], inc at most 917504, staticCount
non-negative and 0 in stage 4, rsDelta in 0..27 (10_state.md section 6, 42_envelope.md section 5). The default LEVEL_LUT is
the model's choice (assumption log 3). -/
def Obligations.StepKeepsEnvelopesInRange : Prop :=
  ∀ s t : State, EnvelopesInRange s → step s = .next t → EnvelopesInRange t

/-- Every step keeps every pitch-envelope level and target in [-2^26, 127 * 2^19] and its increment below 2^27
(43_pitch_envelope.md section 4). -/
def Obligations.StepKeepsPitchEnvelopesInRange : Prop :=
  ∀ s t : State, PitchEnvelopesInRange s → step s = .next t → PitchEnvelopesInRange t

/-- Every step keeps every oscillator phase and the LFO phase in [0, 1), and they are there after reset (10_state.md section 6).
For a non-finite phase sum, which no admissible table gives, this rests on the model's free value of frac, in [0, 1)
(assumption log 4). -/
def Obligations.StepKeepsPhasesInRange : Prop :=
  PhasesInRange State.reset ∧ ∀ s t : State, PhasesInRange s → step s = .next t → PhasesInRange t

/-- R92: every step below the counter's last value keeps the ages ordered, and under that invariant the ages of active voices are
pairwise distinct and non-zero. -/
def Obligations.StepKeepsAgesOrdered : Prop :=
  (∀ s t : State, AgesOrdered s → s.counter ≠ BitVec.allOnes 64 → step s = .next t → AgesOrdered t) ∧
  ∀ s : State, AgesOrdered s →
    (∀ v : Fin 8, activeIn s v = true → s.voices[v].age ≠ 0#64) ∧
    ∀ v w : Fin 8, v ≠ w → activeIn s v = true → activeIn s w = true → s.voices[v].age ≠ s.voices[w].age

/-- Every step keeps the xorshift word non-zero (46_lfo.md section 2); the seed that a reset loads is the model's choice of default
(assumption log 3). -/
def Obligations.StepKeepsPrngNonzero : Prop :=
  ∀ s t : State, s.lfo.prng ≠ 0#32 → step s = .next t → t.lfo.prng ≠ 0#32

/-- Every step keeps every voice's note a 7-bit note or 0xFF, and a 7-bit note where the voice is held (10_state.md section
4). -/
def Obligations.StepKeepsNotesLegal : Prop := ∀ s t : State, NotesLegal s → step s = .next t → NotesLegal t

/-- The state after reset satisfies every invariant above (10_state.md sections 6 and 8). -/
def Obligations.ResetMeetsInvariants : Prop :=
  MemoryCanonical State.reset ∧ StatusConsistent State.reset ∧ EnvelopesInRange State.reset ∧
  PitchEnvelopesInRange State.reset ∧ PhasesInRange State.reset ∧ AgesOrdered State.reset ∧
  State.reset.lfo.prng ≠ 0#32 ∧ NotesLegal State.reset ∧ NothingArmed State.reset ∧ NoRejection State.reset

/-! ## Envelopes (42_envelope.md, 43_pitch_envelope.md) -/

/-- A released envelope comes to rest: it is in stage 4 after finitely many ticks and from then on, silent and inactive where L4
is 0 (42_envelope.md section 5). Released before stage 3, it rests at the stage-3 target of the live parameters. Released in
stage 3, the sustain, it keeps the target and the increment that its stage-3 entry computed, an increment of at least 16
(42_envelope.md section 1), and rests at that target; in a static pause of stage 3, and in stage 4, it rests at its current level. -/
def Obligations.ReleasedEnvelopeReachesIdle : Prop :=
  ∀ T : Rom, RomAdmissible T → ∀ (P : Memory) (i : Fin 6) (e : Envelope), EnvelopeInRange e →
    let after (k : Nat) : Envelope := (fun x => (envStep T P i x).1)^[k] (envRelease T P i e)
    let restsAt (level : Int) : Prop := ∃ n, ∀ k, n ≤ k →
      (after k).stage = .idle ∧ (after k).level.toInt = level ∧
        (opParam P i (.l 3) = 0 → (envStep T P i (after k)).2 = 0#32 ∧ envActive true P i (after k) = false)
    (stageCode e.stage < 3 → restsAt (envTarget T P i 3)) ∧
    (e.stage = .release → 16 ≤ e.inc.toInt → e.staticCount = 0#32 → restsAt e.target.toInt) ∧
    (e.stage = .release → e.staticCount ≠ 0#32 → restsAt e.level.toInt) ∧
    (e.stage = .idle → restsAt e.level.toInt)

/-- Sustain and idle take no step: in stage 3 with the key down, and in stage 4, the envelope keeps its state, but for the static
pause of stage 3, which still counts down and ends in stage 4 at the current level (42_envelope.md section 3,
43_pitch_envelope.md section 3). -/
def Obligations.SustainAndIdleHoldLevel : Prop :=
  (∀ (T : Rom) (P : Memory) (i : Fin 6) (e : Envelope), e.stage = .release → e.keyDown = true →
    (envStep T P i e).1.level = e.level ∧
    (e.staticCount = 0#32 → (envStep T P i e).1 = e) ∧
    (e.staticCount = 1#32 → (envStep T P i e).1 = { e with stage := .idle, staticCount := 0#32 }) ∧
    (1 < e.staticCount.toInt → (envStep T P i e).1 = { e with staticCount := e.staticCount - 1#32 })) ∧
  (∀ (T : Rom) (P : Memory) (i : Fin 6) (e : Envelope), e.stage = .idle → e.staticCount = 0#32 →
    (envStep T P i e).1 = e) ∧
  ∀ (T : Rom) (P : Memory) (p : PitchEnvelope), (p.stage = .release ∧ p.keyDown = true) ∨ p.stage = .idle →
    (peStep T P p).1 = p

/-- R321: the attack-zero case from reset with L1 = 0, R1 = 90, OUTPUT_LEVEL 99, rsDelta 0: the pause is 180 ticks, the level
holds at 0 for 179, and on tick 180 stage 1 is entered and integrated; with R1 = 50 the count is STATICS[50] div 20. -/
def Obligations.AttackZeroPausesThenDecays : Prop :=
  ∀ T : Rom, RomAdmissible T → ∀ (P : Memory) (i : Fin 6),
    Memory.read P (0x20 * i.val + 0x06) = 0#8 → Memory.read P (0x20 * i.val + 0x05) = 99#8 →
    (Memory.read P (0x20 * i.val + 0x0A) = 90#8 →
      let e := envTrigger T P i Envelope.reset
      e.target.toInt = 1048576 ∧ e.rising = true ∧ e.staticCount.toInt = 180 ∧
      (∀ k, k ≤ 179 → ((fun x => (envStep T P i x).1)^[k] e).level = 0#32 ∧
        ((fun x => (envStep T P i x).1)^[k] e).stage = .attack) ∧
      ((fun x => (envStep T P i x).1)^[180] e).stage ≠ .attack ∧
      ((fun x => (envStep T P i x).1)^[180] e).level.toInt =
        min (envTarget T P i 1) (1716 * 2 ^ 16 + (17 * 2 ^ 24 - 1716 * 2 ^ 16) / 2 ^ 24 * envIncOf (envQRate P i 0#32 1))) ∧
    (Memory.read P (0x20 * i.val + 0x0A) = 50#8 →
      (envTrigger T P i Envelope.reset).staticCount.toInt = T.statics 50 / 20)

/-- R366: with PL1-PL4 at 50 a triggered pitch envelope spends one tick in each of stages 0, 1 and 2, and every tick returns
exactly 1.0. -/
def Obligations.UnityPitchLevelsGiveUnity : Prop :=
  ∀ T : Rom, RomAdmissible T → ∀ P : Memory, (∀ n, n < 4 → Memory.read P (0xE0 + n) = 50#8) →
    let p := peTrigger T P PitchEnvelope.reset
    let after (k : Nat) : PitchEnvelope := (fun x => (peStep T P x).1)^[k] p
    p.target = 0#32 ∧ p.stage = .attack ∧ (after 1).stage = .decay1 ∧ (after 2).stage = .decay2 ∧
    (∀ k, 3 ≤ k → (after k).stage = .release) ∧ ∀ k, (peStep T P (after k)).2 = 0x3F800000#32

/-! ## Number format, tables, LFO and operator -/

/-- Rounding is to the nearest binary32, ties to even: no binary32 magnitude is closer to the exact quotient than the one that
`roundBits` gives, and one as close is given up only for an even significand (00_scope.md section 5). -/
def Obligations.RoundingIsNearestEven : Prop :=
  ∀ num den : Nat, 0 < den → roundBits num den < 0x7F800000 → ∀ b, b < 0x7F800000 → b ≠ roundBits num den →
    |(magOfBits (roundBits num den) * den : Int) - num| < |(magOfBits b * den : Int) - num| ∨
    (|(magOfBits (roundBits num den) * den : Int) - num| = |(magOfBits b * den : Int) - num| ∧ roundBits num den % 2 = 0)

/-- frac lies in [0, 1) for every value, and is exact for a non-negative one (00_scope.md section 5). For a non-finite value the
result is the model's free value within that range (assumption log 4). -/
def Obligations.FracInUnitIntervalAndExact : Prop :=
  (∀ x : F32, InUnitInterval (f32Frac x)) ∧
  ∀ x : F32, f32Finite x = true → 0 ≤ f32Scaled x → f32Scaled (f32Frac x) = f32Scaled x % 2 ^ 149

/-- lut_exp2 at the ends of its range and at zero: 2^-20 from -20.0 down, 1024.0 from 10.0 up, both infinities with them, and
exactly 1.0 at either zero (40_lut.md section 3). -/
def Obligations.Exp2SaturatesAtRangeEnds : Prop :=
  ∀ x : F32,
    (f32Le x (f32OfInt (-20)) = true → lutExp2 x = 0x35800000#32) ∧
    (f32Le (f32OfInt 10) x = true → lutExp2 x = 0x44800000#32) ∧
    (f32Eq x 0#32 = true → lutExp2 x = 0x3F800000#32)

/-- The tables of this model meet every constraint and premise on the OPEN tables, PITCHENV_RATE at least 1 among them, and hold
every entry that the spec fixes, whatever the free entries are (20_memory.md section 3, 45_algorithm.md section 1,
70_reset_and_hazards.md section 3). The model's choices, not the spec's: the opaque entries and their types (assumption log
2), the default tables (log 3), the sign of a zero entry (log 17), the limit of VEL_TABLE (log 18) and the looser
range of LFO_SPEED and LFO_DELAY (log 19). -/
def Obligations.RomMeetsTableConstraints : Prop := RomPremises rom

/-- The velocity factor at and between the nine breakpoints, velocity 0 taken as 1 (44_operator.md section 3). -/
def Obligations.VelocityFactorInterpolates : Prop :=
  ∀ (T : Rom) (P : Memory) (i : Fin 6),
    let row := T.velTable (min (Memory.read P (0x20 * i.val + 0x0F)).toNat 7)
    let bp (k : Nat) : Nat := [127, 111, 95, 79, 64, 48, 32, 16, 1].getD k 0
    velFactor T P i 0 = velFactor T P i 1 ∧
    (∀ k, k < 9 → velFactor T P i (bp k) = row k) ∧
    ∀ k vel, k < 8 → bp (k + 1) < vel → vel < bp k →
      velFactor T P i vel =
        f32Add (row (k + 1))
          (f32Mul (f32OfRat (vel - bp (k + 1) : Nat) (bp k - bp (k + 1))) (f32Sub (row k) (row (k + 1))))

/-- R397: the rate-scaling delta, its range 0..27, and its place in the envelope. -/
def Obligations.RateDeltaRange : Prop :=
  ∀ (T : Rom) (P : Memory) (i : Fin 6) (n vel : Nat) (o : Operator), n < 128 →
    let rs := min (Memory.read P (0x20 * i.val + 0x0E)).toNat 7
    let x := min (n / 3 - 7) 31
    rateDelta P i n =
      ((rs * x / 8 : Nat) : Int) - (if rs = 3 ∧ x % 8 = 3 then 1 else 0) +
        (if rs = 7 ∧ x % 8 ∈ [1, 2, 3] then 1 else 0) ∧
    0 ≤ rateDelta P i n ∧ rateDelta P i n ≤ 27 ∧
    (opTrigger T P n vel i o).env.rsDelta.toInt = rateDelta P i n

/-- R474: the LFO delay counts down by one a tick, holding the outputs at (0, 1.0) and the phase, held value and prng as they
are; at 0 it stays 0; and only a NOTE_ON (the LFO trigger) or a reset sets it otherwise. -/
def Obligations.LfoDelayCountsDown : Prop :=
  (∀ (T : Rom) (P : Memory) (L : Lfo) (k : Nat), 0 < k → k ≤ L.delay.toNat →
    (lfoStep T P)^[k] L =
      { L with delay := L.delay - BitVec.ofNat 32 k, ampMod := 0#32, pitchMod := 0x3F800000#32 }) ∧
  (∀ (T : Rom) (P : Memory) (L : Lfo), L.delay = 0#32 → (lfoStep T P L).delay = 0#32) ∧
  ∀ (s t : State), step s = .next t → t.lfo.delay ≠ s.lfo.delay →
    (∃ rest, s.events = .reset :: rest) ∨
    (∃ rest, s.events = .tick :: rest ∧ 0 < s.lfo.delay.toNat ∧ t.lfo.delay = s.lfo.delay - 1#32) ∨
    ∃ w rest note vel, s.events = .command w :: rest ∧ decode w = .ok (.noteOn note vel) ∧
      t.lfo.delay = (lfoTrigger rom s.params s.lfo).delay

/-- The LFO with no pitch depth leaves the pitch alone and with no amplitude depth the amplitude: PMD = 0 gives exactly 1.0 and
AMD = 0 a zero, for every finite waveform value, and exactly +0.0 for a value in [-1, 1], which every waveform value is
(46_lfo.md section 2). -/
def Obligations.LfoDepthZeroIsNeutral : Prop :=
  ∀ T : Rom, RomAdmissible T → ∀ (P : Memory) (value : F32), f32Finite value = true →
    (Memory.read P 0xD3 = 0#8 → lfoPitchMod T P value = 0x3F800000#32) ∧
    (Memory.read P 0xD4 = 0#8 → f32Eq (lfoAmpMod P value) 0#32 = true) ∧
    (Memory.read P 0xD4 = 0#8 → f32Le (f32OfInt (-1)) value = true → f32Le value f32One = true →
      lfoAmpMod P value = 0#32)
end

