-- ==== Sys2Proof/Laws/State.lean ====
section
/-! SUPPORT. One lemma per field of State per named update: what the update leaves in the field. -/

namespace Sys2Proof.Machine

/-! ## rejectCommand -/

@[simp] theorem rejectCommand_configured (c : RejectCode) (s : State) : (rejectCommand c s).configured = s.configured := rfl
@[simp] theorem rejectCommand_cmdErr (c : RejectCode) (s : State) : (rejectCommand c s).cmdErr = true := rfl
@[simp] theorem rejectCommand_errCode (c : RejectCode) (s : State) : (rejectCommand c s).errCode = rejectNumber c := rfl
@[simp] theorem rejectCommand_rdata (c : RejectCode) (s : State) : (rejectCommand c s).rdata = s.rdata := rfl
@[simp] theorem rejectCommand_out (c : RejectCode) (s : State) : (rejectCommand c s).out = s.out := rfl
@[simp] theorem rejectCommand_params (c : RejectCode) (s : State) : (rejectCommand c s).params = s.params := rfl
@[simp] theorem rejectCommand_vbuf (c : RejectCode) (s : State) : (rejectCommand c s).vbuf = s.vbuf := rfl
@[simp] theorem rejectCommand_counter (c : RejectCode) (s : State) : (rejectCommand c s).counter = s.counter := rfl
@[simp] theorem rejectCommand_voices (c : RejectCode) (s : State) : (rejectCommand c s).voices = s.voices := rfl
@[simp] theorem rejectCommand_lfo (c : RejectCode) (s : State) : (rejectCommand c s).lfo = s.lfo := rfl
@[simp] theorem rejectCommand_events (c : RejectCode) (s : State) : (rejectCommand c s).events = s.events := rfl

/-! ## hardwareReset -/

@[simp] theorem hardwareReset_configured (T : Rom) (s : State) : (hardwareReset T s).configured = (State.resetOf T.lfoSeed).configured := rfl
@[simp] theorem hardwareReset_cmdErr (T : Rom) (s : State) : (hardwareReset T s).cmdErr = (State.resetOf T.lfoSeed).cmdErr := rfl
@[simp] theorem hardwareReset_errCode (T : Rom) (s : State) : (hardwareReset T s).errCode = (State.resetOf T.lfoSeed).errCode := rfl
@[simp] theorem hardwareReset_rdata (T : Rom) (s : State) : (hardwareReset T s).rdata = (State.resetOf T.lfoSeed).rdata := rfl
@[simp] theorem hardwareReset_out (T : Rom) (s : State) : (hardwareReset T s).out = (State.resetOf T.lfoSeed).out := rfl
@[simp] theorem hardwareReset_params (T : Rom) (s : State) : (hardwareReset T s).params = (State.resetOf T.lfoSeed).params := rfl
@[simp] theorem hardwareReset_vbuf (T : Rom) (s : State) : (hardwareReset T s).vbuf = (State.resetOf T.lfoSeed).vbuf := rfl
@[simp] theorem hardwareReset_counter (T : Rom) (s : State) : (hardwareReset T s).counter = (State.resetOf T.lfoSeed).counter := rfl
@[simp] theorem hardwareReset_voices (T : Rom) (s : State) : (hardwareReset T s).voices = (State.resetOf T.lfoSeed).voices := rfl
@[simp] theorem hardwareReset_lfo (T : Rom) (s : State) : (hardwareReset T s).lfo = (State.resetOf T.lfoSeed).lfo := rfl
@[simp] theorem hardwareReset_prng (T : Rom) (s : State) : (hardwareReset T s).lfo.prng = T.lfoSeed := rfl
@[simp] theorem hardwareReset_events (T : Rom) (s : State) : (hardwareReset T s).events = s.events := rfl

/-! ## writeParam -/

@[simp] theorem writeParam_configured (a : Nat) (b : Byte) (s : State) : (writeParam a b s).configured = s.configured := rfl
@[simp] theorem writeParam_cmdErr (a : Nat) (b : Byte) (s : State) : (writeParam a b s).cmdErr = s.cmdErr := rfl
@[simp] theorem writeParam_errCode (a : Nat) (b : Byte) (s : State) : (writeParam a b s).errCode = s.errCode := rfl
@[simp] theorem writeParam_rdata (a : Nat) (b : Byte) (s : State) : (writeParam a b s).rdata = s.rdata := rfl
@[simp] theorem writeParam_out (a : Nat) (b : Byte) (s : State) : (writeParam a b s).out = s.out := rfl
@[simp] theorem writeParam_params (a : Nat) (b : Byte) (s : State) : (writeParam a b s).params = Memory.write s.params a b := rfl
@[simp] theorem writeParam_vbuf (a : Nat) (b : Byte) (s : State) : (writeParam a b s).vbuf = s.vbuf := rfl
@[simp] theorem writeParam_counter (a : Nat) (b : Byte) (s : State) : (writeParam a b s).counter = s.counter := rfl
@[simp] theorem writeParam_voices (a : Nat) (b : Byte) (s : State) : (writeParam a b s).voices = s.voices := rfl
@[simp] theorem writeParam_lfo (a : Nat) (b : Byte) (s : State) : (writeParam a b s).lfo = s.lfo := rfl
@[simp] theorem writeParam_events (a : Nat) (b : Byte) (s : State) : (writeParam a b s).events = s.events := rfl

/-! ## updateVoice -/

@[simp] theorem updateVoice_configured (v : Fin 8) (f : Voice → Voice) (s : State) : (updateVoice v f s).configured = s.configured := rfl
@[simp] theorem updateVoice_cmdErr (v : Fin 8) (f : Voice → Voice) (s : State) : (updateVoice v f s).cmdErr = s.cmdErr := rfl
@[simp] theorem updateVoice_errCode (v : Fin 8) (f : Voice → Voice) (s : State) : (updateVoice v f s).errCode = s.errCode := rfl
@[simp] theorem updateVoice_rdata (v : Fin 8) (f : Voice → Voice) (s : State) : (updateVoice v f s).rdata = s.rdata := rfl
@[simp] theorem updateVoice_out (v : Fin 8) (f : Voice → Voice) (s : State) : (updateVoice v f s).out = s.out := rfl
@[simp] theorem updateVoice_params (v : Fin 8) (f : Voice → Voice) (s : State) : (updateVoice v f s).params = s.params := rfl
@[simp] theorem updateVoice_vbuf (v : Fin 8) (f : Voice → Voice) (s : State) : (updateVoice v f s).vbuf = s.vbuf := rfl
@[simp] theorem updateVoice_counter (v : Fin 8) (f : Voice → Voice) (s : State) : (updateVoice v f s).counter = s.counter := rfl
@[simp] theorem updateVoice_voices (v : Fin 8) (f : Voice → Voice) (s : State) : (updateVoice v f s).voices = s.voices.set v (f s.voices[v]) := rfl
@[simp] theorem updateVoice_lfo (v : Fin 8) (f : Voice → Voice) (s : State) : (updateVoice v f s).lfo = s.lfo := rfl
@[simp] theorem updateVoice_events (v : Fin 8) (f : Voice → Voice) (s : State) : (updateVoice v f s).events = s.events := rfl

/-! ## bumpAge -/

@[simp] theorem bumpAge_configured (v : Fin 8) (s : State) : (bumpAge v s).configured = s.configured := rfl
@[simp] theorem bumpAge_cmdErr (v : Fin 8) (s : State) : (bumpAge v s).cmdErr = s.cmdErr := rfl
@[simp] theorem bumpAge_errCode (v : Fin 8) (s : State) : (bumpAge v s).errCode = s.errCode := rfl
@[simp] theorem bumpAge_rdata (v : Fin 8) (s : State) : (bumpAge v s).rdata = s.rdata := rfl
@[simp] theorem bumpAge_out (v : Fin 8) (s : State) : (bumpAge v s).out = s.out := rfl
@[simp] theorem bumpAge_params (v : Fin 8) (s : State) : (bumpAge v s).params = s.params := rfl
@[simp] theorem bumpAge_vbuf (v : Fin 8) (s : State) : (bumpAge v s).vbuf = s.vbuf := rfl
@[simp] theorem bumpAge_counter (v : Fin 8) (s : State) : (bumpAge v s).counter = nextCounter s.counter := rfl
@[simp] theorem bumpAge_lfo (v : Fin 8) (s : State) : (bumpAge v s).lfo = s.lfo := rfl
@[simp] theorem bumpAge_events (v : Fin 8) (s : State) : (bumpAge v s).events = s.events := rfl

/-! ## startNote -/

@[simp] theorem startNote_configured (T : Rom) (v : Fin 8) (note vel : BitVec 7) (s : State) : (startNote T v note vel s).configured = s.configured := rfl
@[simp] theorem startNote_cmdErr (T : Rom) (v : Fin 8) (note vel : BitVec 7) (s : State) : (startNote T v note vel s).cmdErr = s.cmdErr := rfl
@[simp] theorem startNote_errCode (T : Rom) (v : Fin 8) (note vel : BitVec 7) (s : State) : (startNote T v note vel s).errCode = s.errCode := rfl
@[simp] theorem startNote_rdata (T : Rom) (v : Fin 8) (note vel : BitVec 7) (s : State) : (startNote T v note vel s).rdata = s.rdata := rfl
@[simp] theorem startNote_out (T : Rom) (v : Fin 8) (note vel : BitVec 7) (s : State) : (startNote T v note vel s).out = s.out := rfl
@[simp] theorem startNote_params (T : Rom) (v : Fin 8) (note vel : BitVec 7) (s : State) : (startNote T v note vel s).params = s.params := rfl
@[simp] theorem startNote_vbuf (T : Rom) (v : Fin 8) (note vel : BitVec 7) (s : State) : (startNote T v note vel s).vbuf = s.vbuf := rfl
@[simp] theorem startNote_counter (T : Rom) (v : Fin 8) (note vel : BitVec 7) (s : State) : (startNote T v note vel s).counter = nextCounter s.counter := rfl
@[simp] theorem startNote_lfo (T : Rom) (v : Fin 8) (note vel : BitVec 7) (s : State) : (startNote T v note vel s).lfo = s.lfo := rfl
@[simp] theorem startNote_events (T : Rom) (v : Fin 8) (note vel : BitVec 7) (s : State) : (startNote T v note vel s).events = s.events := rfl

/-! ## releaseAll -/

@[simp] theorem releaseAll_configured (T : Rom) (s : State) : (releaseAll T s).configured = s.configured := rfl
@[simp] theorem releaseAll_cmdErr (T : Rom) (s : State) : (releaseAll T s).cmdErr = s.cmdErr := rfl
@[simp] theorem releaseAll_errCode (T : Rom) (s : State) : (releaseAll T s).errCode = s.errCode := rfl
@[simp] theorem releaseAll_rdata (T : Rom) (s : State) : (releaseAll T s).rdata = s.rdata := rfl
@[simp] theorem releaseAll_out (T : Rom) (s : State) : (releaseAll T s).out = s.out := rfl
@[simp] theorem releaseAll_params (T : Rom) (s : State) : (releaseAll T s).params = s.params := rfl
@[simp] theorem releaseAll_vbuf (T : Rom) (s : State) : (releaseAll T s).vbuf = s.vbuf := rfl
@[simp] theorem releaseAll_counter (T : Rom) (s : State) : (releaseAll T s).counter = s.counter := rfl
@[simp] theorem releaseAll_voices (T : Rom) (s : State) : (releaseAll T s).voices = s.voices.map (voiceNoteOff T s.params) := rfl
@[simp] theorem releaseAll_lfo (T : Rom) (s : State) : (releaseAll T s).lfo = s.lfo := rfl
@[simp] theorem releaseAll_events (T : Rom) (s : State) : (releaseAll T s).events = s.events := rfl

/-! ## triggerLfo -/

@[simp] theorem triggerLfo_configured (T : Rom) (s : State) : (triggerLfo T s).configured = s.configured := rfl
@[simp] theorem triggerLfo_cmdErr (T : Rom) (s : State) : (triggerLfo T s).cmdErr = s.cmdErr := rfl
@[simp] theorem triggerLfo_errCode (T : Rom) (s : State) : (triggerLfo T s).errCode = s.errCode := rfl
@[simp] theorem triggerLfo_rdata (T : Rom) (s : State) : (triggerLfo T s).rdata = s.rdata := rfl
@[simp] theorem triggerLfo_out (T : Rom) (s : State) : (triggerLfo T s).out = s.out := rfl
@[simp] theorem triggerLfo_params (T : Rom) (s : State) : (triggerLfo T s).params = s.params := rfl
@[simp] theorem triggerLfo_vbuf (T : Rom) (s : State) : (triggerLfo T s).vbuf = s.vbuf := rfl
@[simp] theorem triggerLfo_counter (T : Rom) (s : State) : (triggerLfo T s).counter = s.counter := rfl
@[simp] theorem triggerLfo_voices (T : Rom) (s : State) : (triggerLfo T s).voices = s.voices := rfl
@[simp] theorem triggerLfo_lfo (T : Rom) (s : State) : (triggerLfo T s).lfo = lfoTrigger T s.params s.lfo := rfl
@[simp] theorem triggerLfo_events (T : Rom) (s : State) : (triggerLfo T s).events = s.events := rfl

/-! ## stealVoice -/

@[simp] theorem stealVoice_configured (T : Rom) (note vel : BitVec 7) (s : State) : (stealVoice T note vel s).configured = s.configured := rfl
@[simp] theorem stealVoice_cmdErr (T : Rom) (note vel : BitVec 7) (s : State) : (stealVoice T note vel s).cmdErr = s.cmdErr := rfl
@[simp] theorem stealVoice_errCode (T : Rom) (note vel : BitVec 7) (s : State) : (stealVoice T note vel s).errCode = s.errCode := rfl
@[simp] theorem stealVoice_rdata (T : Rom) (note vel : BitVec 7) (s : State) : (stealVoice T note vel s).rdata = s.rdata := rfl
@[simp] theorem stealVoice_out (T : Rom) (note vel : BitVec 7) (s : State) : (stealVoice T note vel s).out = s.out := rfl
@[simp] theorem stealVoice_params (T : Rom) (note vel : BitVec 7) (s : State) : (stealVoice T note vel s).params = s.params := rfl
@[simp] theorem stealVoice_vbuf (T : Rom) (note vel : BitVec 7) (s : State) : (stealVoice T note vel s).vbuf = s.vbuf := rfl
@[simp] theorem stealVoice_counter (T : Rom) (note vel : BitVec 7) (s : State) : (stealVoice T note vel s).counter = nextCounter s.counter := rfl
@[simp] theorem stealVoice_lfo (T : Rom) (note vel : BitVec 7) (s : State) : (stealVoice T note vel s).lfo = s.lfo := rfl
@[simp] theorem stealVoice_events (T : Rom) (note vel : BitVec 7) (s : State) : (stealVoice T note vel s).events = s.events := rfl

/-! ## synthNoteOn -/

@[simp] theorem synthNoteOn_configured (T : Rom) (note vel : BitVec 7) (s : State) : (synthNoteOn T note vel s).configured = s.configured := by
  unfold synthNoteOn; split
  · rfl
  · split
    · split <;> rfl
    · rfl
@[simp] theorem synthNoteOn_cmdErr (T : Rom) (note vel : BitVec 7) (s : State) : (synthNoteOn T note vel s).cmdErr = s.cmdErr := by
  unfold synthNoteOn; split
  · rfl
  · split
    · split <;> rfl
    · rfl
@[simp] theorem synthNoteOn_errCode (T : Rom) (note vel : BitVec 7) (s : State) : (synthNoteOn T note vel s).errCode = s.errCode := by
  unfold synthNoteOn; split
  · rfl
  · split
    · split <;> rfl
    · rfl
@[simp] theorem synthNoteOn_rdata (T : Rom) (note vel : BitVec 7) (s : State) : (synthNoteOn T note vel s).rdata = s.rdata := by
  unfold synthNoteOn; split
  · rfl
  · split
    · split <;> rfl
    · rfl
@[simp] theorem synthNoteOn_out (T : Rom) (note vel : BitVec 7) (s : State) : (synthNoteOn T note vel s).out = s.out := by
  unfold synthNoteOn; split
  · rfl
  · split
    · split <;> rfl
    · rfl
@[simp] theorem synthNoteOn_params (T : Rom) (note vel : BitVec 7) (s : State) : (synthNoteOn T note vel s).params = s.params := by
  unfold synthNoteOn; split
  · rfl
  · split
    · split <;> rfl
    · rfl
@[simp] theorem synthNoteOn_vbuf (T : Rom) (note vel : BitVec 7) (s : State) : (synthNoteOn T note vel s).vbuf = s.vbuf := by
  unfold synthNoteOn; split
  · rfl
  · split
    · split <;> rfl
    · rfl
@[simp] theorem synthNoteOn_counter (T : Rom) (note vel : BitVec 7) (s : State) : (synthNoteOn T note vel s).counter = nextCounter s.counter := by
  unfold synthNoteOn; split
  · rfl
  · split
    · split <;> rfl
    · rfl
@[simp] theorem synthNoteOn_events (T : Rom) (note vel : BitVec 7) (s : State) : (synthNoteOn T note vel s).events = s.events := by
  unfold synthNoteOn; split
  · rfl
  · split
    · split <;> rfl
    · rfl

/-! ## synthNoteOff -/

@[simp] theorem synthNoteOff_configured (T : Rom) (note : BitVec 7) (s : State) : (synthNoteOff T note s).configured = s.configured := by
  unfold synthNoteOff; split <;> rfl
@[simp] theorem synthNoteOff_cmdErr (T : Rom) (note : BitVec 7) (s : State) : (synthNoteOff T note s).cmdErr = s.cmdErr := by
  unfold synthNoteOff; split <;> rfl
@[simp] theorem synthNoteOff_errCode (T : Rom) (note : BitVec 7) (s : State) : (synthNoteOff T note s).errCode = s.errCode := by
  unfold synthNoteOff; split <;> rfl
@[simp] theorem synthNoteOff_rdata (T : Rom) (note : BitVec 7) (s : State) : (synthNoteOff T note s).rdata = s.rdata := by
  unfold synthNoteOff; split <;> rfl
@[simp] theorem synthNoteOff_out (T : Rom) (note : BitVec 7) (s : State) : (synthNoteOff T note s).out = s.out := by
  unfold synthNoteOff; split <;> rfl
@[simp] theorem synthNoteOff_params (T : Rom) (note : BitVec 7) (s : State) : (synthNoteOff T note s).params = s.params := by
  unfold synthNoteOff; split <;> rfl
@[simp] theorem synthNoteOff_vbuf (T : Rom) (note : BitVec 7) (s : State) : (synthNoteOff T note s).vbuf = s.vbuf := by
  unfold synthNoteOff; split <;> rfl
@[simp] theorem synthNoteOff_counter (T : Rom) (note : BitVec 7) (s : State) : (synthNoteOff T note s).counter = s.counter := by
  unfold synthNoteOff; split <;> rfl
@[simp] theorem synthNoteOff_lfo (T : Rom) (note : BitVec 7) (s : State) : (synthNoteOff T note s).lfo = s.lfo := by
  unfold synthNoteOff; split <;> rfl
@[simp] theorem synthNoteOff_events (T : Rom) (note : BitVec 7) (s : State) : (synthNoteOff T note s).events = s.events := by
  unfold synthNoteOff; split <;> rfl

/-! ## tick -/

@[simp] theorem tick_configured (T : Rom) (s : State) : (tick T s).configured = s.configured := by
  unfold tick; split <;> rfl
@[simp] theorem tick_cmdErr (T : Rom) (s : State) : (tick T s).cmdErr = s.cmdErr := by
  unfold tick; split <;> rfl
@[simp] theorem tick_errCode (T : Rom) (s : State) : (tick T s).errCode = s.errCode := by
  unfold tick; split <;> rfl
@[simp] theorem tick_rdata (T : Rom) (s : State) : (tick T s).rdata = s.rdata := by
  unfold tick; split <;> rfl
@[simp] theorem tick_params (T : Rom) (s : State) : (tick T s).params = s.params := by
  unfold tick; split <;> rfl
@[simp] theorem tick_vbuf (T : Rom) (s : State) : (tick T s).vbuf = s.vbuf := by
  unfold tick; split <;> rfl
@[simp] theorem tick_counter (T : Rom) (s : State) : (tick T s).counter = s.counter := by
  unfold tick; split <;> rfl
@[simp] theorem tick_events (T : Rom) (s : State) : (tick T s).events = s.events := by
  unfold tick; split <;> rfl

/-! ## readReg -/

@[simp] theorem readReg_configured (n : Nat) (s : State) : (readReg n s).configured = s.configured := by
  unfold readReg; split <;> rfl
@[simp] theorem readReg_cmdErr (n : Nat) (s : State) : (readReg n s).cmdErr = s.cmdErr := by
  unfold readReg; split <;> rfl
@[simp] theorem readReg_errCode (n : Nat) (s : State) : (readReg n s).errCode = s.errCode := by
  unfold readReg; split <;> rfl
@[simp] theorem readReg_out (n : Nat) (s : State) : (readReg n s).out = s.out := by
  unfold readReg; split <;> rfl
@[simp] theorem readReg_params (n : Nat) (s : State) : (readReg n s).params = s.params := by
  unfold readReg; split <;> rfl
@[simp] theorem readReg_vbuf (n : Nat) (s : State) : (readReg n s).vbuf = s.vbuf := by
  unfold readReg; split <;> rfl
@[simp] theorem readReg_counter (n : Nat) (s : State) : (readReg n s).counter = s.counter := by
  unfold readReg; split <;> rfl
@[simp] theorem readReg_voices (n : Nat) (s : State) : (readReg n s).voices = s.voices := by
  unfold readReg; split <;> rfl
@[simp] theorem readReg_lfo (n : Nat) (s : State) : (readReg n s).lfo = s.lfo := by
  unfold readReg; split <;> rfl
@[simp] theorem readReg_events (n : Nat) (s : State) : (readReg n s).events = s.events := by
  unfold readReg; split <;> rfl

/-! ## withFetchWord -/

@[simp] theorem withFetchWord_configured (s : State) (nbits w : Nat) : (s.withFetchWord nbits w).configured = s.configured := rfl
@[simp] theorem withFetchWord_cmdErr (s : State) (nbits w : Nat) : (s.withFetchWord nbits w).cmdErr = s.cmdErr := rfl
@[simp] theorem withFetchWord_errCode (s : State) (nbits w : Nat) : (s.withFetchWord nbits w).errCode = s.errCode := rfl
@[simp] theorem withFetchWord_rdata (s : State) (nbits w : Nat) : (s.withFetchWord nbits w).rdata = s.rdata := rfl
@[simp] theorem withFetchWord_out (s : State) (nbits w : Nat) : (s.withFetchWord nbits w).out = s.out := rfl
@[simp] theorem withFetchWord_params (s : State) (nbits w : Nat) : (s.withFetchWord nbits w).params = s.params := rfl
@[simp] theorem withFetchWord_vbuf (s : State) (nbits w : Nat) : (s.withFetchWord nbits w).vbuf = s.vbuf := rfl
@[simp] theorem withFetchWord_counter (s : State) (nbits w : Nat) : (s.withFetchWord nbits w).counter = s.counter := rfl
@[simp] theorem withFetchWord_voices (s : State) (nbits w : Nat) : (s.withFetchWord nbits w).voices = s.voices := rfl
@[simp] theorem withFetchWord_lfo (s : State) (nbits w : Nat) : (s.withFetchWord nbits w).lfo = s.lfo := rfl
@[simp] theorem withFetchWord_events (s : State) (nbits w : Nat) : (s.withFetchWord nbits w).events = .command (BitVec.ofNat 32 (w % 2 ^ nbits)) :: s.events := rfl

end Sys2Proof.Machine
end

