-- ==== Sys2Proof/Laws/Ops.lean ====
section
/-! SUPPORT. The shared operations, once each: integers in registers, stages, events, and what a step can do. -/

namespace Sys2Proof.Machine

/-- An integer that fits an i32 register reads back as it was stored. -/
theorem toI32_toInt {n : Int} (h : -2 ^ 31 ≤ n) (h' : n < 2 ^ 31) : (toI32 n).toInt = n := by
  unfold toI32
  rw [BitVec.toInt_ofInt]
  exact Int.bmod_eq_of_le (by omega) (by omega)

@[simp] theorem toI32_of_toInt (x : BitVec 32) : toI32 x.toInt = x := by simp [toI32]

/-- Below 2^64 - 1 the counter counts up by one. -/
theorem nextCounter_of_ne {c : BitVec 64} (h : c ≠ BitVec.allOnes 64) : nextCounter c = c + 1#64 := by
  rw [nextCounter, if_neg h]

theorem nextCounter_toNat {c : BitVec 64} (h : c ≠ BitVec.allOnes 64) : (nextCounter c).toNat = c.toNat + 1 := by
  rw [nextCounter_of_ne h]
  have : c.toNat ≠ 2 ^ 64 - 1 := fun e => h (BitVec.eq_of_toNat_eq (by simpa using e))
  have := c.isLt
  simp only [BitVec.toNat_add, BitVec.toNat_ofNat]
  omega

theorem stageIndex_none {st : Stage} : stageIndex st = none ↔ st = .idle := by cases st <;> simp [stageIndex]

theorem stageCode_lt_three {st : Stage} : stageCode st < 3 ↔ st = .attack ∨ st = .decay1 ∨ st = .decay2 := by
  cases st <;> simp [stageCode]

@[simp] theorem takeEvent_nil {s : State} (h : s.events = []) : takeEvent s = none := by simp [takeEvent, h]

@[simp] theorem takeEvent_cons {s : State} {e : Event} {rest : List Event} (h : s.events = e :: rest) :
    takeEvent s = some (e, { s with events := rest }) := by simp [takeEvent, h]

/-- What a step that answers next can do: idle, a tick, reset, a rejection or a decoded command. -/
theorem step_cases {s t : State} (h : step s = .next t) :
    (s.events = [] ∧ t = s) ∨
    (∃ rest, s.events = .tick :: rest ∧ t = tick rom { s with events := rest }) ∨
    (∃ rest, s.events = .reset :: rest ∧ t = hardwareReset rom { s with events := rest }) ∨
    (∃ w rest c, s.events = .command w :: rest ∧ decode w = .error c ∧
      t = rejectCommand c { s with events := rest }) ∨
    (∃ w rest i, s.events = .command w :: rest ∧ decode w = .ok i ∧ exec i { s with events := rest } = .next t) := by
  cases he : s.events with
  | nil =>
    rw [step, takeEvent_nil he] at h
    exact .inl ⟨rfl, by simpa using h.symm⟩
  | cons e rest =>
    rw [step, takeEvent_cons he] at h
    cases e with
    | tick => exact .inr (.inl ⟨rest, rfl, by simpa using h.symm⟩)
    | reset => exact .inr (.inr (.inl ⟨rest, rfl, by simpa using h.symm⟩))
    | command w =>
      simp only [commandStep] at h
      cases hd : decode w with
      | error c =>
        rw [hd] at h
        exact .inr (.inr (.inr (.inl ⟨w, rest, c, rfl, hd, by simpa using h.symm⟩)))
      | ok i =>
        rw [hd] at h
        exact .inr (.inr (.inr (.inr ⟨w, rest, i, rfl, hd, h⟩)))

/-- The operand check either rejects the command and does nothing else, or lets its effect stand. -/
theorem checkOperand_cases (i : Instr) (s t : State) :
    (∃ c, operandReject i = some c ∧ checkOperand i s t = rejectCommand c s) ∨
    (WellFormed i ∧ checkOperand i s t = t) := by
  unfold checkOperand
  cases h : operandReject i with
  | some c => exact .inl ⟨c, rfl, rfl⟩
  | none => exact .inr ⟨h, rfl⟩

end Sys2Proof.Machine
end

