-- ==== Sys2Proof/Laws/Voice.lean ====
section
/-! SUPPORT. The voices: reading a voice or an operator after each operation on them, and the loops over all of them. -/

namespace Sys2Proof.Machine

theorem mem_voiceIndices (v : Fin 8) : v ∈ voiceIndices := by revert v; decide

theorem mem_coreIndices (i : Fin 6) : i ∈ coreIndices := by revert i; decide

/-- A voice is active where some enabled operator's envelope is (R87). -/
theorem voiceActive_iff (c : Bool) (P : Memory) (vc : Voice) :
    voiceActive c P vc = true ↔ ∃ i : Fin 6, opFlag P i .enabled = true ∧ envActive c P i vc.ops[i].env = true := by
  simp only [voiceActive, List.any_eq_true, Bool.and_eq_true]
  exact ⟨fun ⟨i, _, h⟩ => ⟨i, h⟩, fun ⟨i, h⟩ => ⟨i, mem_coreIndices i, h⟩⟩

@[simp] theorem updateVoice_same (v : Fin 8) (f : Voice → Voice) (s : State) :
    (updateVoice v f s).voices[v] = f s.voices[v] := by simp [updateVoice]

theorem updateVoice_other {v w : Fin 8} (h : w ≠ v) (f : Voice → Voice) (s : State) :
    (updateVoice v f s).voices[w] = s.voices[w] := by
  simp only [updateVoice, Fin.getElem_fin]
  exact Vector.getElem_set_ne _ _ (fun e => h (Fin.ext e.symm))

@[simp] theorem bumpAge_same (v : Fin 8) (s : State) :
    (bumpAge v s).voices[v] = { s.voices[v] with age := nextCounter s.counter } := by simp [bumpAge]

theorem bumpAge_other {v w : Fin 8} (h : w ≠ v) (s : State) : (bumpAge v s).voices[w] = s.voices[w] := by
  rw [bumpAge, updateVoice_other h]

@[simp] theorem startNote_same (T : Rom) (v : Fin 8) (note vel : BitVec 7) (s : State) :
    (startNote T v note vel s).voices[v] =
      voiceNoteOn T s.params note vel { s.voices[v] with age := nextCounter s.counter } := by
  rw [startNote, updateVoice_same, bumpAge_same]

theorem startNote_other (T : Rom) {v w : Fin 8} (h : w ≠ v) (note vel : BitVec 7) (s : State) :
    (startNote T v note vel s).voices[w] = s.voices[w] := by
  rw [startNote, updateVoice_other h, bumpAge_other h]

@[simp] theorem releaseAll_voice (T : Rom) (v : Fin 8) (s : State) :
    (releaseAll T s).voices[v] = voiceNoteOff T s.params s.voices[v] := by simp [releaseAll]

@[simp] theorem voiceNoteOn_op (T : Rom) (P : Memory) (note vel : BitVec 7) (vc : Voice) (i : Fin 6) :
    (voiceNoteOn T P note vel vc).ops[i] = opTrigger T P (effectiveNote P note) vel.toNat i vc.ops[i] := by
  simp [voiceNoteOn]

@[simp] theorem voiceNoteOff_op (T : Rom) (P : Memory) (vc : Voice) (i : Fin 6) :
    (voiceNoteOff T P vc).ops[i] = opRelease T P i vc.ops[i] := by simp [voiceNoteOff]

/-- A voice after a configured tick. -/
theorem tick_voice {T : Rom} {s : State} (h : s.configured = true) (v : Fin 8) :
    (tick T s).voices[v] = (voiceTurn T s.params (lfoStep T s.params s.lfo) s.voices[v]).1 := by
  simp [tick, h]

/-- A voice after a tick of an unconfigured block. -/
theorem tick_unconfigured {T : Rom} {s : State} (h : s.configured = false) :
    tick T s = { s with out := f32Zero } := by simp [tick, h]

/-- A tick leaves note, held bit and age of every voice. -/
theorem tick_voice_fields (T : Rom) (s : State) (v : Fin 8) :
    (tick T s).voices[v].note = s.voices[v].note ∧ (tick T s).voices[v].held = s.voices[v].held ∧
      (tick T s).voices[v].age = s.voices[v].age := by
  cases h : s.configured with
  | false => rw [tick_unconfigured h]; exact ⟨rfl, rfl, rfl⟩
  | true =>
    rw [tick_voice h]
    unfold voiceTurn
    split <;> exact ⟨rfl, rfl, rfl⟩

/-- One turn of the pass changes the operator it is about and no other. -/
theorem algTurn_ops_other (T : Rom) (P : Memory) (pmod amod : F32) (s : AlgPass) {i j : Fin 6} (h : j ≠ i) :
    (algTurn T P pmod amod s i).ops[j] = s.ops[j] := by
  simp only [algTurn, Fin.getElem_fin]
  exact Vector.getElem_set_ne _ _ (fun e => h (Fin.ext e.symm))

/-- A property of an operator and its index that every operator step keeps holds of every operator after a pass. -/
theorem algStep_ops_induction (T : Rom) (P : Memory) {Q : Fin 6 → Operator → Prop}
    (hstep : ∀ i pm pmod amod fb o, Q i o → Q i (opStep T P i pm pmod amod fb o).1) (pmod amod : F32)
    (ops : Vector Operator 6) (h : ∀ i : Fin 6, Q i ops[i]) (i : Fin 6) :
    Q i (algStep T P pmod amod ops).ops[i] := by
  have hturn : ∀ (s : AlgPass) (k : Fin 6), (∀ i : Fin 6, Q i s.ops[i]) →
      ∀ i : Fin 6, Q i (algTurn T P pmod amod s k).ops[i] := by
    intro s k hs j
    by_cases hj : j = k
    · subst hj
      simpa [algTurn] using hstep j _ _ _ _ _ (hs j)
    · rw [algTurn_ops_other T P pmod amod s hj]
      exact hs j
  have hfold : ∀ (l : List (Fin 6)) (s : AlgPass), (∀ i : Fin 6, Q i s.ops[i]) →
      ∀ i : Fin 6, Q i (l.foldl (algTurn T P pmod amod) s).ops[i] := by
    intro l
    induction l with
    | nil => exact fun s hs => hs
    | cons k l ih => exact fun s hs => ih _ (hturn s k hs)
  exact hfold _ _ h i

end Sys2Proof.Machine
end

