-- ==== Sys2Proof/Laws/Allocation.lean ====
section
/-! SUPPORT. The searches of the voice allocator (spec/47_voice_synth.md R530 to R532), what NOTE_ON and NOTE_OFF can do, and what the LFO's
and an operator's step can do. -/

namespace Sys2Proof.Machine

theorem voiceIndices_get (k : Nat) (h : k < voiceIndices.length) : voiceIndices[k] = Fin.ofNat 8 k := by
  have h' : k < 8 := h
  interval_cases k <;> rfl

/-- The first voice that satisfies a test. -/
theorem find_voice_eq_some {p : Fin 8 → Bool} {f : Fin 8} :
    voiceIndices.find? p = some f ↔ p f = true ∧ ∀ v, v < f → p v = false := by
  rw [List.find?_eq_some_iff_getElem]
  constructor
  · rintro ⟨hf, k, hk, rfl, hj⟩
    refine ⟨hf, fun v hv => ?_⟩
    have hk8 : k < 8 := hk
    have hvk : v.val < k := by
      rw [voiceIndices_get k hk] at hv
      have : v.val < k % 8 := hv
      omega
    have h := hj v.val hvk
    rw [voiceIndices_get] at h
    have e : Fin.ofNat 8 v.val = v := Fin.ext (Nat.mod_eq_of_lt v.isLt)
    rw [e] at h
    simpa using h
  · rintro ⟨hf, hv⟩
    have e : ∀ w : Fin 8, Fin.ofNat 8 w.val = w := fun w => Fin.ext (Nat.mod_eq_of_lt w.isLt)
    refine ⟨hf, f.val, f.isLt, (voiceIndices_get f.val f.isLt).trans (e f), fun j hj => ?_⟩
    rw [voiceIndices_get]
    have h := hv ⟨j, by omega⟩ hj
    have e' := e ⟨j, by omega⟩
    simp only at e'
    rw [e', h]
    rfl

/-- No voice satisfies a test. -/
theorem find_voice_eq_none {p : Fin 8 → Bool} : voiceIndices.find? p = none ↔ ∀ v, p v = false := by
  rw [List.find?_eq_none]
  exact ⟨fun h v => by simpa using h v (mem_voiceIndices v), fun h v _ => by simp [h v]⟩

/-- The free voice of R530. -/
theorem firstFree_eq_some {s : State} {f : Fin 8} :
    firstFree s = some f ↔ activeIn s f = false ∧ ∀ v, v < f → activeIn s v = true := by
  rw [firstFree, find_voice_eq_some]
  simp

theorem firstFree_eq_none {s : State} : firstFree s = none ↔ ∀ v, activeIn s v = true := by
  rw [firstFree, find_voice_eq_none]
  simp

theorem anyActive_eq_false {s : State} : anyActive s = false ↔ ∀ v, activeIn s v = false := by
  rw [anyActive, List.any_eq_false]
  exact ⟨fun h v => by simpa using h v (mem_voiceIndices v), fun h v _ => by simp [h v]⟩

/-- The held voice of R532. -/
theorem heldVoice_eq_some {note : BitVec 7} {s : State} {f : Fin 8} :
    heldVoice note s = some f ↔ (s.voices[f].held = true ∧ s.voices[f].note = note.setWidth 8) ∧
      ∀ v : Fin 8, v < f → s.voices[v].held = false ∨ s.voices[v].note ≠ note.setWidth 8 := by
  rw [heldVoice, find_voice_eq_some]
  simp only [Bool.and_eq_true, beq_iff_eq, Bool.and_eq_false_iff, beq_eq_false_iff_ne]

theorem heldVoice_eq_none {note : BitVec 7} {s : State} :
    heldVoice note s = none ↔ ∀ v : Fin 8, s.voices[v].held = false ∨ s.voices[v].note ≠ note.setWidth 8 := by
  rw [heldVoice, find_voice_eq_none]
  simp only [Bool.and_eq_false_iff, beq_eq_false_iff_ne]

/-- The older of two voices is one of them, and no younger than either. -/
theorem olderVoice_cases (s : State) (m v : Fin 8) :
    (olderVoice s m v = v ∧ s.voices[v].age.toNat < s.voices[m].age.toNat) ∨
    (olderVoice s m v = m ∧ s.voices[m].age.toNat ≤ s.voices[v].age.toNat) := by
  unfold olderVoice
  split
  · rename_i h; exact .inl ⟨rfl, BitVec.lt_def.mp h⟩
  · rename_i h; exact .inr ⟨rfl, Nat.le_of_not_lt fun h' => h (BitVec.lt_def.mpr h')⟩

/-- A search for the least age over a rising list gives the least, and the first such. -/
theorem foldl_olderVoice (s : State) (l : List (Fin 8)) (m r : Fin 8) (hl : (m :: l).Pairwise (· < ·))
    (hr : l.foldl (olderVoice s) m = r) :
    r ∈ m :: l ∧ ∀ v ∈ m :: l, s.voices[r].age.toNat ≤ s.voices[v].age.toNat ∧
      (v < r → s.voices[r].age.toNat < s.voices[v].age.toNat) := by
  induction l generalizing m with
  | nil =>
    subst hr
    refine ⟨by simp, fun v hv => ?_⟩
    have hv : v = m := by simpa using hv
    subst hv
    exact ⟨Nat.le_refl _, fun h => absurd h (lt_irrefl _)⟩
  | cons w l ih =>
    obtain ⟨hm, hw⟩ := List.pairwise_cons.mp hl
    have hmw : m < w := hm w (by simp)
    rw [List.foldl_cons] at hr
    rcases olderVoice_cases s m w with ⟨e, hlt⟩ | ⟨e, hle⟩ <;> rw [e] at hr
    · obtain ⟨hr, h⟩ := ih w hw hr
      refine ⟨List.mem_cons_of_mem _ hr, fun v hv => ?_⟩
      rcases List.mem_cons.mp hv with rfl | hv
      · have h2 := lt_of_le_of_lt (h w (by simp)).1 hlt
        exact ⟨h2.le, fun _ => h2⟩
      · exact h v hv
    · obtain ⟨hr, h⟩ := ih m (List.pairwise_cons.mpr
        ⟨fun x hx => hm x (List.mem_cons_of_mem _ hx), (List.pairwise_cons.mp hw).2⟩) hr
      refine ⟨?_, fun v hv => ?_⟩
      · rcases List.mem_cons.mp hr with hr | hr
        · rw [hr]; simp
        · exact List.mem_cons_of_mem _ (List.mem_cons_of_mem _ hr)
      · rcases List.mem_cons.mp hv with rfl | hv
        · exact h v (by simp)
        · rcases List.mem_cons.mp hv with rfl | hv
          · exact ⟨(h m (by simp)).1.trans hle, fun hvr => lt_of_lt_of_le ((h m (by simp)).2 (hmw.trans hvr)) hle⟩
          · exact h v (List.mem_cons_of_mem _ hv)

/-- The stolen voice of R531: of least age, and the lowest such. -/
theorem oldestVoice_spec (s : State) (v : Fin 8) :
    s.voices[oldestVoice s].age ≤ s.voices[v].age ∧ (v < oldestVoice s → s.voices[oldestVoice s].age < s.voices[v].age) := by
  have e : [1, 2, 3, 4, 5, 6, 7].foldl (olderVoice s) 0 = oldestVoice s := by
    simp [oldestVoice, voiceIndices, olderVoice]
  have h := (foldl_olderVoice s [1, 2, 3, 4, 5, 6, 7] 0 (oldestVoice s) (by decide) e).2 v (mem_voiceIndices v)
  exact ⟨BitVec.le_def.mpr h.1, fun hv => BitVec.lt_def.mpr (h.2 hv)⟩

/-- What synth_note_on can do (R530): the monophonic case, a free voice with or without the LFO's trigger, a steal. -/
theorem synthNoteOn_cases (T : Rom) (note vel : BitVec 7) (s : State) :
    (globalFlag s.params .mono = true ∧
      synthNoteOn T note vel s = startNote T 0 note vel (triggerLfo T (releaseAll T s))) ∨
    (globalFlag s.params .mono = false ∧ ∃ f, firstFree s = some f ∧
      ((anyActive s = false ∨ globalFlag s.params .lfoKeySync = true) ∧
          synthNoteOn T note vel s = triggerLfo T (startNote T f note vel s) ∨
        (anyActive s = true ∧ globalFlag s.params .lfoKeySync = false) ∧
          synthNoteOn T note vel s = startNote T f note vel s)) ∨
    (globalFlag s.params .mono = false ∧ firstFree s = none ∧ synthNoteOn T note vel s = stealVoice T note vel s) := by
  unfold synthNoteOn
  cases hm : globalFlag s.params .mono with
  | true => exact .inl ⟨rfl, by simp⟩
  | false =>
    cases hf : firstFree s with
    | none => exact .inr (.inr ⟨rfl, rfl, by simp⟩)
    | some f =>
      refine .inr (.inl ⟨rfl, f, rfl, ?_⟩)
      cases ha : anyActive s <;> cases hk : globalFlag s.params .lfoKeySync <;> simp

/-- What synth_note_off can do (R532). -/
theorem synthNoteOff_cases (T : Rom) (note : BitVec 7) (s : State) :
    (∃ v, heldVoice note s = some v ∧ synthNoteOff T note s = updateVoice v (voiceNoteOff T s.params) s) ∨
    (heldVoice note s = none ∧ synthNoteOff T note s = s) := by
  unfold synthNoteOff
  cases h : heldVoice note s with
  | some v => exact .inl ⟨v, rfl, rfl⟩
  | none => exact .inr ⟨rfl, rfl⟩

/-- Starting a note changes the voices and the counter only. -/
theorem startNote_frame (T : Rom) (v : Fin 8) (note vel : BitVec 7) (s : State) :
    startNote T v note vel s =
      { s with counter := nextCounter s.counter, voices := (startNote T v note vel s).voices } := rfl

/-- Stealing a voice changes the voices and the counter only. -/
theorem stealVoice_frame (T : Rom) (note vel : BitVec 7) (s : State) :
    stealVoice T note vel s =
      { s with counter := nextCounter s.counter, voices := (stealVoice T note vel s).voices } := rfl

/-- The stolen voice after a steal. -/
theorem stealVoice_same (T : Rom) (note vel : BitVec 7) (s : State) :
    (stealVoice T note vel s).voices[oldestVoice s] =
      voiceNoteOn T s.params note vel
        { voiceNoteOff T s.params s.voices[oldestVoice s] with age := nextCounter s.counter } := by
  rw [stealVoice, startNote_same, updateVoice_same]
  rfl

/-- Every other voice after a steal. -/
theorem stealVoice_other (T : Rom) (note vel : BitVec 7) (s : State) {v : Fin 8} (h : v ≠ oldestVoice s) :
    (stealVoice T note vel s).voices[v] = s.voices[v] := by
  rw [stealVoice, startNote_other T h, updateVoice_other h]

/-- What one LFO step can do to the fields that it does not compute from the waveform (R473). -/
theorem lfoStep_cases (T : Rom) (P : Memory) (L : Lfo) :
    (L.delay ≠ 0#32 ∧ lfoStep T P L = { L with delay := L.delay - 1#32, ampMod := f32Zero, pitchMod := f32One }) ∨
    (L.delay = 0#32 ∧ (lfoStep T P L).delay = 0#32 ∧
      (lfoStep T P L).phase = f32Frac (f32Add L.phase (lfoInc T P)) ∧
      ((lfoStep T P L).prng = L.prng ∧ (lfoStep T P L).held = L.held ∨
        (lfoStep T P L).prng = xorshift32 L.prng ∧ (lfoStep T P L).held = (shRefresh L).held)) := by
  unfold lfoStep
  by_cases hd : L.delay = 0#32
  · refine .inr ⟨hd, ?_⟩
    simp only [hd, ne_eq, not_true_eq_false, if_false]
    split
    · unfold shAdvance
      dsimp only
      split
      · exact ⟨hd, rfl, .inr ⟨rfl, rfl⟩⟩
      · exact ⟨hd, rfl, .inl ⟨rfl, rfl⟩⟩
    · exact ⟨rfl, rfl, .inl ⟨rfl, rfl⟩⟩
  · exact .inl ⟨hd, by simp [hd]⟩

/-- What one operator step can do to the operator (R400): nothing where it is disabled; else the oscillator and the envelope
step, and prevOut changes in the feedback variant only. -/
theorem opStep_cases (T : Rom) (P : Memory) (i : Fin 6) (pm pmod amod : F32) (fb : Bool) (o : Operator) :
    (opFlag P i .enabled = false ∧ opStep T P i pm pmod amod fb o = (o, f32Zero)) ∨
    (opFlag P i .enabled = true ∧ ∃ y,
      (opStep T P i pm pmod amod fb o).1 =
        { o with
          osc := { o.osc with phase := f32Frac (f32Add o.osc.phase (f32Mul o.osc.inc pmod)) }
          env := (envStep T P i o.env).1
          prevOut := if fb then y else o.prevOut }) := by
  unfold opStep
  cases h : opFlag P i .enabled with
  | false => exact .inl ⟨rfl, by simp⟩
  | true => exact .inr ⟨rfl, _, rfl⟩

/-- R480: the delay count of a finite LFO_DELAY entry is the exact product floored; that of any other is free. -/
theorem lfoDelayTicks_of_finite {T : Rom} {P : Memory} (h : f32Finite (T.lfoDelay (globalParam P .lfoDelay)) = true) :
    lfoDelayTicks T P = f32Scaled (T.lfoDelay (globalParam P .lfoDelay)) * Config.sampleRate / 2 ^ 149 :=
  if_pos h

end Sys2Proof.Machine
end

