-- ==== Sys2Proof/Laws/Envelope.lean ====
section
/-! SUPPORT. The envelopes: what stage entry leaves alone, what one step can do, and the ranges of targets, increments and static
counts under the hardware's tables. -/

namespace Sys2Proof.Machine

/-! ## Stage entry -/

@[simp] theorem envAdvance_level (T : Rom) (P : Memory) (i : Fin 6) (st : Stage) (e : Envelope) :
    (envAdvance T P i st e).level = e.level := by unfold envAdvance; split <;> rfl

@[simp] theorem envAdvance_stage (T : Rom) (P : Memory) (i : Fin 6) (st : Stage) (e : Envelope) :
    (envAdvance T P i st e).stage = st := by unfold envAdvance; split <;> rfl

@[simp] theorem envAdvance_keyDown (T : Rom) (P : Memory) (i : Fin 6) (st : Stage) (e : Envelope) :
    (envAdvance T P i st e).keyDown = e.keyDown := by unfold envAdvance; split <;> rfl

@[simp] theorem envAdvance_armed (T : Rom) (P : Memory) (i : Fin 6) (st : Stage) (e : Envelope) :
    (envAdvance T P i st e).armed = e.armed := by unfold envAdvance; split <;> rfl

@[simp] theorem envAdvance_rsDelta (T : Rom) (P : Memory) (i : Fin 6) (st : Stage) (e : Envelope) :
    (envAdvance T P i st e).rsDelta = e.rsDelta := by unfold envAdvance; split <;> rfl

@[simp] theorem envAdvance_idle (T : Rom) (P : Memory) (i : Fin 6) (e : Envelope) :
    envAdvance T P i .idle e = { e with stage := .idle } := rfl

@[simp] theorem peAdvance_level (T : Rom) (P : Memory) (st : Stage) (p : PitchEnvelope) :
    (peAdvance T P st p).level = p.level := by unfold peAdvance; split <;> rfl

@[simp] theorem peAdvance_stage (T : Rom) (P : Memory) (st : Stage) (p : PitchEnvelope) :
    (peAdvance T P st p).stage = st := by unfold peAdvance; split <;> rfl

@[simp] theorem peAdvance_keyDown (T : Rom) (P : Memory) (st : Stage) (p : PitchEnvelope) :
    (peAdvance T P st p).keyDown = p.keyDown := by unfold peAdvance; split <;> rfl

@[simp] theorem peAdvance_idle (T : Rom) (P : Memory) (p : PitchEnvelope) :
    peAdvance T P .idle p = { p with stage := .idle } := rfl

/-! ## What a step can do -/

/-- The countdown of a static pause: no pause, the pause ends and the next stage is entered, or one tick less. -/
theorem envCountdown_cases (T : Rom) (P : Memory) (i : Fin 6) (e : Envelope) :
    (e.staticCount = 0#32 ∧ envCountdown T P i e = e) ∨
    (e.staticCount ≠ 0#32 ∧ e.staticCount.toInt ≤ 1 ∧
      envCountdown T P i e = envAdvance T P i (nextStage e.stage) { e with staticCount := 0#32 }) ∨
    (1 < e.staticCount.toInt ∧ envCountdown T P i e = { e with staticCount := toI32 (e.staticCount.toInt - 1) }) := by
  unfold envCountdown
  split
  · rename_i h; exact .inl ⟨h, rfl⟩
  · rename_i h
    split
    · rename_i h'; exact .inr (.inl ⟨h, by omega, rfl⟩)
    · rename_i h'; exact .inr (.inr ⟨by omega, rfl⟩)

/-- One integration step: nothing moves, the target is reached and the next stage entered, or the level rises or falls. -/
theorem envIntegrate_cases (T : Rom) (P : Memory) (i : Fin 6) (e : Envelope) :
    ((stageMoves e.stage e.keyDown = false ∨ e.staticCount ≠ 0#32) ∧ envIntegrate T P i e = e) ∨
    (stageMoves e.stage e.keyDown = true ∧ e.staticCount = 0#32 ∧
      (e.rising = true ∧ e.target.toInt ≤ envRisen e.level.toInt e.inc.toInt ∨
        e.rising = false ∧ e.level.toInt - e.inc.toInt ≤ e.target.toInt) ∧
      envIntegrate T P i e = envAdvance T P i (nextStage e.stage) { e with level := e.target }) ∨
    (stageMoves e.stage e.keyDown = true ∧ e.staticCount = 0#32 ∧ e.rising = true ∧
      envRisen e.level.toInt e.inc.toInt < e.target.toInt ∧
      envIntegrate T P i e = { e with level := toI32 (envRisen e.level.toInt e.inc.toInt) }) ∨
    (stageMoves e.stage e.keyDown = true ∧ e.staticCount = 0#32 ∧ e.rising = false ∧
      e.target.toInt < e.level.toInt - e.inc.toInt ∧
      envIntegrate T P i e = { e with level := toI32 (e.level.toInt - e.inc.toInt) }) := by
  unfold envIntegrate
  cases hm : stageMoves e.stage e.keyDown with
  | false => exact .inl ⟨.inl rfl, by simp⟩
  | true =>
    by_cases hs : e.staticCount = 0#32
    · cases hr : e.rising with
      | true =>
        by_cases ht : e.target.toInt ≤ envRisen e.level.toInt e.inc.toInt
        · exact .inr (.inl ⟨rfl, hs, .inl ⟨rfl, ht⟩, by simp [hs, ht]⟩)
        · exact .inr (.inr (.inl ⟨rfl, hs, rfl, by omega, by simp [hs, ht]⟩))
      | false =>
        by_cases ht : e.level.toInt - e.inc.toInt ≤ e.target.toInt
        · exact .inr (.inl ⟨rfl, hs, .inr ⟨rfl, ht⟩, by simp [hs, ht]⟩)
        · exact .inr (.inr (.inr ⟨rfl, hs, rfl, by omega, by simp [hs, ht]⟩))
    · exact .inl ⟨.inr hs, by simp [hs]⟩

/-- One pitch-envelope step: nothing moves, the target is reached and the next stage entered, or the level moves by inc. -/
theorem peMove_cases (T : Rom) (P : Memory) (p : PitchEnvelope) :
    (stageMoves p.stage p.keyDown = false ∧ peMove T P p = p) ∨
    (stageMoves p.stage p.keyDown = true ∧
      (p.rising = true ∧ p.target.toInt ≤ p.level.toInt + p.inc.toInt ∨
        p.rising = false ∧ p.level.toInt - p.inc.toInt ≤ p.target.toInt) ∧
      peMove T P p = peAdvance T P (nextStage p.stage) { p with level := p.target }) ∨
    (stageMoves p.stage p.keyDown = true ∧ p.rising = true ∧ p.level.toInt + p.inc.toInt < p.target.toInt ∧
      peMove T P p = { p with level := toI32 (p.level.toInt + p.inc.toInt) }) ∨
    (stageMoves p.stage p.keyDown = true ∧ p.rising = false ∧ p.target.toInt < p.level.toInt - p.inc.toInt ∧
      peMove T P p = { p with level := toI32 (p.level.toInt - p.inc.toInt) }) := by
  unfold peMove
  cases hm : stageMoves p.stage p.keyDown with
  | false => exact .inl ⟨rfl, by simp⟩
  | true =>
    cases hr : p.rising with
    | true =>
      by_cases ht : p.target.toInt ≤ p.level.toInt + p.inc.toInt
      · exact .inr (.inl ⟨rfl, .inl ⟨rfl, ht⟩, by simp [ht]⟩)
      · exact .inr (.inr (.inl ⟨rfl, rfl, by omega, by simp [ht]⟩))
    | false =>
      by_cases ht : p.level.toInt - p.inc.toInt ≤ p.target.toInt
      · exact .inr (.inl ⟨rfl, .inr ⟨rfl, ht⟩, by simp [ht]⟩)
      · exact .inr (.inr (.inr ⟨rfl, rfl, by omega, by simp [ht]⟩))

/-! ## Ranges -/

theorem opParam_le (P : Memory) (i : Fin 6) (f : OpField) : opParam P i f ≤ opMax f := Nat.min_le_right ..

theorem globalParam_le (P : Memory) (f : GlobalField) : globalParam P f ≤ globalMax f := Nat.min_le_right ..

theorem rom_levelLut_le (k : Nat) : rom.levelLut k ≤ 46 := by
  by_cases h : k < 20
  · simp only [rom]; interval_cases k <;> decide
  · have : levelLutDefault[k]? = none := List.getElem?_eq_none (by simp [levelLutDefault]; omega)
    simp [rom, List.getD_eq_getElem?_getD, this]

/-- scaleOut lies in 0..127 (R300). -/
theorem scaleOut_rom_le {l : Nat} (h : l ≤ 99) : scaleOut rom l ≤ 127 := by
  unfold scaleOut
  split
  · omega
  · exact (rom_levelLut_le l).trans (by decide)

/-- actual(n) lies in [16, 3840] (R301). -/
theorem envActual_range (P : Memory) (i : Fin 6) (n : Fin 4) :
    16 ≤ envActual rom P i n ∧ envActual rom P i n ≤ 3840 := by
  have h1 := scaleOut_rom_le (opParam_le P i (.l n))
  have h2 := scaleOut_rom_le (opParam_le P i .outputLevel)
  unfold envActual
  omega

/-- A target lies in [2^20, 15 * 2^24] (R301). -/
theorem envTarget_range (P : Memory) (i : Fin 6) (n : Fin 4) :
    2 ^ 20 ≤ envTarget rom P i n ∧ envTarget rom P i n ≤ 15 * 2 ^ 24 := by
  have := envActual_range P i n
  unfold envTarget
  omega

theorem envQRate_le (P : Memory) (i : Fin 6) (d : BitVec 32) (n : Fin 4) : envQRate P i d n ≤ 63 := by
  unfold envQRate
  omega

/-- An increment lies in 16..917504 (R303). -/
theorem envIncOf_range {q : Nat} (h : q ≤ 63) : 16 ≤ envIncOf q ∧ envIncOf q ≤ 917504 := by
  interval_cases q <;> decide

/-- A pitch target lies in [-2^26, 127 * 2^19] (R351). -/
theorem peTarget_range (P : Memory) (n : Fin 4) :
    -2 ^ 26 ≤ peTarget rom P n ∧ peTarget rom P n ≤ 127 * 2 ^ 19 := by
  have h : -128 ≤ rom.pitchenvTab (globalParam P (.pl n)) ∧ rom.pitchenvTab (globalParam P (.pl n)) ≤ 127 := by
    simp only [rom]
    split
    · decide
    · split
      · decide
      · split
        · decide
        · have h1 := BitVec.toInt_lt (x := Config.pitchenvTabOpen (globalParam P (.pl n)))
          have h2 := BitVec.le_toInt (x := Config.pitchenvTabOpen (globalParam P (.pl n)))
          simp only [show 8 - 1 = 7 by rfl] at h1 h2
          omega
  unfold peTarget
  omega

/-- A pitch increment is below 2^27 (R362). -/
theorem peInc_lt (P : Memory) (n : Fin 4) : peInc rom P n < 2 ^ 27 := by
  have h := (Config.pitchenvRateOpen (globalParam P (.pr n))).isLt
  simp only [peInc, rom, Config.sampleRate]
  omega

end Sys2Proof.Machine
end

