-- ==== Sys2Proof/Laws/Float.lean ====
section
/-! SUPPORT. Binary32: packing and unpacking, and the order of the non-negative values. -/

namespace Sys2Proof.Machine

theorem f32Bits_lt (x : F32) : f32Bits x < 2 ^ 31 := Nat.mod_lt _ (by decide)

/-- The 31 bits of a packed value are the bits it was packed from. -/
theorem f32Bits_pack (neg : Bool) {b : Nat} (h : b < 2 ^ 31) : f32Bits (f32Pack neg b) = b := by
  cases neg <;> simp only [f32Bits, f32Pack, BitVec.toNat_ofNat, if_true, Bool.false_eq_true, if_false] <;> omega

theorem f32Pack_false_toNat {b : Nat} (h : b < 2 ^ 31) : (f32Pack false b).toNat = b := by
  simp only [f32Pack, BitVec.toNat_ofNat, Bool.false_eq_true, if_false]
  omega

/-- Rounding never gives more than the infinity's bits. -/
theorem roundBits_le (num den : Nat) : roundBits num den ≤ 0x7F800000 := Nat.min_le_right ..

theorem divNearestEven_le (num den : Nat) : divNearestEven num den ≤ num / den + 1 := by
  unfold divNearestEven
  split <;> omega

theorem le_divNearestEven (num den : Nat) : num / den ≤ divNearestEven num den := by
  unfold divNearestEven
  split <;> omega

end Sys2Proof.Machine
end

