-- ==== Sys2Proof/Laws/Finite.lean ====
section
/-! SUPPORT. Boundedness (spec/60_exceptions.md R636): rounding never passes a binary32 that bounds the exact value, so bounds carry from
the tables through every operation of a tick to the sample. A bound on a magnitude is a bound on the 31 bits below the
sign; 0x3F800000 is 1.0, and each 0x00800000 more doubles it. -/

namespace Sys2Proof.Machine

/-! ## Rounding -/

/-- A quotient that is at most an integer rounds to at most that integer. -/
theorem divNearestEven_le_of_le {num den k : Nat} (hd : 0 < den) (h : num ≤ k * den) : divNearestEven num den ≤ k := by
  have hq : num / den ≤ k := (Nat.div_le_iff_le_mul_add_pred hd).mpr (by rw [Nat.mul_comm]; omega)
  rcases Nat.lt_or_eq_of_le hq with hq | hq
  · exact (divNearestEven_le num den).trans hq
  · have hm : num % den = 0 := by
      have := Nat.div_add_mod num den
      rw [hq, Nat.mul_comm] at this
      omega
    have : ¬ (den < 2 * (num % den) || (2 * (num % den) == den && num / den % 2 == 1)) = true := by
      rw [hm]; simp; omega
    rw [divNearestEven, if_neg this, hq]

/-- The magnitudes are ordered as their bits. -/
theorem magOfBits_mono {a b : Nat} (h : a ≤ b) : magOfBits a ≤ magOfBits b := by
  unfold magOfBits
  have hd : a / 2 ^ 23 ≤ b / 2 ^ 23 := Nat.div_le_div_right h
  by_cases ha : a < 2 ^ 23
  · rw [if_pos ha]
    by_cases hb : b < 2 ^ 23
    · rw [if_pos hb]; exact h
    · rw [if_neg hb]
      exact le_trans (by omega) (Nat.le_mul_of_pos_right _ (by positivity))
  · rw [if_neg ha, if_neg (by omega)]
    rcases Nat.lt_or_eq_of_le hd with hlt | heq
    · have hp : 2 ^ (a / 2 ^ 23 - 1) * 2 ≤ 2 ^ (b / 2 ^ 23 - 1) := by
        rw [← Nat.pow_succ]
        exact Nat.pow_le_pow_right (by decide) (by omega)
      calc (2 ^ 23 + a % 2 ^ 23) * 2 ^ (a / 2 ^ 23 - 1)
          ≤ (2 ^ 23 * 2) * 2 ^ (a / 2 ^ 23 - 1) := Nat.mul_le_mul_right _ (by omega)
        _ = 2 ^ 23 * (2 ^ (a / 2 ^ 23 - 1) * 2) := by ring
        _ ≤ (2 ^ 23 + b % 2 ^ 23) * 2 ^ (b / 2 ^ 23 - 1) := Nat.mul_le_mul (by omega) hp
    · rw [heq]
      exact Nat.mul_le_mul_right _ (by omega)

/-- The rounding of a value that is at most a binary32 magnitude is at most that magnitude. -/
theorem roundBits_le_of_le {num den b : Nat} (hd : 0 < den) (h : num ≤ magOfBits b * den) : roundBits num den ≤ b := by
  refine (Nat.min_le_left _ _).trans ?_
  have hq : num / den ≤ magOfBits b := Nat.div_le_of_le_mul (by rw [Nat.mul_comm]; exact h)
  have hlog : ∀ n, num / den < 2 ^ (n + 1) → Nat.log2 (num / den) ≤ n := by
    intro n hn
    by_cases h0 : num / den = 0
    · simp [h0]
    · exact Nat.lt_succ_iff.mp ((Nat.log2_lt h0).mpr hn)
  unfold magOfBits at h hq
  by_cases hb : b < 2 ^ 23
  · rw [if_pos hb] at h hq
    have hl : lastPlace num den = 0 := by
      have := hlog 22 (by omega)
      unfold lastPlace
      omega
    rw [hl]
    have := divNearestEven_le_of_le hd h
    simpa using this
  · rw [if_neg hb] at h hq
    obtain ⟨k, hk⟩ : ∃ k, b / 2 ^ 23 = k + 1 := ⟨b / 2 ^ 23 - 1, by omega⟩
    rw [hk, Nat.add_sub_cancel] at h hq
    have hbk : b = (k + 1) * 2 ^ 23 + b % 2 ^ 23 := by omega
    have hl : Nat.log2 (num / den) ≤ k + 23 := by
      refine hlog _ (lt_of_le_of_lt hq ?_)
      calc (2 ^ 23 + b % 2 ^ 23) * 2 ^ k < 2 ^ 24 * 2 ^ k := by
            exact Nat.mul_lt_mul_of_pos_right (by omega) (by positivity)
        _ = 2 ^ (k + 23 + 1) := by ring
    have hlp : lastPlace num den ≤ k := by unfold lastPlace; omega
    rcases Nat.lt_or_eq_of_le hlp with hlt | heq
    · have hs : num ≤ 2 ^ 24 * (den * 2 ^ lastPlace num den) := by
        have h1 : num / den < 2 ^ (lastPlace num den + 24) :=
          lt_of_lt_of_le Nat.lt_log2_self (Nat.pow_le_pow_right (by decide) (by unfold lastPlace; omega))
        have h2 := (Nat.div_lt_iff_lt_mul hd).mp h1
        calc num ≤ 2 ^ (lastPlace num den + 24) * den := h2.le
          _ = 2 ^ 24 * (den * 2 ^ lastPlace num den) := by ring
      have := divNearestEven_le_of_le (Nat.mul_pos hd (by positivity)) hs
      omega
    · have hs : num ≤ (2 ^ 23 + b % 2 ^ 23) * (den * 2 ^ lastPlace num den) := by
        rw [heq]
        calc num ≤ (2 ^ 23 + b % 2 ^ 23) * 2 ^ k * den := h
          _ = (2 ^ 23 + b % 2 ^ 23) * (den * 2 ^ k) := by ring
      have := divNearestEven_le_of_le (Nat.mul_pos hd (by positivity)) hs
      omega

/-! ## Operations -/

theorem f32Finite_of_le {x : F32} {b : Nat} (h : f32Bits x ≤ b) (hb : b < 0x7F800000) : f32Finite x = true := by
  simp only [f32Finite, decide_eq_true_eq]
  omega

theorem natAbs_f32Scaled (x : F32) : (f32Scaled x).natAbs = magOfBits (f32Bits x) := by
  unfold f32Scaled
  split <;> simp

theorem natAbs_f32Scaled_le {x : F32} {b : Nat} (h : f32Bits x ≤ b) : (f32Scaled x).natAbs ≤ magOfBits b := by
  rw [natAbs_f32Scaled]
  exact magOfBits_mono h

theorem f32Bits_neg (x : F32) : f32Bits (f32Neg x) = f32Bits x := by
  simp only [f32Bits, f32Neg, BitVec.toNat_xor, BitVec.toNat_ofNat]
  rw [show (0x80000000 % 2 ^ 32 : Nat) = 2 ^ 31 by decide, Nat.xor_mod_two_pow]
  simp

theorem f32OfScaled_le {n : Int} {c : Nat} (h : n.natAbs ≤ magOfBits c) (hc : c < 2 ^ 31) : f32Bits (f32OfScaled n) ≤ c := by
  have hr : roundBits n.natAbs 1 ≤ c := roundBits_le_of_le Nat.one_pos (by simpa using h)
  rw [f32OfScaled, f32Bits_pack _ (lt_of_le_of_lt hr hc)]
  exact hr

theorem f32OfRat_le {n : Int} {d c : Nat} (hd : 0 < d) (h : n.natAbs * 2 ^ 149 ≤ magOfBits c * d) (hc : c < 2 ^ 31) :
    f32Bits (f32OfRat n d) ≤ c := by
  have hr := roundBits_le_of_le hd h
  rw [f32OfRat, f32Bits_pack _ (lt_of_le_of_lt hr hc)]
  exact hr

theorem f32Add_le {x y : F32} {a b c : Nat} (hx : f32Bits x ≤ a) (hy : f32Bits y ≤ b) (ha : a < 0x7F800000)
    (hb : b < 0x7F800000) (hc : c < 2 ^ 31) (h : magOfBits a + magOfBits b ≤ magOfBits c) : f32Bits (f32Add x y) ≤ c := by
  have h1 := natAbs_f32Scaled_le hx
  have h2 := natAbs_f32Scaled_le hy
  rw [f32Add, if_pos (by rw [f32Finite_of_le hx ha, f32Finite_of_le hy hb]; rfl)]
  split
  · rw [f32Bits_pack _ (by decide)]; exact Nat.zero_le _
  · exact f32OfScaled_le (by omega) hc

theorem f32Sub_le {x y : F32} {a b c : Nat} (hx : f32Bits x ≤ a) (hy : f32Bits y ≤ b) (ha : a < 0x7F800000)
    (hb : b < 0x7F800000) (hc : c < 2 ^ 31) (h : magOfBits a + magOfBits b ≤ magOfBits c) : f32Bits (f32Sub x y) ≤ c := by
  have h1 := natAbs_f32Scaled_le hx
  have h2 := natAbs_f32Scaled_le hy
  rw [f32Sub, if_pos (by rw [f32Finite_of_le hx ha, f32Finite_of_le hy hb]; rfl)]
  split
  · rw [f32Bits_pack _ (by decide)]; exact Nat.zero_le _
  · exact f32OfScaled_le (by omega) hc

theorem f32Mul_le {x y : F32} {a b c : Nat} (hx : f32Bits x ≤ a) (hy : f32Bits y ≤ b) (ha : a < 0x7F800000)
    (hb : b < 0x7F800000) (hc : c < 2 ^ 31) (h : magOfBits a * magOfBits b ≤ magOfBits c * 2 ^ 149) :
    f32Bits (f32Mul x y) ≤ c := by
  have hr := roundBits_le_of_le (b := c) (by positivity)
    ((Nat.mul_le_mul (magOfBits_mono hx) (magOfBits_mono hy)).trans h)
  rw [f32Mul, if_pos (by rw [f32Finite_of_le hx ha, f32Finite_of_le hy hb]; rfl), f32Bits_pack _ (lt_of_le_of_lt hr hc)]
  exact hr

theorem f32Div_le {x y : F32} {a b c : Nat} (hx : f32Bits x ≤ a) (hy : f32Bits y = b) (ha : a < 0x7F800000)
    (hb : b < 0x7F800000) (hb0 : 0 < magOfBits b) (hc : c < 2 ^ 31) (h : magOfBits a * 2 ^ 149 ≤ magOfBits c * magOfBits b) :
    f32Bits (f32Div x y) ≤ c := by
  have h0 : b ≠ 0 := fun e => by subst e; exact absurd hb0 (by decide)
  have hr := roundBits_le_of_le (b := c) hb0 ((Nat.mul_le_mul_right _ (magOfBits_mono hx)).trans h)
  rw [f32Div, hy, if_pos, f32Bits_pack _ (lt_of_le_of_lt hr hc)]
  · exact hr
  · rw [f32Finite_of_le hx ha, f32Finite_of_le (Nat.le_of_eq hy) hb]
    simpa using h0

theorem f32Sign_pack_false {b : Nat} (h : b < 2 ^ 31) : f32Sign (f32Pack false b) = false := by
  rw [f32Sign, BitVec.msb_eq_decide, f32Pack_false_toNat h]
  simpa using h

theorem f32Scaled_nonneg {x : F32} (h : f32Sign x = false) : 0 ≤ f32Scaled x := by
  rw [f32Scaled, h]
  simp

/-- A non-negative exact sum gives a value without the sign bit, but for two negative zeros. -/
theorem f32Add_sign {x y : F32} (hx : f32Finite x = true) (hy : f32Finite y = true) (hs : f32Sign y = false)
    (h : 0 ≤ f32Scaled x + f32Scaled y) : f32Sign (f32Add x y) = false := by
  rw [f32Add, if_pos (by rw [hx, hy]; rfl)]
  split
  · rw [hs, Bool.and_false]; exact f32Sign_pack_false (by decide)
  · rw [f32OfScaled, decide_eq_false (by omega)]
    exact f32Sign_pack_false (lt_of_le_of_lt (roundBits_le _ _) (by decide))

theorem f32Mul_sign {x y : F32} (hx : f32Finite x = true) (hy : f32Finite y = true) (h1 : f32Sign x = false)
    (h2 : f32Sign y = false) : f32Sign (f32Mul x y) = false := by
  rw [f32Mul, if_pos (by rw [hx, hy]; rfl), h1, h2]
  exact f32Sign_pack_false (lt_of_le_of_lt (roundBits_le _ _) (by decide))

/-- frac gives a value without the sign bit, at most 1.0. -/
theorem f32Frac_le (x : F32) : f32Bits (f32Frac x) ≤ 0x3F800000 ∧ f32Sign (f32Frac x) = false := by
  unfold f32Frac
  split
  · split
    · exact ⟨by decide, by decide⟩
    · have h0 : 0 ≤ f32Scaled x % 2 ^ 149 := Int.emod_nonneg _ (by decide)
      have h1 : f32Scaled x % 2 ^ 149 < 2 ^ 149 := Int.emod_lt_of_pos _ (by decide)
      refine ⟨f32OfScaled_le ?_ (by decide), ?_⟩
      · have : magOfBits 0x3F800000 = 2 ^ 149 := by decide
        omega
      · rw [f32OfScaled, decide_eq_false (by omega)]
        exact f32Sign_pack_false (lt_of_le_of_lt (roundBits_le _ _) (by decide))
  · have := (Config.fracOpen x).isLt
    refine ⟨?_, ?_⟩
    · rw [f32Bits, BitVec.toNat_ofNat]; omega
    · rw [f32Sign, BitVec.msb_eq_decide, BitVec.toNat_ofNat]
      simp
      omega

/-- An integer of at most 24 bits is exact in binary32 (R14). -/
theorem f32Scaled_ofInt {n : Nat} (hn : n < 2 ^ 24) : f32Scaled (f32OfInt n) = n * 2 ^ 149 := by
  by_cases h0 : n = 0
  · subst h0; decide
  obtain ⟨l, hl, hl', hl24⟩ : ∃ l, 2 ^ l ≤ n ∧ n < 2 ^ (l + 1) ∧ l ≤ 23 :=
    ⟨Nat.log2 n, Nat.log2_self_le h0, Nat.lt_log2_self, Nat.lt_succ_iff.mp ((Nat.log2_lt h0).mpr hn)⟩
  have hlog : Nat.log2 (n * 2 ^ 149) = l + 149 :=
    (Nat.log2_eq_iff (by positivity)).mpr ⟨by rw [Nat.pow_add]; exact Nat.mul_le_mul_right _ hl,
      by rw [show l + 149 + 1 = l + 1 + 149 by omega, Nat.pow_add]; exact Nat.mul_lt_mul_of_pos_right hl' (by positivity)⟩
  have hlp : lastPlace (n * 2 ^ 149) 1 = l + 126 := by rw [lastPlace, Nat.div_one, hlog]; omega
  have hm : n * 2 ^ 149 = n * 2 ^ (23 - l) * (1 * 2 ^ (l + 126)) := by
    rw [Nat.one_mul, Nat.mul_assoc, ← Nat.pow_add, show 23 - l + (l + 126) = 149 by omega]
  have hlo : 2 ^ 23 ≤ n * 2 ^ (23 - l) := by
    calc 2 ^ 23 = 2 ^ l * 2 ^ (23 - l) := by rw [← Nat.pow_add, show l + (23 - l) = 23 by omega]
      _ ≤ _ := Nat.mul_le_mul_right _ hl
  have hhi : n * 2 ^ (23 - l) < 2 ^ 24 := by
    calc n * 2 ^ (23 - l) < 2 ^ (l + 1) * 2 ^ (23 - l) := Nat.mul_lt_mul_of_pos_right hl' (by positivity)
      _ = 2 ^ 24 := by rw [← Nat.pow_add, show l + 1 + (23 - l) = 24 by omega]
  have hdne : divNearestEven (n * 2 ^ 149) (1 * 2 ^ (l + 126)) = n * 2 ^ (23 - l) := by
    have hd : 0 < 1 * 2 ^ (l + 126) := by positivity
    refine le_antisymm (divNearestEven_le_of_le hd hm.le) ?_
    refine le_trans (Nat.le_of_eq ?_) (le_divNearestEven _ _)
    conv_rhs => rw [hm]
    rw [Nat.mul_div_cancel _ hd]
  have hr : roundBits (n * 2 ^ 149) 1 = (l + 126) * 2 ^ 23 + n * 2 ^ (23 - l) := by
    rw [roundBits, hlp, hdne]
    omega
  have hmag : magOfBits (roundBits (n * 2 ^ 149) 1) = n * 2 ^ 149 := by
    rw [hr, magOfBits, if_neg (by omega), show ((l + 126) * 2 ^ 23 + n * 2 ^ (23 - l)) / 2 ^ 23 - 1 = l + 126 by omega,
      show 2 ^ 23 + ((l + 126) * 2 ^ 23 + n * 2 ^ (23 - l)) % 2 ^ 23 = n * 2 ^ (23 - l) by omega]
    rw [hm, Nat.one_mul]
  have hb : roundBits (n * 2 ^ 149) 1 < 2 ^ 31 := lt_of_le_of_lt (roundBits_le _ _) (by decide)
  rw [f32OfInt, f32OfRat, decide_eq_false (by omega), Int.natAbs_natCast, f32Scaled, f32Sign_pack_false hb,
    f32Bits_pack _ hb, hmag]
  simp

/-! ## Tables and look-up -/

theorem taylorNest_le (y terms a : Nat) : taylorNest y terms a ≤ 2 ^ 128 := by
  cases terms with
  | zero => exact Nat.le_refl _
  | succ n => exact Nat.sub_le _ _

/-- No entry of SINE_LUT exceeds 1.0. -/
theorem sineLut_le (k : Nat) : f32Bits (sineLut k) ≤ 0x3F800000 := by
  have hq : ∀ j, sineQuarter j ≤ 2 ^ 128 := by
    intro j
    unfold sineQuarter
    split
    · rename_i hj
      have ha : angleScaled j ≤ 2 ^ 128 := by
        unfold angleScaled piScaled
        omega
      exact Nat.div_le_of_le_mul (Nat.mul_le_mul ha (taylorNest_le _ _ _))
    · exact taylorNest_le _ _ _
  have hs : (sineScaled k).natAbs ≤ 2 ^ 128 := by
    unfold sineScaled
    have := hq (if k % 2048 ≤ 1024 then k % 2048 else 2048 - k % 2048)
    dsimp only
    split <;> simpa using this
  refine f32OfRat_le (by positivity) ?_ (by decide)
  rw [show magOfBits 0x3F800000 = 2 ^ 149 by decide, Nat.mul_comm]
  exact Nat.mul_le_mul_left _ hs

theorem rootBits_lt (q x b r : Nat) : rootBits q x b r < r + 2 ^ b := by
  induction b generalizing r with
  | zero => simp [rootBits]
  | succ b ih =>
    rw [rootBits]
    refine lt_of_lt_of_le (ih _) ?_
    rw [Nat.pow_succ]
    split <;> omega

/-- A root table's entry is at most 2^14. -/
theorem f32OfRoot_le (num den q : Nat) : f32Bits (f32OfRoot num den q) ≤ 0x46800000 := by
  have h := rootBits_lt q (num * 2 ^ (50 * q) / den) 64 0
  unfold f32OfRoot
  dsimp only
  generalize rootBits q (num * 2 ^ (50 * q) / den) 64 0 = r at h ⊢
  have hc : ∀ c, c ≤ 1 → f32Bits (f32Pack false (roundBits ((2 * r + c) * 2 ^ 149) (2 ^ 51))) ≤ 0x46800000 := by
    intro c hc
    have hr : roundBits ((2 * r + c) * 2 ^ 149) (2 ^ 51) ≤ 0x46800000 := by
      refine roundBits_le_of_le (by positivity) ?_
      rw [show magOfBits 0x46800000 = 2 ^ 14 * 2 ^ 149 by decide]
      have : 2 * r + c ≤ 2 ^ 14 * 2 ^ 51 := by omega
      calc (2 * r + c) * 2 ^ 149 ≤ 2 ^ 14 * 2 ^ 51 * 2 ^ 149 := Nat.mul_le_mul_right _ this
        _ = 2 ^ 14 * 2 ^ 149 * 2 ^ 51 := by ring
    rw [f32Bits_pack _ (lt_of_le_of_lt hr (by decide))]
    exact hr
  split
  · exact hc 0 (by decide)
  · exact hc 1 (by decide)

/-- The fraction of a table position above an index at most one below it lies in [0, 1]. -/
theorem lutFraction_le {pos : F32} {i : Nat} (hp : f32Finite pos = true) (hi : i < 2 ^ 24) (h0 : i * 2 ^ 149 ≤ f32Scaled pos)
    (h1 : f32Scaled pos ≤ (i + 1) * 2 ^ 149) : f32Bits (f32Sub pos (f32OfInt i)) ≤ 0x3F800000 := by
  have hs := f32Scaled_ofInt hi
  have hf : f32Finite (f32OfInt i) = true := by
    refine f32Finite_of_le (b := 0x4B800000) (f32OfRat_le (by decide) ?_ (by decide)) (by decide)
    rw [show magOfBits 0x4B800000 = 2 ^ 24 * 2 ^ 149 by decide, Int.natAbs_natCast]
    omega
  rw [f32Sub, if_pos (by rw [hp, hf]; rfl)]
  split
  · rw [f32Bits_pack _ (by decide)]; exact Nat.zero_le _
  · refine f32OfScaled_le ?_ (by decide)
    rw [show magOfBits 0x3F800000 = 2 ^ 149 by decide, hs]
    omega

/-- An interpolation between two entries of one bound, by a fraction of at most 1.0. -/
theorem interpolate_le {a b fr : F32} {e : Nat} (ha : f32Bits a ≤ 0x3F800000 + e * 2 ^ 23)
    (hb : f32Bits b ≤ 0x3F800000 + e * 2 ^ 23) (hf : f32Bits fr ≤ 0x3F800000) (he : e ≤ 100) :
    f32Bits (interpolate a b fr) ≤ 0x3F800000 + (e + 2) * 2 ^ 23 := by
  have hm : ∀ k, k ≤ 102 → magOfBits (0x3F800000 + k * 2 ^ 23) = 2 ^ (k + 149) := by
    intro k hk
    rw [magOfBits, if_neg (by omega), show (0x3F800000 + k * 2 ^ 23) / 2 ^ 23 - 1 = k + 126 by omega,
      show 2 ^ 23 + (0x3F800000 + k * 2 ^ 23) % 2 ^ 23 = 2 ^ 23 by omega, ← Nat.pow_add]
    congr 1
    omega
  have hp1 : 2 ^ (e + 1 + 149) = 2 * 2 ^ (e + 149) := by ring
  have hp2 : 2 ^ (e + 2 + 149) = 4 * 2 ^ (e + 149) := by ring
  have h1 : f32Bits (f32Sub b a) ≤ 0x3F800000 + (e + 1) * 2 ^ 23 :=
    f32Sub_le hb ha (by omega) (by omega) (by omega)
      (by rw [hm e (by omega), hm (e + 1) (by omega), hp1]; omega)
  have h2 : f32Bits (f32Mul fr (f32Sub b a)) ≤ 0x3F800000 + (e + 1) * 2 ^ 23 :=
    f32Mul_le hf h1 (by decide) (by omega) (by omega)
      (by rw [show magOfBits 0x3F800000 = 2 ^ 149 by decide, Nat.mul_comm])
  refine f32Add_le ha h2 (by omega) (by omega) (by omega) ?_
  rw [hm e (by omega), hm (e + 1) (by omega), hm (e + 2) (by omega), hp1, hp2]
  omega

/-- lut_sin lies within [-4, 4] for every argument (crudely; R253). -/
theorem lutSin_le (p : F32) : f32Bits (lutSin p) ≤ 0x40800000 := by
  obtain ⟨hq, hqs⟩ := f32Frac_le p
  have hk : f32Bits (f32OfInt 4096) = 0x45800000 := by decide
  have hp : f32Bits (f32Mul (f32Frac p) (f32OfInt 4096)) ≤ 0x45800000 :=
    f32Mul_le hq hk.le (by decide) (by decide) (by decide) (by decide)
  have hps : f32Sign (f32Mul (f32Frac p) (f32OfInt 4096)) = false :=
    f32Mul_sign (f32Finite_of_le hq (by decide)) (by decide) hqs (by decide)
  unfold lutSin
  dsimp only
  generalize f32Mul (f32Frac p) (f32OfInt 4096) = pos at hp hps ⊢
  have hfin := f32Finite_of_le hp (by decide)
  have h0 := f32Scaled_nonneg hps
  have h1 := natAbs_f32Scaled_le hp
  rw [show magOfBits 0x45800000 = 2 ^ 161 by decide] at h1
  refine interpolate_le (e := 0) (sineLut_le _) (sineLut_le _) ?_ (by decide)
  have hfl : f32Floor pos = f32Scaled pos / 2 ^ 149 := if_pos hfin
  refine lutFraction_le hfin ?_ ?_ ?_ <;> rw [hfl] <;> omega

/-- The clamp of R256: an argument within [-20, EXP2_XMAX]. -/
theorem exp2Clamp_range {x : F32} (h : f32IsNaN x = false) :
    f32Finite (exp2Clamp x) = true ∧ -20 * 2 ^ 149 ≤ f32Scaled (exp2Clamp x) ∧ f32Scaled (exp2Clamp x) ≤ 10 * 2 ^ 149 := by
  unfold exp2Clamp
  split
  · decide
  · split
    · decide
    · rename_i h1 h2
      have e1 : f32Order (f32OfInt (-20)) = -(0x41A00000 : Int) := by decide
      have e2 : f32Order exp2Xmax = (0x411FFFFF : Int) := by decide
      have n1 : f32IsNaN (f32OfInt (-20)) = false := by decide
      have n2 : f32IsNaN exp2Xmax = false := by decide
      simp only [f32Lt, h, n1, n2, e1, e2, Bool.not_false, Bool.true_and, decide_eq_true_eq, not_lt] at h1 h2
      have m1 : magOfBits 0x41A00000 = 20 * 2 ^ 149 := by decide
      have m2 : magOfBits 0x411FFFFF ≤ 10 * 2 ^ 149 := by decide
      unfold f32Order at h1 h2
      unfold f32Scaled f32Finite
      cases hs : f32Sign x with
      | true =>
        simp only [hs, if_true] at h1 h2
        have hb : f32Bits x ≤ 0x41A00000 := by omega
        have := magOfBits_mono hb
        exact ⟨by rw [decide_eq_true_eq]; omega, by simp only [if_true]; omega, by simp only [if_true]; omega⟩
      | false =>
        simp only [hs, Bool.false_eq_true, if_false] at h1 h2
        have hb : f32Bits x ≤ 0x411FFFFF := by omega
        have := magOfBits_mono hb
        exact ⟨by rw [decide_eq_true_eq]; omega, by simp only [Bool.false_eq_true, if_false]; omega,
          by simp only [Bool.false_eq_true, if_false]; omega⟩

/-- lut_exp2 is at most 2^16 for every argument (crudely; R256, R257). -/
theorem lutExp2_le (x : F32) : f32Bits (lutExp2 x) ≤ 0x47800000 := by
  unfold lutExp2
  split
  · have := (Config.exp2Open x).isLt
    rw [f32Bits, BitVec.toNat_ofNat]
    omega
  · rename_i hn
    split
    · decide
    · obtain ⟨hf, hlo, hhi⟩ := exp2Clamp_range (by simpa using hn)
      dsimp only
      unfold exp2Pos
      generalize exp2Clamp x = c at hf hlo hhi ⊢
      have h20 : f32Finite (f32OfInt 20) = true ∧ f32Sign (f32OfInt 20) = false ∧ f32Scaled (f32OfInt 20) = 20 * 2 ^ 149 := by
        decide
      have ht : f32Bits (f32Add c (f32OfInt 20)) ≤ 0x41F00000 := by
        rw [f32Add, if_pos (by rw [hf, h20.1]; rfl)]
        split
        · rw [f32Bits_pack _ (by decide)]; exact Nat.zero_le _
        · refine f32OfScaled_le ?_ (by decide)
          rw [h20.2.2, show magOfBits 0x41F00000 = 30 * 2 ^ 149 by decide]
          omega
      have hts : f32Sign (f32Add c (f32OfInt 20)) = false :=
        f32Add_sign hf h20.1 h20.2.1 (by rw [h20.2.2]; omega)
      have hp : f32Bits (f32Mul (f32Add c (f32OfInt 20)) (f32OfRat 273 2)) ≤ 0x457FF000 :=
        f32Mul_le (b := 0x43088000) ht (by decide) (by decide) (by decide) (by decide) (by decide)
      have hps : f32Sign (f32Mul (f32Add c (f32OfInt 20)) (f32OfRat 273 2)) = false :=
        f32Mul_sign (f32Finite_of_le ht (by decide)) (by decide) hts (by decide)
      generalize f32Mul (f32Add c (f32OfInt 20)) (f32OfRat 273 2) = pos at hp hps ⊢
      have hfin := f32Finite_of_le hp (by decide)
      have h0 := f32Scaled_nonneg hps
      have h1 := natAbs_f32Scaled_le hp
      rw [show magOfBits 0x457FF000 = 4095 * 2 ^ 149 by decide] at h1
      have hfl : f32Floor pos = f32Scaled pos / 2 ^ 149 := if_pos hfin
      refine interpolate_le (e := 14) (f32OfRoot_le _ _ _) (f32OfRoot_le _ _ _) ?_ (by decide)
      refine lutFraction_le hfin ?_ ?_ ?_ <;> rw [hfl] <;> omega

/-! ## Waveforms, envelopes, operators -/

/-- Every waveform value at a phase of at most one cycle lies within [-8, 8] (crudely; R262). -/
theorem tri_le {p : F32} (h : f32Bits p ≤ 0x3F800000) : f32Bits (tri p) ≤ 0x41000000 := by
  have h4 : f32Bits (f32Mul (f32OfInt 4) p) ≤ 0x40800000 :=
    f32Mul_le (a := 0x40800000) (by decide) h (by decide) (by decide) (by decide) (by decide)
  unfold tri
  split
  · exact f32Sub_le (b := 0x3F800000) h4 (by decide) (by decide) (by decide) (by decide) (by decide)
  · exact f32Sub_le (a := 0x40400000) (by decide) h4 (by decide) (by decide) (by decide) (by decide)

theorem saw_le {p : F32} (h : f32Bits p ≤ 0x3F800000) : f32Bits (saw p) ≤ 0x41000000 := by
  have h2 : f32Bits (f32Mul (f32OfInt 2) p) ≤ 0x40000000 :=
    f32Mul_le (a := 0x40000000) (by decide) h (by decide) (by decide) (by decide) (by decide)
  exact f32Sub_le (b := 0x3F800000) h2 (by decide) (by decide) (by decide) (by decide) (by decide)

theorem square_le (p : F32) : f32Bits (square p) ≤ 0x41000000 := by
  unfold square
  split <;> decide

theorem wave_le (w : Nat) {p : F32} (h : f32Bits p ≤ 0x3F800000) : f32Bits (wave w p) ≤ 0x41000000 := by
  unfold wave
  split
  · exact (lutSin_le p).trans (by decide)
  · exact tri_le h
  · rw [f32Bits_neg]; exact saw_le h
  · exact saw_le h
  · exact square_le p

theorem lfoWave_le (w : Nat) {p : F32} (h : f32Bits p ≤ 0x3F800000) : f32Bits (lfoWave w p) ≤ 0x41000000 := by
  unfold lfoWave
  split
  · exact tri_le h
  · rw [f32Bits_neg]; exact saw_le h
  · exact saw_le h
  · exact square_le p
  · exact (lutSin_le p).trans (by decide)

theorem envGain_le (P : Memory) (i : Fin 6) (e : Envelope) : f32Bits (envGain P i e) ≤ 0x47800000 := by
  unfold envGain
  split
  · decide
  · split
    · decide
    · exact lutExp2_le _

/-- A small integer operand (R14). -/
theorem f32OfNat_le {n c : Nat} (h : n * 2 ^ 149 ≤ magOfBits c) (hc : c < 2 ^ 31) : f32Bits (f32OfInt (n : Int)) ≤ c :=
  f32OfRat_le Nat.one_pos (by simpa using h) hc

/-- The amplitude-modulation amount of a waveform value within [-8, 8] is at most 16 (crudely; R477). -/
theorem lfoAmpMod_le (P : Memory) {value : F32} (h : f32Bits value ≤ 0x41000000) : f32Bits (lfoAmpMod P value) ≤ 0x41800000 := by
  have h1 : f32Bits (f32Mul value f32Half) ≤ 0x40800000 :=
    f32Mul_le (b := 0x3F000000) h (by decide) (by decide) (by decide) (by decide) (by decide)
  have h2 : f32Bits (f32Add (f32Mul value f32Half) f32Half) ≤ 0x41000000 :=
    f32Add_le (b := 0x3F000000) h1 (by decide) (by decide) (by decide) (by decide) (by decide)
  have hd : f32Bits (f32OfInt (globalParam P .lfoAmd)) ≤ 0x42C60000 := by
    refine f32OfNat_le ?_ (by decide)
    have : globalParam P .lfoAmd ≤ 99 := Nat.min_le_right ..
    rw [show magOfBits 0x42C60000 = 99 * 2 ^ 149 by decide]
    exact Nat.mul_le_mul_right _ this
  have h3 : f32Bits (f32Mul (f32Add (f32Mul value f32Half) f32Half) (f32OfInt (globalParam P .lfoAmd))) ≤ 0x44800000 :=
    f32Mul_le h2 hd (by decide) (by decide) (by decide) (by decide)
  exact f32Div_le (b := 0x42C60000) h3 (by decide) (by decide) (by decide) (by decide) (by decide) (by decide)

theorem ampFactor_le (P : Memory) (i : Fin 6) {ampMod : F32} (h : f32Bits ampMod ≤ 0x41800000) :
    f32Bits (ampFactor P i ampMod) ≤ 0x42800000 := by
  have hs : f32Bits (f32OfInt (opParam P i .ampModSens)) ≤ 0x40400000 := by
    refine f32OfNat_le ?_ (by decide)
    have : opParam P i .ampModSens ≤ 3 := Nat.min_le_right ..
    rw [show magOfBits 0x40400000 = 3 * 2 ^ 149 by decide]
    exact Nat.mul_le_mul_right _ this
  have h1 : f32Bits (f32Mul (f32OfInt (opParam P i .ampModSens)) invParam3) ≤ 0x40000000 :=
    f32Mul_le (b := 0x3F000000) hs (by decide) (by decide) (by decide) (by decide) (by decide)
  have h2 : f32Bits (f32Mul ampMod (f32Mul (f32OfInt (opParam P i .ampModSens)) invParam3)) ≤ 0x42000000 :=
    f32Mul_le h h1 (by decide) (by decide) (by decide) (by decide)
  exact f32Sub_le (a := 0x3F800000) (by decide) h2 (by decide) (by decide) (by decide) (by decide)

/-- An operator's step keeps its cached factors bounded, and its output is at most 2^107 (R406, with the limits of
`OperatorBounded`). -/
theorem opStep_bounded (T : Rom) (P : Memory) (i : Fin 6) (pm pmod : F32) {amod : F32} (fb : Bool) {o : Operator}
    (ho : OperatorBounded o) (ha : f32Bits amod ≤ 0x41800000) :
    OperatorBounded (opStep T P i pm pmod amod fb o).1 ∧ f32Bits (opStep T P i pm pmod amod fb o).2 ≤ 0x75000000 := by
  unfold opStep
  split
  · exact ⟨ho, show f32Bits f32Zero ≤ 0x75000000 by decide⟩
  · refine ⟨ho, ?_⟩
    dsimp only [oscStep, envStep]
    have hx := wave_le (opParam P i .waveform) (f32Frac_le (f32Add o.osc.phase (opPhaseMod P fb pm o))).1
    have hg := envGain_le P i (envIntegrate T P i (envCountdown T P i o.env))
    have h1 := f32Mul_le (c := 0x49000000) hx hg (by decide) (by decide) (by decide) (by decide)
    have h2 := f32Mul_le (c := 0x6A000000) h1 ho.1 (by decide) (by decide) (by decide) (by decide)
    have h3 := f32Mul_le (c := 0x72000000) h2 ho.2 (by decide) (by decide) (by decide) (by decide)
    exact f32Mul_le h3 (ampFactor_le P i ha) (by decide) (by decide) (by decide) (by decide)

/-- A power of two's magnitude: the bound of exponent `e` (biased) and its double. -/
theorem magOfBits_double {e : Nat} (h : 1 ≤ e) :
    magOfBits (e * 2 ^ 23) + magOfBits (e * 2 ^ 23) ≤ magOfBits ((e + 1) * 2 ^ 23) := by
  have hm : ∀ k, 1 ≤ k → magOfBits (k * 2 ^ 23) = 2 ^ 23 * 2 ^ (k - 1) := by
    intro k hk
    rw [magOfBits, if_neg (by omega), Nat.mul_div_cancel _ (by decide), Nat.mul_mod_left, Nat.add_zero]
  obtain ⟨k, rfl⟩ : ∃ k, e = k + 1 := ⟨e - 1, by omega⟩
  rw [hm _ (by omega), hm _ (by omega), Nat.add_sub_cancel, Nat.add_sub_cancel, Nat.pow_succ]
  omega

/-- A sum of two values of one bound has twice the bound. -/
theorem f32Add_le_double {x y : F32} {e : Nat} (he : 1 ≤ e) (he' : e < 255) (hx : f32Bits x ≤ e * 2 ^ 23)
    (hy : f32Bits y ≤ e * 2 ^ 23) : f32Bits (f32Add x y) ≤ (e + 1) * 2 ^ 23 :=
  f32Add_le hx hy (by omega) (by omega) (by omega) (magOfBits_double he)

/-- One turn of the pass: the operators stay bounded, and the sum at most doubles its bound. -/
theorem algTurn_bounded (T : Rom) (P : Memory) (pmod : F32) {amod : F32} (ha : f32Bits amod ≤ 0x41800000) {s : AlgPass}
    {e : Nat} (he : 234 ≤ e) (he' : e < 255) (ho : ∀ i : Fin 6, OperatorBounded s.ops[i])
    (hs : f32Bits s.out ≤ e * 2 ^ 23) (k : Fin 6) :
    (∀ i : Fin 6, OperatorBounded (algTurn T P pmod amod s k).ops[i]) ∧
      f32Bits (algTurn T P pmod amod s k).out ≤ (e + 1) * 2 ^ 23 := by
  have h := fun pm fb => opStep_bounded T P k pm pmod fb (ho k) ha
  refine ⟨fun i => ?_, ?_⟩
  · by_cases hi : i = k
    · subst hi
      simpa [algTurn] using (h _ _).1
    · rw [algTurn_ops_other T P pmod amod s hi]
      exact ho i
  · unfold algTurn
    dsimp only
    split
    · exact f32Add_le_double (by omega) he' hs ((h _ _).2.trans (by omega))
    · exact hs.trans (Nat.mul_le_mul_right _ (Nat.le_succ e))

/-- A pass over bounded operators keeps them bounded, and its output is at most 2^113 (R445, with the limits of
`OperatorBounded`). -/
theorem algStep_bounded (T : Rom) (P : Memory) (pmod : F32) {amod : F32} (ha : f32Bits amod ≤ 0x41800000)
    {ops : Vector Operator 6} (ho : ∀ i : Fin 6, OperatorBounded ops[i]) :
    (∀ i : Fin 6, OperatorBounded (algStep T P pmod amod ops).ops[i]) ∧
      f32Bits (algStep T P pmod amod ops).out ≤ 0x78000000 := by
  have hfold : ∀ (l : List (Fin 6)) (s : AlgPass) (e : Nat), 234 ≤ e → e + l.length ≤ 255 →
      (∀ i : Fin 6, OperatorBounded s.ops[i]) → f32Bits s.out ≤ e * 2 ^ 23 →
      (∀ i : Fin 6, OperatorBounded (l.foldl (algTurn T P pmod amod) s).ops[i]) ∧
        f32Bits (l.foldl (algTurn T P pmod amod) s).out ≤ (e + l.length) * 2 ^ 23 := by
    intro l
    induction l with
    | nil => exact fun s e _ _ ho hs => ⟨ho, hs⟩
    | cons k l ih =>
      intro s e he hl ho hs
      rw [List.length_cons] at hl
      obtain ⟨h1, h2⟩ := algTurn_bounded T P pmod ha he (by omega) ho hs k
      have := ih _ (e + 1) (by omega) (by omega) h1 h2
      rw [List.length_cons, show e + (l.length + 1) = e + 1 + l.length by omega]
      exact this
  exact hfold evaluationOrder _ 234 (by decide) (by decide) ho (show f32Bits f32Zero ≤ 234 * 2 ^ 23 by decide)

/-! ## The LFO, the tick and every step -/

/-- The held value of the sample-and-hold is at most 1.0 in magnitude (R475). -/
theorem shRefresh_held_le (L : Lfo) : f32Bits (shRefresh L).held ≤ 0x3F800000 := by
  refine f32OfRat_le (by decide) ?_ (by decide)
  have := (xorshift32 L.prng).isLt
  rw [show magOfBits 0x3F800000 = 2 ^ 149 by decide]
  omega

/-- An LFO step keeps the held value and the phase bounded, and its amplitude amount is at most 16. -/
theorem lfoStep_bounded (T : Rom) (P : Memory) {L : Lfo} (hh : f32Bits L.held ≤ 0x3F800000)
    (hp : f32Bits L.phase ≤ 0x3F800000) :
    f32Bits (lfoStep T P L).held ≤ 0x3F800000 ∧ f32Bits (lfoStep T P L).phase ≤ 0x3F800000 ∧
      f32Bits (lfoStep T P L).ampMod ≤ 0x41800000 := by
  unfold lfoStep
  split
  · exact ⟨hh, hp, show f32Bits f32Zero ≤ 0x41800000 by decide⟩
  · split
    · have hs : f32Bits (shAdvance T P L).held ≤ 0x3F800000 ∧ f32Bits (shAdvance T P L).phase ≤ 0x3F800000 := by
        unfold shAdvance
        dsimp only
        split
        · exact ⟨shRefresh_held_le _, (f32Frac_le _).1⟩
        · exact ⟨hh, (f32Frac_le _).1⟩
      exact ⟨hs.1, hs.2, lfoAmpMod_le P (hs.1.trans (by decide))⟩
    · exact ⟨hh, (f32Frac_le _).1, lfoAmpMod_le P (lfoWave_le _ hp)⟩

/-- A tick keeps the datapath's registers bounded, and its sample is finite (R636). -/
theorem tick_bounded (T : Rom) {s : State} (h : DatapathBounded s) :
    DatapathBounded (tick T s) ∧ f32Finite (tick T s).out = true := by
  cases hc : s.configured with
  | false =>
    rw [tick_unconfigured hc]
    exact ⟨⟨h.operators, h.held, h.phase⟩, show f32Finite f32Zero = true by decide⟩
  | true =>
    obtain ⟨hh, hp, ha⟩ := lfoStep_bounded T s.params h.held h.phase
    have hv : ∀ v : Fin 8, (∀ i : Fin 6, OperatorBounded (voiceTurn T s.params (lfoStep T s.params s.lfo) s.voices[v]).1.ops[i]) ∧
        ∀ y, (voiceTurn T s.params (lfoStep T s.params s.lfo) s.voices[v]).2 = some y → f32Bits y ≤ 0x78000000 := by
      intro v
      unfold voiceTurn
      split
      · have := algStep_bounded T s.params (f32Mul (peStep T s.params s.voices[v].pe).2 (lfoStep T s.params s.lfo).pitchMod)
          ha (h.operators v)
        exact ⟨this.1, fun y hy => by rw [← Option.some.inj hy]; exact this.2⟩
      · exact ⟨h.operators v, fun y hy => nomatch hy⟩
    refine ⟨⟨fun v i => ?_, ?_, ?_⟩, ?_⟩
    · rw [tick_voice hc]
      exact (hv v).1 i
    · simpa [tick, hc] using hh
    · simpa [tick, hc] using hp
    · have hfold : ∀ (l : List (Fin 8)) (acc : F32) (e : Nat), 240 ≤ e → e + l.length ≤ 254 → f32Bits acc ≤ e * 2 ^ 23 →
          f32Bits (l.foldl (fun acc v =>
            addSample acc (voiceTurn T s.params (lfoStep T s.params s.lfo) s.voices[v]).2) acc) ≤ (e + l.length) * 2 ^ 23 := by
        intro l
        induction l with
        | nil => exact fun acc e _ _ ha => ha
        | cons v l ih =>
          intro acc e he hl hacc
          rw [List.length_cons] at hl
          rw [List.length_cons, List.foldl_cons, show e + (l.length + 1) = e + 1 + l.length by omega]
          refine ih _ (e + 1) (by omega) (by omega) ?_
          cases hy : (voiceTurn T s.params (lfoStep T s.params s.lfo) s.voices[v]).2 with
          | none => exact hacc.trans (by omega)
          | some y => exact f32Add_le_double (by omega) (by omega) hacc (((hv v).2 y hy).trans (by omega))
      have hs := hfold voiceIndices f32Zero 240 (by decide) (by decide) (by decide)
      have ho : (tick T s).out = voiceIndices.foldl (fun acc v =>
          addSample acc (voiceTurn T s.params (lfoStep T s.params s.lfo) s.voices[v]).2) f32Zero := by simp [tick, hc]
      rw [ho]
      exact f32Finite_of_le hs (by decide)

/-- The velocity factor of a table within `VelTableBounded` is at most 2^66 (R396). -/
theorem velFactor_le {T : Rom} (hT : VelTableBounded T) (P : Memory) (i : Fin 6) (vel : Nat) :
    f32Bits (velFactor T P i vel) ≤ 0x60800000 := by
  have hrow : ∀ k, k < 9 → f32Bits (T.velTable (opParam P i .velSens) k) ≤ 0x5F800000 :=
    fun k hk => hT _ _ (Nat.lt_succ_iff.mpr (Nat.min_le_right ..)) hk
  have hint : ∀ (l : List Nat) (vv k : Nat), k + l.length ≤ 9 →
      (∀ hi ∈ l.head?, vv ≤ hi) → f32Bits (velInterpolate (T.velTable (opParam P i .velSens)) vv k l) ≤ 0x60800000 := by
    intro l
    induction l with
    | nil => exact fun vv k _ _ => (hrow 8 (by decide)).trans (by decide)
    | cons hi l ih =>
      intro vv k hk hvv
      rw [List.length_cons] at hk
      have hle : vv ≤ hi := hvv hi rfl
      cases l with
      | nil => exact (hrow k (by omega)).trans (by decide)
      | cons lo l =>
        rw [List.length_cons] at hk
        unfold velInterpolate
        split
        · exact (hrow k (by omega)).trans (by decide)
        · split
          · rename_i hlo
            have ht : f32Bits (f32OfRat ((vv : Int) - lo) (hi - lo)) ≤ 0x3F800000 := by
              refine f32OfRat_le (by omega) ?_ (by decide)
              rw [show magOfBits 0x3F800000 = 2 ^ 149 by decide, Nat.mul_comm]
              exact Nat.mul_le_mul_left _ (by omega)
            exact interpolate_le (e := 64) (hrow _ (by omega)) (hrow _ (by omega)) ht (by decide)
          · exact ih vv (k + 1) (by rw [List.length_cons]; omega) (fun h hh => by
              have : lo = h := by simpa using hh
              omega)
  exact hint velBreakpoints _ 0 (by decide) (fun h hh => by
    have : 127 = h := by simpa [velBreakpoints] using hh
    omega)

theorem opTrigger_bounded {T : Rom} (hT : VelTableBounded T) (P : Memory) (n vel : Nat) (i : Fin 6) (o : Operator) :
    OperatorBounded (opTrigger T P n vel i o) := ⟨velFactor_le hT P i vel, lutExp2_le _⟩

/-- A NOTE_ON keeps the datapath's registers bounded. -/
theorem synthNoteOn_bounded {T : Rom} (hT : VelTableBounded T) (note vel : BitVec 7) {s : State} (h : DatapathBounded s) :
    DatapathBounded (synthNoteOn T note vel s) := by
  have hstart : ∀ (v : Fin 8) {s : State}, DatapathBounded s → DatapathBounded (startNote T v note vel s) := by
    intro v s h
    refine ⟨fun w i => ?_, h.held, h.phase⟩
    by_cases hw : w = v
    · subst hw
      rw [startNote_same, voiceNoteOn_op]
      exact opTrigger_bounded hT _ _ _ _ _
    · rw [startNote_other T hw]
      exact h.operators w i
  have hlfo : ∀ {s : State}, DatapathBounded s → DatapathBounded (triggerLfo T s) :=
    fun h => ⟨h.operators, h.held, show f32Bits f32Zero ≤ 0x3F800000 by decide⟩
  have hoff : ∀ {s : State} (v : Fin 8), DatapathBounded s →
      ∀ i : Fin 6, OperatorBounded (voiceNoteOff T s.params s.voices[v]).ops[i] := by
    intro s v h i
    rw [voiceNoteOff_op]
    exact h.operators v i
  rcases synthNoteOn_cases T note vel s with ⟨-, e⟩ | ⟨-, f, -, ⟨-, e⟩ | ⟨-, e⟩⟩ | ⟨-, -, e⟩ <;> rw [e]
  · refine hstart 0 (hlfo ⟨fun v i => ?_, h.held, h.phase⟩)
    rw [releaseAll_voice]
    exact hoff v h i
  · exact hlfo (hstart f h)
  · exact hstart f h
  · refine hstart _ ⟨fun v i => ?_, h.held, h.phase⟩
    by_cases hv : v = oldestVoice s
    · subst hv
      rw [updateVoice_same]
      exact hoff _ h i
    · rw [updateVoice_other hv]
      exact h.operators v i

theorem synthNoteOff_bounded (T : Rom) (note : BitVec 7) {s : State} (h : DatapathBounded s) :
    DatapathBounded (synthNoteOff T note s) := by
  rcases synthNoteOff_cases T note s with ⟨v, -, e⟩ | ⟨-, e⟩ <;> rw [e]
  · refine ⟨fun w i => ?_, h.held, h.phase⟩
    by_cases hw : w = v
    · subst hw
      rw [updateVoice_same, voiceNoteOff_op]
      exact h.operators w i
    · rw [updateVoice_other hw]
      exact h.operators w i
  · exact h

/-- The model's own velocity table meets the limit. -/
theorem rom_velTableBounded : VelTableBounded rom := by
  intro s k _ _
  have h := (Config.velOpen s k).2.isLt
  show f32Bits (f32Pack _ _) ≤ _
  rw [f32Bits_pack _ (by omega)]
  omega

/-- After a reset the datapath's registers are bounded, whatever LFO_SEED is. -/
theorem reset_bounded (seed : BitVec 32) : DatapathBounded (State.resetOf seed) := by
  refine ⟨fun v i => ?_, show f32Bits 0#32 ≤ 0x3F800000 by decide, show f32Bits 0#32 ≤ 0x3F800000 by decide⟩
  have : (State.resetOf seed).voices[v].ops[i] = Operator.reset := by simp [State.resetOf, Voice.reset]
  rw [this]
  exact ⟨by decide, by decide⟩

/-- R636 over whole runs: every step keeps the datapath's registers bounded and the last sample finite, so every tick returns a
finite value. -/
theorem step_bounded {s t : State} (h : DatapathBounded s) (ho : f32Finite s.out = true) (hs : step s = .next t) :
    DatapathBounded t ∧ f32Finite t.out = true := by
  have hsame : ∀ u : State, u.voices = s.voices → u.lfo = s.lfo → u.out = s.out →
      DatapathBounded u ∧ f32Finite u.out = true := by
    intro u hv hl hu
    rw [hu]
    exact ⟨⟨by rw [hv]; exact h.operators, by rw [hl]; exact h.held, by rw [hl]; exact h.phase⟩, ho⟩
  have hev : ∀ rest : List Event, DatapathBounded { s with events := rest } :=
    fun rest => ⟨h.operators, h.held, h.phase⟩
  rcases step_cases hs with ⟨-, rfl⟩ | ⟨rest, -, rfl⟩ | ⟨rest, -, rfl⟩ | ⟨w, rest, c, -, -, rfl⟩ | ⟨w, rest, i, -, -, he⟩
  · exact ⟨h, ho⟩
  · exact tick_bounded rom (hev rest)
  · have hr := reset_bounded rom.lfoSeed
    exact ⟨⟨hr.operators, hr.held, hr.phase⟩, show f32Finite 0#32 = true by decide⟩
  · exact hsame _ rfl rfl rfl
  · have hcheck : ∀ u : State, u.voices = s.voices → u.lfo = s.lfo → u.out = s.out →
        DatapathBounded (checkOperand i { s with events := rest } u) ∧
          f32Finite (checkOperand i { s with events := rest } u).out = true := by
      intro u hv hl hu
      rcases checkOperand_cases i { s with events := rest } u with ⟨c, -, e⟩ | ⟨-, e⟩ <;> rw [e]
      · exact hsame _ rfl rfl rfl
      · exact hsame u hv hl hu
    cases i with
    | noteOn note vel =>
      simp only [exec, execNoteOn] at he
      split at he <;> cases he
      · exact ⟨synthNoteOn_bounded rom_velTableBounded note vel (hev rest), by rw [synthNoteOn_out]; exact ho⟩
      · exact ⟨hev rest, ho⟩
    | noteOff note =>
      simp only [exec, execNoteOff] at he
      split at he <;> cases he
      · exact ⟨synthNoteOff_bounded rom note (hev rest), by rw [synthNoteOff_out]; exact ho⟩
      · exact ⟨hev rest, ho⟩
    | paramWrite addr data => cases he; exact hcheck _ rfl rfl rfl
    | paramRead addr => cases he; exact hcheck _ rfl rfl rfl
    | vbufWrite offset data => cases he; exact hcheck _ rfl rfl rfl
    | regRead reg => cases he; exact hcheck _ (readReg_voices _ _) (readReg_lfo _ _) (readReg_out _ _)
    | nop => cases he; exact hsame _ rfl rfl rfl
    | setAlgorithm value => cases he; exact hsame _ rfl rfl rfl
    | setFeedback value => cases he; exact hsame _ rfl rfl rfl
    | setOscKeySync b => cases he; exact hsame _ rfl rfl rfl
    | setMono b => cases he; exact hsame _ rfl rfl rfl
    | configure => cases he; exact hsame _ rfl rfl rfl
    | statusClear => cases he; exact hsame _ rfl rfl rfl
    | voiceLoad => cases he; exact hsame _ rfl rfl rfl

end Sys2Proof.Machine
end

