-- ==== Sys2Proof/Laws/Memory.lean ====
section
/-! SUPPORT. The laws of the byte stores: read after write, the canonical form and the address range kept by every write, and equal
reads make equal stores. -/

namespace Sys2Proof.Machine

@[simp] theorem Memory.read_nil (a : Nat) : Memory.read [] a = 0#8 := rfl

theorem Memory.read_of_wfAbove {low a : Nat} {m : Memory} (h : Memory.wfAbove low m = true) (ha : a ≤ low) :
    Memory.read m a = 0#8 := by
  induction m generalizing low with
  | nil => rfl
  | cons c rest ih =>
    obtain ⟨k, b⟩ := c
    simp only [Memory.wfAbove, Bool.and_eq_true, decide_eq_true_eq] at h
    obtain ⟨⟨hk, -⟩, hrest⟩ := h
    rw [Memory.read, if_neg (by omega)]
    exact ih hrest (by omega)

theorem Memory.wf_of_wfAbove {low : Nat} {m : Memory} (h : Memory.wfAbove low m = true) : Memory.wf m = true := by
  cases m with
  | nil => rfl
  | cons c rest =>
    simp only [Memory.wfAbove, Bool.and_eq_true] at h
    simp [Memory.wf, h.1.2, h.2]

theorem Memory.wfAbove_weaken {low low' : Nat} {m : Memory} (h : Memory.wfAbove low m = true) (hl : low' ≤ low) :
    Memory.wfAbove low' m = true := by
  cases m with
  | nil => rfl
  | cons c rest =>
    simp only [Memory.wfAbove, Bool.and_eq_true, decide_eq_true_eq] at h ⊢
    exact ⟨⟨by omega, h.1.2⟩, h.2⟩

theorem Memory.read_write_of_wfAbove {low : Nat} {m : Memory} (h : Memory.wfAbove low m = true) (a : Nat) (b : Byte)
    (x : Nat) : Memory.read (Memory.write m a b) x = if x = a then b else Memory.read m x := by
  induction m generalizing low with
  | nil =>
    by_cases hb : b = 0#8
    · simp [Memory.write, hb]
    · simp only [Memory.write, if_neg hb, Memory.read]
      by_cases hx : x = a
      · simp [hx]
      · simp [hx, Ne.symm hx]
  | cons c rest ih =>
    obtain ⟨k, d⟩ := c
    simp only [Memory.wfAbove, Bool.and_eq_true, decide_eq_true_eq] at h
    obtain ⟨⟨hk, hd⟩, hrest⟩ := h
    simp only [Memory.write]
    split
    · rename_i hak
      split
      · rename_i hb
        by_cases hx : x = a
        · subst hx
          rw [if_pos rfl, hb, Memory.read, if_neg (by omega)]
          exact Memory.read_of_wfAbove hrest (by omega)
        · rw [if_neg hx]
      · by_cases hx : x = a
        · simp [Memory.read, hx]
        · rw [if_neg hx, Memory.read, if_neg (Ne.symm hx)]
    · split
      · rename_i hak
        subst hak
        split
        · rename_i hb
          by_cases hx : x = a
          · subst hx
            rw [if_pos rfl, hb]
            exact Memory.read_of_wfAbove hrest (le_refl _)
          · rw [if_neg hx, Memory.read, if_neg (Ne.symm hx)]
        · by_cases hx : x = a
          · simp [Memory.read, hx]
          · rw [if_neg hx]; simp only [Memory.read, if_neg (Ne.symm hx)]
      · rename_i hak hne
        by_cases hx : k = x
        · have : x ≠ a := by omega
          rw [Memory.read, if_pos hx, if_neg this, Memory.read, if_pos hx]
        · rw [Memory.read, if_neg hx, ih hrest, Memory.read, if_neg hx]

/-- Every address but 0 is above 0; a store in canonical form behind a first entry. -/
theorem Memory.wf_cons {k : Nat} {b : Byte} {rest : Memory} :
    Memory.wf ((k, b) :: rest) = true ↔ b ≠ 0#8 ∧ Memory.wfAbove k rest = true := by
  simp [Memory.wf]

/-- What a read gives after a write, at every address. -/
theorem Memory.read_write {m : Memory} (h : Memory.wf m = true) (a : Nat) (b : Byte) (x : Nat) :
    Memory.read (Memory.write m a b) x = if x = a then b else Memory.read m x := by
  cases m with
  | nil => exact Memory.read_write_of_wfAbove (low := 0) rfl a b x
  | cons c rest =>
    obtain ⟨k, d⟩ := c
    rw [Memory.wf_cons] at h
    obtain ⟨hd, hrest⟩ := h
    simp only [Memory.write]
    split
    · split
      · rename_i hak hb
        by_cases hx : x = a
        · subst hx
          rw [if_pos rfl, hb, Memory.read, if_neg (by omega)]
          exact Memory.read_of_wfAbove hrest (by omega)
        · rw [if_neg hx]
      · by_cases hx : x = a
        · simp [Memory.read, hx]
        · rw [if_neg hx, Memory.read, if_neg (Ne.symm hx)]
    · split
      · rename_i hak
        subst hak
        split
        · rename_i hb
          by_cases hx : x = a
          · subst hx
            rw [if_pos rfl, hb]
            exact Memory.read_of_wfAbove hrest (le_refl _)
          · rw [if_neg hx, Memory.read, if_neg (Ne.symm hx)]
        · by_cases hx : x = a
          · simp [Memory.read, hx]
          · rw [if_neg hx]; simp only [Memory.read, if_neg (Ne.symm hx)]
      · by_cases hx : k = x
        · have : x ≠ a := by omega
          rw [Memory.read, if_pos hx, if_neg this, Memory.read, if_pos hx]
        · rw [Memory.read, if_neg hx, Memory.read_write_of_wfAbove hrest, Memory.read, if_neg hx]

theorem Memory.read_write_same {m : Memory} (h : Memory.wf m = true) (a : Nat) (b : Byte) :
    Memory.read (Memory.write m a b) a = b := by rw [Memory.read_write h, if_pos rfl]

/-- A write leaves every other address, in any store. -/
theorem Memory.read_write_other (m : Memory) {a x : Nat} (b : Byte) (hx : x ≠ a) :
    Memory.read (Memory.write m a b) x = Memory.read m x := by
  induction m with
  | nil =>
    unfold Memory.write
    split
    · rfl
    · simp only [Memory.read, if_neg (Ne.symm hx)]
  | cons c rest ih =>
    obtain ⟨k, d⟩ := c
    unfold Memory.write
    split
    · split
      · rfl
      · simp only [Memory.read, if_neg (Ne.symm hx)]
    · split
      · rename_i hak
        subst hak
        split <;> simp only [Memory.read, if_neg (Ne.symm hx)]
      · simp only [Memory.read, ih]

theorem Memory.wfAbove_write {low : Nat} {m : Memory} (h : Memory.wfAbove low m = true) {a : Nat} (ha : low < a)
    (b : Byte) : Memory.wfAbove low (Memory.write m a b) = true := by
  induction m generalizing low with
  | nil => by_cases hb : b = 0#8 <;> simp [Memory.write, Memory.wfAbove, hb, ha]
  | cons c rest ih =>
    obtain ⟨k, d⟩ := c
    simp only [Memory.wfAbove, Bool.and_eq_true, decide_eq_true_eq] at h
    obtain ⟨⟨hk, hd⟩, hrest⟩ := h
    simp only [Memory.write]
    split
    · split
      · simp [Memory.wfAbove, hk, hd, hrest]
      · rename_i hak hb
        simp [Memory.wfAbove, ha, hak, hb, hd, hrest]
    · split
      · rename_i hak
        subst hak
        split
        · exact Memory.wfAbove_weaken hrest (by omega)
        · rename_i hb
          simp [Memory.wfAbove, ha, hb, hrest]
      · rename_i hak hne
        simp only [Memory.wfAbove, Bool.and_eq_true, decide_eq_true_eq]
        exact ⟨⟨hk, hd⟩, ih hrest (by omega)⟩

/-- A write keeps the canonical form. -/
theorem Memory.wf_write {m : Memory} (h : Memory.wf m = true) (a : Nat) (b : Byte) :
    Memory.wf (Memory.write m a b) = true := by
  cases m with
  | nil => by_cases hb : b = 0#8 <;> simp [Memory.write, Memory.wf, Memory.wfAbove, hb]
  | cons c rest =>
    obtain ⟨k, d⟩ := c
    have hc := h
    rw [Memory.wf_cons] at h
    obtain ⟨hd, hrest⟩ := h
    simp only [Memory.write]
    split
    · split
      · exact hc
      · rename_i hak hb
        simp [Memory.wf, Memory.wfAbove, hak, hb, hd, hrest]
    · split
      · split
        · exact Memory.wf_of_wfAbove hrest
        · rename_i hak hb
          subst hak
          simp [Memory.wf, hb, hrest]
      · rw [Memory.wf_cons]
        exact ⟨hd, Memory.wfAbove_write hrest (by omega) b⟩

theorem Memory.mem_write {m : Memory} {a : Nat} {b : Byte} {c : Host.Cell} (h : c ∈ Memory.write m a b) :
    c = (a, b) ∨ c ∈ m := by
  induction m with
  | nil =>
    simp only [Memory.write] at h
    split at h
    · simp at h
    · exact .inl (by simpa using h)
  | cons d rest ih =>
    obtain ⟨k, e⟩ := d
    simp only [Memory.write] at h
    split at h
    · split at h
      · exact .inr h
      · rcases List.mem_cons.mp h with h | h
        · exact .inl h
        · exact .inr h
    · split at h
      · split at h
        · exact .inr (List.mem_cons_of_mem _ h)
        · rcases List.mem_cons.mp h with h | h
          · exact .inl h
          · exact .inr (List.mem_cons_of_mem _ h)
      · rcases List.mem_cons.mp h with h | h
        · exact .inr (h ▸ List.mem_cons_self)
        · exact (ih h).imp id (List.mem_cons_of_mem _)

/-- A write to an address of the range keeps the store within the range. -/
theorem Memory.within_write {p : Nat → Bool} {m : Memory} (h : Memory.within p m = true) {a : Nat} (ha : p a = true)
    (b : Byte) : Memory.within p (Memory.write m a b) = true := by
  simp only [Memory.within, List.all_eq_true] at h ⊢
  intro c hc
  rcases Memory.mem_write hc with rfl | hc
  · exact ha
  · exact h c hc

@[simp] theorem Memory.writeAll_nil (m : Memory) : Memory.writeAll m [] = m := rfl

@[simp] theorem Memory.writeAll_cons (m : Memory) (a : Nat) (b : Byte) (ws : List (Nat × Byte)) :
    Memory.writeAll m ((a, b) :: ws) = Memory.writeAll (Memory.write m a b) ws := rfl

/-- A list of writes keeps the canonical form. -/
theorem Memory.wf_writeAll {m : Memory} (h : Memory.wf m = true) (ws : List (Nat × Byte)) :
    Memory.wf (Memory.writeAll m ws) = true := by
  induction ws generalizing m with
  | nil => exact h
  | cons c ws ih => exact ih (Memory.wf_write h c.1 c.2)

/-- A list of writes within the range keeps the store within the range. -/
theorem Memory.within_writeAll {p : Nat → Bool} {m : Memory} (h : Memory.within p m = true) {ws : List (Nat × Byte)}
    (hw : ∀ c ∈ ws, p c.1 = true) : Memory.within p (Memory.writeAll m ws) = true := by
  induction ws generalizing m with
  | nil => exact h
  | cons c ws ih =>
    exact ih (Memory.within_write h (hw c (by simp)) c.2) fun d hd => hw d (by simp [hd])

/-- A list of writes leaves every address it does not name, in any store. -/
theorem Memory.read_writeAll_other (m : Memory) {ws : List (Nat × Byte)} {x : Nat} (hx : ∀ c ∈ ws, c.1 ≠ x) :
    Memory.read (Memory.writeAll m ws) x = Memory.read m x := by
  induction ws generalizing m with
  | nil => rfl
  | cons c ws ih =>
    rw [show Memory.writeAll m (c :: ws) = Memory.writeAll (Memory.write m c.1 c.2) ws from rfl,
      ih _ fun d hd => hx d (by simp [hd]), Memory.read_write_other m _ (Ne.symm (hx c (by simp)))]

/-- A list of writes to different addresses leaves each one's byte at its address. -/
theorem Memory.read_writeAll_mem {m : Memory} (h : Memory.wf m = true) {ws : List (Nat × Byte)}
    (hd : (ws.map Prod.fst).Nodup) {c : Nat × Byte} (hc : c ∈ ws) :
    Memory.read (Memory.writeAll m ws) c.1 = c.2 := by
  induction ws generalizing m with
  | nil => simp at hc
  | cons d ws ih =>
    simp only [List.map_cons, List.nodup_cons] at hd
    rw [show Memory.writeAll m (d :: ws) = Memory.writeAll (Memory.write m d.1 d.2) ws from rfl]
    rcases List.mem_cons.mp hc with rfl | hc
    · rw [Memory.read_writeAll_other, Memory.read_write_same h]
      intro e he heq
      exact hd.1 (List.mem_map.mpr ⟨e, he, heq⟩)
    · exact ih (Memory.wf_write h _ _) hd.2 hc

theorem Memory.eq_of_read_eq_above {low : Nat} {m n : Memory} (hm : Memory.wfAbove low m = true)
    (hn : Memory.wfAbove low n = true) (h : ∀ a, low < a → Memory.read m a = Memory.read n a) : m = n := by
  induction m generalizing low n with
  | nil =>
    cases n with
    | nil => rfl
    | cons c rest =>
      obtain ⟨k, b⟩ := c
      simp only [Memory.wfAbove, Bool.and_eq_true, decide_eq_true_eq] at hn
      have := h k hn.1.1
      simp [Memory.read] at this
      simp [← this] at hn
  | cons c m ih =>
    obtain ⟨k, b⟩ := c
    have hm' := hm
    simp only [Memory.wfAbove, Bool.and_eq_true, decide_eq_true_eq] at hm
    obtain ⟨⟨hk, hb⟩, hrest⟩ := hm
    cases n with
    | nil =>
      have := h k hk
      simp [Memory.read] at this
      simp [this] at hb
    | cons d n =>
      obtain ⟨k', b'⟩ := d
      have hn' := hn
      simp only [Memory.wfAbove, Bool.and_eq_true, decide_eq_true_eq] at hn
      obtain ⟨⟨hk', hb'⟩, hrest'⟩ := hn
      have hkk : k = k' := by
        rcases Nat.lt_trichotomy k k' with hlt | heq | hgt
        · have := h k hk
          rw [Memory.read, if_pos rfl, Memory.read, if_neg (by omega),
            Memory.read_of_wfAbove hrest' (by omega)] at this
          simp [this] at hb
        · exact heq
        · have := h k' hk'
          rw [Memory.read, if_neg (by omega), Memory.read_of_wfAbove hrest (by omega), Memory.read, if_pos rfl] at this
          simp [← this] at hb'
      subst hkk
      have hbb : b = b' := by simpa [Memory.read] using h k hk
      subst hbb
      have := ih hrest hrest' fun a ha => by
        have := h a (by omega)
        rwa [Memory.read, if_neg (by omega), Memory.read, if_neg (by omega)] at this
      rw [this]

/-- Two stores in canonical form that read alike are equal. -/
theorem Memory.eq_of_read_eq {m n : Memory} (hm : Memory.wf m = true) (hn : Memory.wf n = true)
    (h : ∀ a, Memory.read m a = Memory.read n a) : m = n := by
  cases m with
  | nil =>
    cases n with
    | nil => rfl
    | cons c rest =>
      have := h c.1
      simp only [Memory.read] at this
      exact absurd (by simpa using this.symm) (Memory.wf_cons.mp hn).1
  | cons c m =>
    obtain ⟨k, b⟩ := c
    have hm' := Memory.wf_cons.mp hm
    cases n with
    | nil =>
      have := h k
      simp only [Memory.read] at this
      exact absurd (by simpa using this) hm'.1
    | cons d n =>
      obtain ⟨k', b'⟩ := d
      have hn' := Memory.wf_cons.mp hn
      have hkk : k = k' := by
        rcases Nat.lt_trichotomy k k' with hlt | heq | hgt
        · have := h k
          rw [Memory.read, if_pos rfl, Memory.read, if_neg (by omega),
            Memory.read_of_wfAbove hn'.2 (by omega)] at this
          exact absurd this hm'.1
        · exact heq
        · have := h k'
          rw [Memory.read, if_neg (by omega), Memory.read_of_wfAbove hm'.2 (by omega), Memory.read, if_pos rfl] at this
          exact absurd this.symm hn'.1
      subst hkk
      have hbb : b = b' := by simpa [Memory.read] using h k
      subst hbb
      have := Memory.eq_of_read_eq_above hm'.2 hn'.2 fun a ha => by
        have := h a
        rwa [Memory.read, if_neg (by omega), Memory.read, if_neg (by omega)] at this
      rw [this]

end Sys2Proof.Machine
end

