-- ==== Sys2Proof/Laws/PerInstr.lean ====
section
/-! SUPPORT. Statements about every command, one lemma per constructor: the opcode byte of an encoded command is the one of
spec/30_encoding.md R203. -/

namespace Sys2Proof.Laws

/-- The opcode of a command in the map of R203. -/
def opcodeByte : Instr → Byte
  | .nop => 0x00#8
  | .noteOn _ _ => 0x01#8
  | .noteOff _ => 0x02#8
  | .setAlgorithm _ => 0x03#8
  | .setFeedback _ => 0x04#8
  | .setOscKeySync _ => 0x05#8
  | .setMono _ => 0x06#8
  | .configure => 0x07#8
  | .statusClear => 0x08#8
  | .paramWrite _ _ => 0x10#8
  | .paramRead _ => 0x11#8
  | .vbufWrite _ _ => 0x12#8
  | .voiceLoad => 0x13#8
  | .regRead _ => 0x14#8

/-- The bits of an upper byte below which `m` bits are appended. -/
theorem getLsbD_upper {m n : Nat} (a : BitVec n) (b : BitVec m) {k : Nat} (h : m ≤ k) :
    (a ++ b).getLsbD k = a.getLsbD (k - m) := by
  rw [BitVec.getLsbD_append, if_neg (by omega)]

/-- The encoded word's opcode byte is the command's opcode. -/
def OpcodeOfEncode.Statement (i : Instr) : Prop := wordOpcode (encode i) = opcodeByte i

theorem OpcodeOfEncode.nop : OpcodeOfEncode.Statement .nop := by
  unfold OpcodeOfEncode.Statement
  decide

theorem OpcodeOfEncode.noteOn (note vel : BitVec 7) : OpcodeOfEncode.Statement (.noteOn note vel) := by
  unfold OpcodeOfEncode.Statement
  apply BitVec.eq_of_getLsbD_eq
  intro k hk
  simp only [wordOpcode, encode, opcodeByte, BitVec.getLsbD_extractLsb', hk, decide_true, Bool.true_and]
  repeat rw [getLsbD_upper _ _ (by omega)]
  interval_cases k <;> rfl

theorem OpcodeOfEncode.noteOff (note : BitVec 7) : OpcodeOfEncode.Statement (.noteOff note) := by
  unfold OpcodeOfEncode.Statement
  apply BitVec.eq_of_getLsbD_eq
  intro k hk
  simp only [wordOpcode, encode, opcodeByte, BitVec.getLsbD_extractLsb', hk, decide_true, Bool.true_and]
  repeat rw [getLsbD_upper _ _ (by omega)]
  interval_cases k <;> rfl

theorem OpcodeOfEncode.setAlgorithm (value : Byte) : OpcodeOfEncode.Statement (.setAlgorithm value) := by
  unfold OpcodeOfEncode.Statement
  apply BitVec.eq_of_getLsbD_eq
  intro k hk
  simp only [wordOpcode, encode, opcodeByte, BitVec.getLsbD_extractLsb', hk, decide_true, Bool.true_and]
  repeat rw [getLsbD_upper _ _ (by omega)]
  interval_cases k <;> rfl

theorem OpcodeOfEncode.setFeedback (value : Byte) : OpcodeOfEncode.Statement (.setFeedback value) := by
  unfold OpcodeOfEncode.Statement
  apply BitVec.eq_of_getLsbD_eq
  intro k hk
  simp only [wordOpcode, encode, opcodeByte, BitVec.getLsbD_extractLsb', hk, decide_true, Bool.true_and]
  repeat rw [getLsbD_upper _ _ (by omega)]
  interval_cases k <;> rfl

theorem OpcodeOfEncode.setOscKeySync (b : BitVec 1) : OpcodeOfEncode.Statement (.setOscKeySync b) := by
  unfold OpcodeOfEncode.Statement
  apply BitVec.eq_of_getLsbD_eq
  intro k hk
  simp only [wordOpcode, encode, opcodeByte, BitVec.getLsbD_extractLsb', hk, decide_true, Bool.true_and]
  repeat rw [getLsbD_upper _ _ (by omega)]
  interval_cases k <;> rfl

theorem OpcodeOfEncode.setMono (b : BitVec 1) : OpcodeOfEncode.Statement (.setMono b) := by
  unfold OpcodeOfEncode.Statement
  apply BitVec.eq_of_getLsbD_eq
  intro k hk
  simp only [wordOpcode, encode, opcodeByte, BitVec.getLsbD_extractLsb', hk, decide_true, Bool.true_and]
  repeat rw [getLsbD_upper _ _ (by omega)]
  interval_cases k <;> rfl

theorem OpcodeOfEncode.configure : OpcodeOfEncode.Statement .configure := by
  unfold OpcodeOfEncode.Statement
  decide

theorem OpcodeOfEncode.statusClear : OpcodeOfEncode.Statement .statusClear := by
  unfold OpcodeOfEncode.Statement
  decide

theorem OpcodeOfEncode.paramWrite (addr data : Byte) : OpcodeOfEncode.Statement (.paramWrite addr data) := by
  unfold OpcodeOfEncode.Statement
  apply BitVec.eq_of_getLsbD_eq
  intro k hk
  simp only [wordOpcode, encode, opcodeByte, BitVec.getLsbD_extractLsb', hk, decide_true, Bool.true_and]
  repeat rw [getLsbD_upper _ _ (by omega)]
  interval_cases k <;> rfl

theorem OpcodeOfEncode.paramRead (addr : Byte) : OpcodeOfEncode.Statement (.paramRead addr) := by
  unfold OpcodeOfEncode.Statement
  apply BitVec.eq_of_getLsbD_eq
  intro k hk
  simp only [wordOpcode, encode, opcodeByte, BitVec.getLsbD_extractLsb', hk, decide_true, Bool.true_and]
  repeat rw [getLsbD_upper _ _ (by omega)]
  interval_cases k <;> rfl

theorem OpcodeOfEncode.vbufWrite (offset data : Byte) : OpcodeOfEncode.Statement (.vbufWrite offset data) := by
  unfold OpcodeOfEncode.Statement
  apply BitVec.eq_of_getLsbD_eq
  intro k hk
  simp only [wordOpcode, encode, opcodeByte, BitVec.getLsbD_extractLsb', hk, decide_true, Bool.true_and]
  repeat rw [getLsbD_upper _ _ (by omega)]
  interval_cases k <;> rfl

theorem OpcodeOfEncode.voiceLoad : OpcodeOfEncode.Statement .voiceLoad := by
  unfold OpcodeOfEncode.Statement
  decide

theorem OpcodeOfEncode.regRead (reg : Byte) : OpcodeOfEncode.Statement (.regRead reg) := by
  unfold OpcodeOfEncode.Statement
  apply BitVec.eq_of_getLsbD_eq
  intro k hk
  simp only [wordOpcode, encode, opcodeByte, BitVec.getLsbD_extractLsb', hk, decide_true, Bool.true_and]
  repeat rw [getLsbD_upper _ _ (by omega)]
  interval_cases k <;> rfl

end Sys2Proof.Laws
end

