-- ==== Sys2Proof/Tests/Slice0.lean ====
section
/-! SUPPORT. The model's own tests: the checks of WellFormed, words written out from the encoding rules, single steps of every command and
datapath values from the spec's worked examples; then, for every statement that has hypotheses, a state and operands that
meet them. -/

namespace Sys2Proof.Tests

open Sys2Proof.Machine

/-! ## Helpers -/

/-- The test tables TC1 of spec/95_test_vectors.md section 1. -/
def tc1 : Rom where
  levelLut k := levelLutDefault.getD k 0
  statics k := 20 * (99 - k)
  detune k := f32OfRat (78 * k) 1000
  velTable s k := f32OfRat (64 - s * k) 64
  keyscaleExp k := keyscaleExpDefault.getD k 0
  lfoSpeed k := f32OfRat (625 * 99 + k * (490000 - 625)) (99 * 10000)
  lfoDelay k := f32OfRat (283 * k) 9900
  lfoPms k := f32OfRat k 7
  pitchenvTab l := if l ≤ 50 then -(divNearestEven (128 * (50 - l)) 50 : Int) else divNearestEven (127 * (l - 50)) 49
  pitchenvRate k := k + 1
  algorithms k := catalogueDefault.getD k allCarriers
  lfoSeed := 0x92D68CA2#32

/-- The state after reset with the given events pending. -/
def pending (evs : List Event) : State := { State.reset with events := evs }

/-- A configured block. -/
def ready : State := { State.reset with configured := true }

/-- The state after an outcome; the state after reset where there is none. -/
def after (o : Host.Outcome State Fault Refusal) : State :=
  match o with
  | .next s => s
  | .fault _ => .reset
  | .refused _ => .reset

/-- The state after one command word. -/
def word (w : Word) (s : State) : State := after (commandStep w s)

/-- An operator whose envelope was triggered. -/
def armedOp : Operator := { Operator.reset with env := { Envelope.reset with armed := true, stage := .attack } }

/-- A voice that sounds note 60 + n, started as number n + 1. -/
def sounding (n : Nat) : Voice :=
  { Voice.reset with
    note := BitVec.ofNat 8 (60 + n), held := true, age := BitVec.ofNat 64 (n + 1), ops := Vector.replicate 6 armedOp }

/-- Core 0 enabled and all eight voices active. -/
def full : State :=
  { ready with params := [(0x00, 1#8)], counter := 8#64, voices := Vector.ofFn fun v : Fin 8 => sounding v.val }

/-- Core 0 enabled, the voices below `n` active. -/
def partly (n : Nat) : State :=
  { full with voices := Vector.ofFn fun v : Fin 8 => if v.val < n then sounding v.val else Voice.reset }

/-! ## WellFormed: each check refuses an ill-formed command -/

theorem test_param_write_unmapped_ill_formed : ¬ WellFormed (.paramWrite 0x18 0) := by decide
theorem test_param_write_gap_ill_formed : ¬ WellFormed (.paramWrite 0xC3 0) ∧ ¬ WellFormed (.paramWrite 0xFF 0) := by decide
theorem test_param_read_unmapped_ill_formed : ¬ WellFormed (.paramRead 0xBF) ∧ ¬ WellFormed (.paramRead 0xE8) := by decide
theorem test_vbuf_write_128_ill_formed : ¬ WellFormed (.vbufWrite 128 0) ∧ WellFormed (.vbufWrite 127 0) := by decide
theorem test_reg_read_unmapped_ill_formed :
    ¬ WellFormed (.regRead 0x06) ∧ ¬ WellFormed (.regRead 0x47) ∧ ¬ WellFormed (.regRead 0xC6) := by decide
theorem test_boundary_operands_well_formed :
    WellFormed (.paramWrite 0xB7 0) ∧ WellFormed (.paramRead 0xF0) ∧ WellFormed (.regRead 0xFD) := by decide

/-! ## Decode: words written out bit by bit from R201 and R203, fields at 31..24, 23..16, 15..8, 7..0 -/

theorem test_decode_nop : decode 0b00000000_00000000_00000000_00000000#32 = .ok .nop := by decide
theorem test_decode_note_on : decode 0b00000001_00000000_01000101_01100100#32 = .ok (.noteOn 69 100) := by decide
theorem test_decode_note_off : decode 0b00000010_00000000_01111111_00000000#32 = .ok (.noteOff 127) := by decide
theorem test_decode_set_algorithm : decode 0b00000011_00000000_00000000_11001000#32 = .ok (.setAlgorithm 200) := by decide
theorem test_decode_set_feedback : decode 0b00000100_00000000_00000000_00000111#32 = .ok (.setFeedback 7) := by decide
theorem test_decode_set_osc_key_sync : decode 0b00000101_00000000_00000000_00000001#32 = .ok (.setOscKeySync 1) := by decide
theorem test_decode_set_mono : decode 0b00000110_00000000_00000000_00000001#32 = .ok (.setMono 1) := by decide
theorem test_decode_configure : decode 0b00000111_00000000_00000000_00000000#32 = .ok .configure := by decide
theorem test_decode_status_clear : decode 0b00001000_00000000_00000000_00000000#32 = .ok .statusClear := by decide
theorem test_decode_param_write : decode 0b00010000_00000000_00000110_01100011#32 = .ok (.paramWrite 6 99) := by decide
theorem test_decode_param_read : decode 0b00010001_00000000_11000000_00000000#32 = .ok (.paramRead 0xC0) := by decide
theorem test_decode_vbuf_write : decode 0b00010010_00000000_01101110_00011111#32 = .ok (.vbufWrite 110 31) := by decide
theorem test_decode_voice_load : decode 0b00010011_00000000_00000000_00000000#32 = .ok .voiceLoad := by decide
theorem test_decode_reg_read : decode 0b00010100_00000000_00000000_00100101#32 = .ok (.regRead 0x25) := by decide

/-- The table's numbering is the word's own, and a word with more bits set than the row gives is cut. -/
theorem test_decode_table_word :
    decodeTableWord 32 0x01004564 = some (.noteOn 69 100) ∧ decodeTableWord 32 0x15000000 = none := by decide

/-! ## Rejections: the vectors E1 to E15 of 95_test_vectors.md, STATUS after the word -/

theorem test_illegal_opcodes :
    [0x09000000#32, 0x15000000#32].map (fun w => statusWord (word w .reset)) = [0x12#32, 0x12#32] := by decide
theorem test_reserved_bits :
    [0x00000001#32, 0x02004501#32, 0x05000002#32, 0x06000002#32, 0x14000100#32, 0x11C0C000#32, 0x1100C001#32,
      0x11FFC300#32].map (fun w => statusWord (word w .reset)) = List.replicate 8 0x22#32 := by decide
theorem test_operand_rejections :
    [0x1100C300#32, 0x1000C300#32, 0x12008000#32, 0x14000006#32].map (fun w => statusWord (word w .reset)) =
      [0x32#32, 0x32#32, 0x42#32, 0x52#32] := by decide
theorem test_note_on_bit_7 : statusWord (word 0x01004580#32 ready) = 0x23#32 := by decide

/-! ## One step of every command -/

theorem test_nop : exec .nop ready = .next ready := rfl
theorem test_set_algorithm_raw : (word 0x030000C8#32 .reset).params = [(0xC0, 200#8)] := by decide
theorem test_set_feedback : (word 0x04000007#32 .reset).params = [(0xC1, 7#8)] := by decide
theorem test_set_osc_key_sync :
    (word 0x05000001#32 .reset).params =
      [(0x16, 1#8), (0x36, 1#8), (0x56, 1#8), (0x76, 1#8), (0x96, 1#8), (0xB6, 1#8)] := by decide
theorem test_set_mono : (word 0x06000001#32 .reset).params = [(0xF0, 1#8)] := by decide
theorem test_configure : (word 0x14000000#32 (word 0x07000000#32 .reset)).rdata = 1#32 := by decide
theorem test_status_clear : statusWord (word 0x08000000#32 (word 0x09000000#32 ready)) = 0x01#32 := by decide
theorem test_param_write : (word 0x10000663#32 .reset).params = [(0x06, 99#8)] := by decide
theorem test_param_write_zero_removes : (word 0x10000600#32 (word 0x10000663#32 .reset)).params = [] := by decide
theorem test_param_read_raw : (word 0x1100C000#32 (word 0x1000C0C8#32 .reset)).rdata = 200#32 := by decide
theorem test_vbuf_write : (word 0x12006E1F#32 .reset).vbuf = [(110, 31#8)] := by decide

/-- R603: slot 5, byte 14 is OUTPUT_LEVEL of core index 0; byte 12 packs RATE_SCALING and DETUNE. -/
theorem test_voice_load_slot_order :
    (word 0x13000000#32 { State.reset with vbuf := [(97, 0x3B#8), (99, 0x63#8)] }).params =
      [(0x00, 1#8), (0x02, 7#8), (0x05, 99#8), (0x0E, 3#8), (0x20, 1#8), (0x40, 1#8), (0x60, 1#8), (0x80, 1#8),
        (0xA0, 1#8)] := by decide +kernel

/-- R603: byte 111 packs FEEDBACK and OSC_KEY_SYNC, byte 116 the LFO's key sync, waveform and sensitivity. -/
theorem test_voice_load_globals :
    let P := (word 0x13000000#32 { State.reset with vbuf := [(111, 0x0D#8), (116, 0x35#8)] }).params
    [0xC1, 0x16, 0xB6, 0xD6, 0xD0, 0xD5, 0xF0].map (Memory.read P) = [5#8, 1#8, 1#8, 1#8, 2#8, 3#8, 0#8] := by
  decide +kernel

/-- R604's example: STATUS of a configured block after the rejected word 0x09000000. -/
theorem test_reg_read_status : (word 0x14000000#32 (word 0x09000000#32 ready)).rdata = 0x13#32 := by decide
theorem test_reg_read_voice_active : (word 0x14000001#32 (partly 3)).rdata = 0x07#32 := by decide +kernel

theorem test_note_on_unconfigured : exec (.noteOn 69 100) State.reset = .next State.reset := rfl

/-- R550's example on a configured idle core: voice 0, note 69, age 1, no other voice. -/
theorem test_note_on_starts_voice_0 :
    let s := word 0x01004564#32 ready
    s.counter = 1#64 ∧ s.voices[0].note = 69#8 ∧ s.voices[0].held = true ∧ s.voices[0].age = 1#64 ∧
      s.voices[1].held = false := by decide +kernel

/-- R541: NOTE_ON 68 on a full pool steals voice 0, whose age becomes 9. -/
theorem test_note_on_steals_oldest :
    let s := after (exec (.noteOn 68 100) full)
    s.counter = 9#64 ∧ s.voices.map Voice.note = #v[68#8, 61#8, 62#8, 63#8, 64#8, 65#8, 66#8, 67#8] ∧
      s.voices.map Voice.age = #v[9#64, 2#64, 3#64, 4#64, 5#64, 6#64, 7#64, 8#64] := by decide +kernel

theorem test_note_off_releases_match :
    let s := after (exec (.noteOff 61) full)
    s.voices[0].held = true ∧ s.voices[1].held = false ∧ s.voices[1].note = 61#8 := by decide +kernel
theorem test_note_off_no_match : after (exec (.noteOff 70) full) = full := by decide +kernel

/-! ## Steps -/

theorem test_step_runs_fetched_word :
    after (step (State.withFetchWord .reset 32 0x0300001F)) = { State.reset with params := [(0xC0, 31#8)] } := by decide
theorem test_tick_unconfigured :
    step (pending [.tick]) = .next State.reset := rfl
theorem test_reset_event : step { full with events := [.reset] } = .next State.reset := rfl

/-! ## Datapath values from the spec's worked examples -/

theorem test_lut_sin : lutSin (f32OfRat 1 8) = 0x3F3504F3#32 ∧ lutSin (f32OfRat 3 10) = 0x3F73786D#32 := by decide +kernel
theorem test_lut_exp2 : lutExp2 (f32OfRat 1 2) = 0x3FB50510#32 ∧ lutExp2 (f32OfInt (-25)) = 0x35800000#32 := by
  decide +kernel
theorem test_osc_inc : (oscSetFreq (f32OfInt 440) Oscillator.reset).inc = 0x3C2377EE#32 := by decide +kernel

/-- R408, scenario S5: detune 8 at note 69. -/
theorem test_op_freq : opFreq rom [(0x02, 8#8), (0x03, 1#8)] 0 69 = 0x43DC0464#32 := by decide +kernel

/-- R410. -/
theorem test_rate_delta :
    [20, 48, 60, 69, 127].map (rateDelta [(0x0E, 7#8)] 0) = [0, 8, 11, 14, 27] ∧ rateDelta [(0x0E, 3#8)] 0 54 = 3 := by
  decide +kernel

/-- R411: OL 50, BP 39, right depth 99, curve -EXP. -/
theorem test_kls_factor :
    klsFactor rom [(0x05, 50#8), (0x11, 39#8), (0x13, 99#8), (0x15, 1#8)] 0 69 = 0x3F7FFFC2#32 := by decide +kernel

/-- R409 under TC1: sensitivity 7, velocity 100. -/
theorem test_vel_factor : velFactor tc1 [(0x0F, 7#8)] 0 100 = 0x3F50C000#32 := by decide +kernel

/-- R319: the first three ticks of example A. -/
theorem test_envelope_attack :
    let P : Memory := [(0x05, 99#8), (0x06, 99#8), (0x07, 99#8), (0x08, 99#8), (0x0A, 99#8), (0x0B, 99#8), (0x0C, 99#8),
      (0x0D, 99#8)]
    let e := (envStep rom P 0 (envTrigger rom P 0 .reset)).1
    e.level = 121634816#32 ∧ (envStep rom P 0 e).1.level = 129892352#32 := by decide +kernel

/-- R365 under TC1: the first step of a pitch envelope falling from 0. -/
theorem test_pitch_envelope_fall :
    let P : Memory := [(0xE1, 50#8), (0xE2, 50#8), (0xE3, 50#8), (0xE4, 99#8)]
    peOut (peMove tc1 P (peTrigger tc1 P .reset)) = 0x3F7FFB23#32 := by decide +kernel

/-- R484: the first sample-and-hold refresh. -/
theorem test_xorshift : (shRefresh State.reset.lfo).prng = 0x2B1F4D63#32 := by decide

/-- The last entry of NEUTRAL0 (95_test_vectors.md): one operator's first sample after a key-synced start is +0.0, its second
0.00081869279. -/
theorem test_operator_second_sample :
    let P : Memory := [(0x00, 1#8), (0x02, 7#8), (0x03, 1#8), (0x05, 99#8), (0x06, 99#8), (0x07, 99#8), (0x08, 99#8),
      (0x0A, 99#8), (0x0B, 99#8), (0x0C, 99#8), (0x0D, 99#8)]
    let x := opStep tc1 P 0 0#32 f32One 0#32 false (opTrigger tc1 P 69 100 0 .reset)
    x.2 = 0#32 ∧ (opStep tc1 P 0 0#32 f32One 0#32 false x.1).2 = 0x3A569D8B#32 := by decide +kernel

/-! ## Witnesses: states and operands that meet the hypotheses of the statements

`witness_X` is for the statement Obligations.X; where a statement has several clauses, a witness stands for each, at a boundary
of its range where it has one. -/

theorem witness_EncodeOfDecode :
    decode 0x01007F7F#32 = .ok (.noteOn 127 127) ∧ decode 0x1000FFFF#32 = .ok (.paramWrite 255 255) := by decide

theorem witness_ParamMapOneToOne :
    opAddr 5 .waveform = opAddr 5 .waveform ∧ opAddr 5 .waveform = 0xB7 ∧ opAddr 0 .enabled = 0x00 ∧
      globalAddr .mono = globalAddr .mono ∧ globalAddr .mono = 0xF0 := by decide

theorem witness_RegisterMapOneToOne : (0xFF : Nat) < 256 ∧ regOf 0xFD = some (.oscPhase 7 5) ∧ regOf 0x00 = some .status := by
  decide

theorem witness_IllegalAndReservedWordsRejected :
    opcodeFormat ((0x09000000#32).toNat / 2 ^ 24) = none ∧ opcodeFormat ((0x0FFFFFFF#32).toNat / 2 ^ 24) = none ∧
    opcodeFormat ((0x15000000#32).toNat / 2 ^ 24) = none ∧ opcodeFormat ((0xFFFFFFFF#32).toNat / 2 ^ 24) = none ∧
    opcodeFormat ((0x14000100#32).toNat / 2 ^ 24) = some .V ∧ 0x14000100#32 &&& formatReserved .V ≠ 0 ∧
    opcodeFormat ((0x00000001#32).toNat / 2 ^ 24) = some .N ∧ 0x00000001#32 &&& formatReserved .N ≠ 0 := by decide

/-- One word for each branch of the check order, in the order of the branches. -/
theorem witness_CommandChecksInOrder :
    opcodeFormat ((0x15000000#32).toNat / 2 ^ 24) = none ∧
    0x1100C001#32 &&& formatReserved .A0 ≠ 0 ∧
    (0x1100C300#32 &&& formatReserved .A0 = 0 ∧ paramMapped ((0x1100C300#32).toNat / 2 ^ 8 % 2 ^ 8) = false) ∧
    (0x12008000#32 &&& formatReserved .A = 0 ∧ 128 ≤ (0x12008000#32).toNat / 2 ^ 8 % 2 ^ 8) ∧
    (0x14000006#32 &&& formatReserved .V = 0 ∧ regOf ((0x14000006#32).toNat % 2 ^ 8) = none) ∧
    (0x12007F00#32 &&& formatReserved .A = 0 ∧ ¬ 128 ≤ (0x12007F00#32).toNat / 2 ^ 8 % 2 ^ 8) := by decide

theorem witness_StepRunsDecodedCommand :
    (pending [.command 0x0300001F#32]).events = .command 0x0300001F#32 :: [] ∧
      decode 0x0300001F#32 = .ok (.setAlgorithm 31) ∧ WellFormed (.setAlgorithm 31) := by decide

theorem witness_StepOfOtherEvents :
    ((pending [.command 0x1000C300#32]).events = [.command 0x1000C300#32] ∧
      commandReject 0x1000C300#32 = some .paramUnmapped) ∧
    (pending [.tick]).events = [.tick] ∧ (pending [.reset]).events = [.reset] ∧ State.reset.events = [] := by decide

theorem witness_ResetSetsEveryElement : ({ full with events := [.reset] } : State).events = .reset :: [] := rfl

theorem witness_RejectionIsPrecise :
    commandReject 0x12008000#32 = some .vbufRange ∧
    (WellFormed (.paramWrite 0xF0 1) ∧ Instr.paramWrite 0xF0 1 ≠ .statusClear ∧ Instr.paramWrite 0xF0 1 ≠ .regRead 0 ∧
      ∃ t, exec (.paramWrite 0xF0 1) full = .next t) := ⟨by decide, by decide, by decide, by decide, _, rfl⟩

/-- For the statements about one step of any event: each event's step from a state with that event pending. -/
theorem witness_step_of_each_event :
    (∃ t, step (pending [.tick]) = .next t) ∧ (∃ t, step (pending [.reset]) = .next t) ∧
    (∃ t, step (pending [.command 0x15000000#32]) = .next t) ∧ (∃ t, step (pending [.command 0x08000000#32]) = .next t) ∧
    (∃ t, step (pending [.command 0x1100F000#32]) = .next t) ∧ (∃ t, step (pending [.command 0x14000000#32]) = .next t) ∧
    (∃ t, step (pending [.command 0x12007F01#32]) = .next t) ∧ ∃ t, step (pending [.command 0x07000000#32]) = .next t :=
  ⟨⟨_, rfl⟩, ⟨_, rfl⟩, ⟨_, rfl⟩, ⟨_, rfl⟩, ⟨_, rfl⟩, ⟨_, rfl⟩, ⟨_, rfl⟩, ⟨_, rfl⟩⟩

theorem witness_StatusBitsAndWriters :
    (pending [.command 0x08000000#32]).events = .command 0x08000000#32 :: [] ∧
      ∃ t, step (pending [.command 0x08000000#32]) = .next t := ⟨rfl, _, rfl⟩

theorem witness_RdataHoldsLastRead :
    (pending [.command 0x1100F000#32]).events = .command 0x1100F000#32 :: [] ∧
      ∃ t, step (pending [.command 0x1100F000#32]) = .next t := ⟨rfl, _, rfl⟩

theorem witness_ConfiguredBitGatesBlock :
    ((pending [.command 0x07000000#32]).events = .command 0x07000000#32 :: [] ∧
      ∃ t, step (pending [.command 0x07000000#32]) = .next t) ∧ State.reset.configured = false := ⟨⟨rfl, _, rfl⟩, rfl⟩

theorem witness_VoiceBufferSeenOnlyByVoiceLoad :
    ((pending [.command 0x12007F01#32]).events = .command 0x12007F01#32 :: [] ∧
      ∃ t, step (pending [.command 0x12007F01#32]) = .next t) ∧
    Instr.vbufWrite 127 1 ≠ .voiceLoad ∧ ∃ t, exec (.vbufWrite 127 1) full = .next t :=
  ⟨⟨rfl, _, rfl⟩, by decide, _, rfl⟩

theorem witness_CommandsWriteOnlyTheirState :
    State.reset.configured = false ∧ ready.configured = true ∧
    paramMapped (0x17#8).toNat = true ∧ paramMapped (0xF0#8).toNat = true ∧
    (127#8).toNat < 128 ∧ regOf (0xFD#8).toNat = some (.oscPhase 7 5) ∧ regOf (0x00#8).toNat = some .status ∧
    (opcodeFormat ((0x00000001#32).toNat / 2 ^ 24) = some .N ∧ 0x00000001#32 &&& formatReserved .N ≠ 0) ∧
    (opcodeFormat ((0x14000100#32).toNat / 2 ^ 24) = some .V ∧ 0x14000100#32 &&& formatReserved .V ≠ 0) ∧
    operandReject (.paramWrite 0x18 0) = some .paramUnmapped ∧ operandReject (.vbufWrite 128 0) = some .vbufRange ∧
    operandReject (.regRead 0xFE) = some .regUnmapped := by decide

theorem canonical_reset : MemoryCanonical State.reset := ⟨rfl, rfl, rfl, rfl⟩

/-- A canonical state with parameters and a packed voice in it. -/
def loaded : State := { State.reset with params := [(0x00, 1#8), (0xF0, 1#8)], vbuf := [(0, 0xFF#8), (127, 0x41#8)] }

theorem canonical_loaded : MemoryCanonical loaded :=
  ⟨by decide, by decide, by decide, by decide⟩

theorem witness_SettersStoreRawOperand : MemoryCanonical loaded := canonical_loaded

theorem witness_ParamWriteThenReadReturnsByte :
    MemoryCanonical loaded ∧ paramMapped (0x00#8).toNat = true ∧ paramMapped (0xF0#8).toNat = true :=
  ⟨canonical_loaded, by decide, by decide⟩

theorem witness_VbufWriteStoresByte : MemoryCanonical loaded ∧ (0#8).toNat < 128 ∧ (127#8).toNat < 128 :=
  ⟨canonical_loaded, by decide, by decide⟩

theorem witness_VoiceLoadUnpacksFields : MemoryCanonical loaded := canonical_loaded

theorem witness_PackAfterVoiceLoadReproducesVoice : MemoryCanonical loaded := canonical_loaded

theorem witness_RegReadGivesRegisterContents :
    ((0x06 : Nat) < 256 ∧ regOf 0x06 = none) ∧ regOf 0x26 = none ∧ regOf 0x3F = none ∧ regOf 0x47 = none ∧
    regOf 0xC6 = none ∧ ((0xFF : Nat) < 256 ∧ regOf 0xFF = none) := by decide

/-! Notes: a full pool, a pool with the lowest voice free, one with only voice 7 free, and monophonic mode. -/

theorem full_all_active : ∀ v : Fin 8, activeIn full v = true := by decide +kernel

/-- A full pool in monophonic mode. -/
def mono : State := { full with params := [(0x00, 1#8), (0xF0, 0xFF#8)] }

theorem witness_NoteOnAllocatesVoice_mono :
    mono.configured = true ∧ mono.counter ≠ BitVec.allOnes 64 ∧ Memory.read mono.params 0xF0 ≠ 0#8 := by decide

theorem witness_NoteOnAllocatesVoice_lowest_free :
    ready.configured = true ∧ ready.counter ≠ BitVec.allOnes 64 ∧ Memory.read ready.params 0xF0 = 0#8 ∧
      activeIn ready 0 = false ∧ ∀ v : Fin 8, v < 0 → activeIn ready v = true := by decide +kernel

theorem witness_NoteOnAllocatesVoice_last_free :
    (partly 7).configured = true ∧ (partly 7).counter ≠ BitVec.allOnes 64 ∧ Memory.read (partly 7).params 0xF0 = 0#8 ∧
      activeIn (partly 7) 7 = false ∧ ∀ v : Fin 8, v < 7 → activeIn (partly 7) v = true := by decide +kernel

theorem witness_NoteOnAllocatesVoice_full :
    full.configured = true ∧ full.counter ≠ BitVec.allOnes 64 ∧ Memory.read full.params 0xF0 = 0#8 ∧
      ∀ v : Fin 8, activeIn full v = true := by decide +kernel

theorem witness_NoteOnStealsOldestVoice :
    full.configured = true ∧ full.counter ≠ BitVec.allOnes 64 ∧ Memory.read full.params 0xF0 = 0#8 ∧
      (∀ v : Fin 8, activeIn full v = true) ∧ (∀ v : Fin 8, full.voices[(0 : Fin 8)].age ≤ full.voices[v].age) ∧
      ∀ v : Fin 8, v < 0 → full.voices[(0 : Fin 8)].age < full.voices[v].age := by decide +kernel

theorem witness_OperatorTriggerWrites :
    Memory.read [(0x16, 1#8)] (0x20 * (0 : Fin 6).val + 0x16) ≠ 0#8 ∧
      Memory.read [] (0x20 * (5 : Fin 6).val + 0x16) = 0#8 := by decide

theorem witness_VoiceReleaseEntersStageThree :
    stageCode (sounding 0).ops[0].env.stage < 3 ∧ 3 ≤ stageCode Voice.reset.ops[0].env.stage ∧
      Voice.reset.ops[0].env.armed = false ∧ stageCode Stage.release = 3 ∧
      stageCode ({ PitchEnvelope.reset with stage := .decay2 } : PitchEnvelope).stage < 3 ∧
      3 ≤ stageCode Voice.reset.pe.stage := by decide +kernel

theorem witness_NoteOffReleasesLowestHeldVoice :
    full.configured = true ∧ full.voices[(7 : Fin 8)].held = true ∧ full.voices[(7 : Fin 8)].note = (67#7).setWidth 8 ∧
      (∀ w : Fin 8, w < 7 → full.voices[w].held = false ∨ full.voices[w].note ≠ (67#7).setWidth 8) ∧
      ∀ w : Fin 8, full.voices[w].held = false ∨ full.voices[w].note ≠ (70#7).setWidth 8 := by decide +kernel

theorem witness_VoicePoolStaysFull :
    full.configured = true ∧ Memory.read full.params 0xF0 = 0#8 ∧ (∀ v : Fin 8, activeIn full v = true) ∧
      (partly 7).configured = true ∧ Memory.read (partly 7).params 0xF0 = 0#8 ∧ activeIn (partly 7) 7 = false ∧
      ∀ v : Fin 8, v < 7 → activeIn (partly 7) v = true := by decide +kernel

/-! The tick. -/

theorem witness_TickIsSequentialLoop : State.reset.configured = false ∧ full.configured = true := ⟨rfl, rfl⟩

theorem witness_TickIsolatesVoices :
    activeIn (partly 7) 7 = false ∧ full.configured = (partly 7).configured ∧ full.params = (partly 7).params ∧
      full.lfo = (partly 7).lfo ∧ full.voices[(6 : Fin 8)] = (partly 7).voices[(6 : Fin 8)] := by decide +kernel

/-- Core 5, the feedback operator of algorithm 0, sounding on voice 0 at phase 1/4. -/
def feeding : State :=
  { ready with
    params := [(0xA0, 1#8)]
    events := [.tick]
    voices := State.reset.voices.set 0
      { Voice.reset with
        ops := Voice.reset.ops.set 5
          { Operator.reset with
            velF := f32One, lsF := f32One, osc := { phase := 0x3E800000#32, inc := 0#32 }
            env := { Envelope.reset with armed := true, stage := .release, keyDown := true, level := 234881024#32 } } } }

theorem witness_FeedbackMemoryChangesOnlyInFeedbackOperator :
    ∃ t, step feeding = .next t ∧
      t.voices[(0 : Fin 8)].ops[(5 : Fin 6)].prevOut ≠ feeding.voices[(0 : Fin 8)].ops[(5 : Fin 6)].prevOut :=
  ⟨_, rfl, by decide +kernel⟩

theorem witness_DisabledOperatorIsFrozen :
    Memory.read full.params (0x20 * (1 : Fin 6).val) = 0#8 ∧ Memory.read full.params (0x20 * (5 : Fin 6).val) = 0#8 := by
  decide

theorem witness_ScratchClearUnobservable : RoutingOk (selectedAlgorithm rom []) := by
  unfold RoutingOk
  decide +kernel

theorem witness_SilenceWithoutNoteOn :
    (NothingArmed (pending [.tick]) ∧
      (∀ w rest note vel, (pending [.tick]).events = .command w :: rest → decode w ≠ .ok (.noteOn note vel)) ∧
      ∃ t, step (pending [.tick]) = .next t) ∧
    ∀ w note vel, Event.command w ∈ [Event.command 0x07000000#32, .tick] → decode w ≠ .ok (.noteOn note vel) := by
  refine ⟨⟨by unfold NothingArmed; decide +kernel, fun w rest note vel h => by simp [pending] at h, _, rfl⟩, ?_⟩
  intro w note vel h
  have hw : w = 0x07000000#32 := by simpa using h
  subst hw
  exact fun h => nomatch (show Except.ok Instr.configure = Except.ok (Instr.noteOn note vel) from h)

/-! Invariants: the state after reset, which meets all of them, and a step from it. -/

theorem witness_StepKeepsMemoryCanonical : MemoryCanonical loaded ∧ ∃ t, step loaded = .next t := ⟨canonical_loaded, _, rfl⟩

theorem witness_StepKeepsStatusConsistent :
    StatusConsistent (pending [.command 0x15000000#32]) ∧ ∃ t, step (pending [.command 0x15000000#32]) = .next t :=
  ⟨⟨by decide, by decide⟩, _, rfl⟩

theorem envelope_in_range_armed : EnvelopeInRange armedOp.env :=
  ⟨by decide, by decide, by decide, by decide, by decide, by decide, by decide, by decide, by decide, by decide⟩

theorem witness_StepKeepsEnvelopesInRange :
    EnvelopesInRange (pending [.reset]) ∧ ∃ t, step (pending [.reset]) = .next t := by
  refine ⟨fun v i => ?_, _, rfl⟩
  have h : (pending [.reset]).voices[v].ops[i].env = Envelope.reset := by
    simp [pending, State.reset, State.resetOf, Voice.reset, Operator.reset]
  rw [h]
  exact ⟨by decide, by decide, by decide, by decide, by decide, by decide, by decide, by decide, by decide, by decide⟩

theorem witness_StepKeepsPitchEnvelopesInRange :
    PitchEnvelopesInRange (pending [.tick]) ∧ ∃ t, step (pending [.tick]) = .next t := by
  refine ⟨fun v => ?_, _, rfl⟩
  have h : (pending [.tick]).voices[v].pe = PitchEnvelope.reset := by simp [pending, State.reset, State.resetOf, Voice.reset]
  rw [h]
  exact ⟨by decide, by decide, by decide, by decide, by decide, by decide⟩

theorem witness_StepKeepsPhasesInRange : PhasesInRange (pending [.tick]) ∧ ∃ t, step (pending [.tick]) = .next t := by
  refine ⟨⟨fun v i => ?_, by decide⟩, _, rfl⟩
  have h : (pending [.tick]).voices[v].ops[i].osc = Oscillator.reset := by
    simp [pending, State.reset, State.resetOf, Voice.reset, Operator.reset]
  rw [h]
  decide

theorem ages_ordered_full : AgesOrdered full := by
  have h : (∀ v : Fin 8, full.voices[v].age ≤ full.counter) ∧
      (∀ v w : Fin 8, v ≠ w → full.voices[v].age = full.voices[w].age → full.voices[v].age = 0#64) ∧
      ∀ (v : Fin 8) (i : Fin 6), full.voices[v].ops[i].env.armed = true → full.voices[v].age ≠ 0#64 := by decide +kernel
  exact ⟨h.1, h.2.1, h.2.2⟩

theorem witness_StepKeepsAgesOrdered :
    AgesOrdered full ∧ full.counter ≠ BitVec.allOnes 64 ∧ (∃ t, step full = .next t) ∧
      activeIn full 0 = true ∧ activeIn full 7 = true :=
  ⟨ages_ordered_full, by decide, ⟨_, rfl⟩, full_all_active 0, full_all_active 7⟩

theorem witness_StepKeepsPrngNonzero : State.reset.lfo.prng ≠ 0#32 ∧ ∃ t, step State.reset = .next t :=
  ⟨by decide, _, rfl⟩

theorem witness_StepKeepsNotesLegal : NotesLegal full ∧ ∃ t, step full = .next t :=
  ⟨by unfold NotesLegal; decide +kernel, _, rfl⟩

/-! Envelopes and numbers. -/

/-- TC1 meets every constraint on the OPEN tables. -/
theorem tc1_admissible : RomAdmissible tc1 where
  levelLut_fixed := by decide
  levelLut_le := by decide
  statics_lt := by decide
  detune_fixed := rfl
  detune_range := by decide +kernel
  velTable_finite := by
    have h : ∀ s, s < 8 → ∀ k, k < 9 → f32Finite (tc1.velTable s k) = true := by decide +kernel
    exact fun s k hs hk => h s hs k hk
  lfoSpeed_fixed := by decide +kernel
  lfoSpeed_positive := by decide +kernel
  lfoDelay_fixed := by decide +kernel
  lfoDelay_range := by decide +kernel
  lfoPms_fixed := by decide +kernel
  lfoPms_range := by decide +kernel
  pitchenvTab_fixed := by decide
  pitchenvTab_range := by decide +kernel
  pitchenvRate_le := by decide
  routing := by unfold RoutingOk; decide +kernel
  allCarriers_fixed := rfl
  lfoSeed_ne_zero := by decide

/-- TC1 meets the premises on the OPEN tables as well. -/
theorem tc1_premises : RomPremises tc1 where
  admissible := tc1_admissible
  stages_end := fun k _ => Nat.le_add_left 1 k
  vel_bounded := by
    have h : ∀ s, s < 8 → ∀ k, k < 9 → f32Bits (tc1.velTable s k) ≤ 0x5F800000 := by decide +kernel
    exact fun s k hs hk => h s hs k hk

/-- A sustaining envelope: stage 3, the key down, at the level where stage 2 ended, the target and the least increment of its
stage-3 entry. -/
def sustained : Envelope :=
  { Envelope.reset with
    stage := .release, keyDown := true, armed := true, level := 0x0F000000#32, target := 0x00100000#32, inc := 16#32 }

theorem envelope_in_range_sustained : EnvelopeInRange sustained :=
  ⟨by decide, by decide, by decide, by decide, by decide, by decide, by decide, by decide, by decide, by decide⟩

theorem witness_ReleasedEnvelopeReachesIdle :
    RomAdmissible tc1 ∧ EnvelopeInRange armedOp.env ∧ stageCode armedOp.env.stage < 3 ∧
    (EnvelopeInRange sustained ∧ sustained.stage = .release ∧ 16 ≤ sustained.inc.toInt ∧ sustained.staticCount = 0#32) ∧
    (EnvelopeInRange { sustained with staticCount := 0x7FFFFFFF#32 } ∧ (0x7FFFFFFF : BitVec 32) ≠ 0#32) ∧
    EnvelopeInRange Envelope.reset ∧ Envelope.reset.stage = .idle :=
  ⟨tc1_admissible, envelope_in_range_armed, by decide,
    ⟨envelope_in_range_sustained, rfl, by decide, rfl⟩,
    ⟨⟨by decide, by decide, by decide, by decide, by decide, by decide, by decide, by decide, by decide, by decide⟩, by decide⟩,
    ⟨by decide, by decide, by decide, by decide, by decide, by decide, by decide, by decide, by decide, by decide⟩, rfl⟩

theorem witness_SustainAndIdleHoldLevel :
    let e : Envelope := { Envelope.reset with stage := .release, keyDown := true }
    (e.stage = .release ∧ e.keyDown = true ∧ e.staticCount = 0#32) ∧
    ({ e with staticCount := 1#32 } : Envelope).staticCount = 1#32 ∧
    1 < ({ e with staticCount := 0x7FFFFFFF#32 } : Envelope).staticCount.toInt ∧
    (Envelope.reset.stage = .idle ∧ Envelope.reset.staticCount = 0#32) ∧ PitchEnvelope.reset.stage = .idle := by decide

theorem witness_AttackZeroPausesThenDecays :
    RomAdmissible tc1 ∧
    (let P : Memory := [(0x05, 99#8), (0x0A, 90#8)]
     Memory.read P 0x06 = 0#8 ∧ Memory.read P 0x05 = 99#8 ∧ Memory.read P 0x0A = 90#8) ∧
    (let P : Memory := [(0xA5, 99#8), (0xAA, 50#8)]
     Memory.read P 0xA6 = 0#8 ∧ Memory.read P 0xA5 = 99#8 ∧ Memory.read P 0xAA = 50#8) :=
  ⟨tc1_admissible, by decide, by decide⟩

theorem witness_UnityPitchLevelsGiveUnity :
    RomAdmissible tc1 ∧ ∀ n, n < 4 →
      Memory.read [(0xE0, 50#8), (0xE1, 50#8), (0xE2, 50#8), (0xE3, 50#8)] (0xE0 + n) = 50#8 :=
  ⟨tc1_admissible, by decide⟩

theorem witness_RoundingIsNearestEven :
    0 < 3 ∧ roundBits 1 3 < 0x7F800000 ∧ (1 : Nat) < 0x7F800000 ∧ 1 ≠ roundBits 1 3 ∧
    roundBits (2 ^ 25 + 1) 1 < 0x7F800000 ∧ roundBits 3 2 = 2 ∧ roundBits 1 2 = 0 := by decide +kernel

theorem witness_FracInUnitIntervalAndExact : f32Finite 0x40200000#32 = true ∧ 0 ≤ f32Scaled 0x40200000#32 := by
  decide +kernel

theorem witness_Exp2SaturatesAtRangeEnds :
    f32Le 0xC1A00000#32 (f32OfInt (-20)) = true ∧ f32Le 0xFF800000#32 (f32OfInt (-20)) = true ∧
    f32Le (f32OfInt 10) 0x41200000#32 = true ∧ f32Le (f32OfInt 10) 0x7F800000#32 = true ∧
    f32Eq 0x80000000#32 0#32 = true := by decide +kernel

theorem witness_VelocityFactorInterpolates :
    let bp (k : Nat) : Nat := [127, 111, 95, 79, 64, 48, 32, 16, 1].getD k 0
    ((8 : Nat) < 9 ∧ bp 8 = 1) ∧ ((0 : Nat) < 8 ∧ bp 1 < 126 ∧ 126 < bp 0) ∧ (7 : Nat) < 8 ∧ bp 8 < 2 ∧ 2 < bp 7 := by
  decide

theorem witness_RateDeltaRange : (127 : Nat) < 128 := by decide

theorem witness_LfoDelayCountsDown :
    let L : Lfo := { State.reset.lfo with delay := 2#32 }
    ((0 : Nat) < 1 ∧ 1 ≤ L.delay.toNat) ∧ ((0 : Nat) < 2 ∧ 2 ≤ L.delay.toNat) ∧ State.reset.lfo.delay = 0#32 ∧
    ∃ t, step { ready with lfo := L, events := [.tick] } = .next t ∧ t.lfo.delay ≠ L.delay :=
  ⟨by decide, by decide, rfl, _, rfl, by decide +kernel⟩

theorem witness_LfoDepthZeroIsNeutral :
    RomAdmissible tc1 ∧ f32Finite 0x7F7FFFFF#32 = true ∧ f32Finite 0xBF800000#32 = true ∧
      Memory.read [] 0xD3 = 0#8 ∧ Memory.read [] 0xD4 = 0#8 ∧
      (f32Le (f32OfInt (-1)) 0xBF800000#32 = true ∧ f32Le 0xBF800000#32 f32One = true) ∧
      f32Le (f32OfInt (-1)) 0x3F800000#32 = true ∧ f32Le 0x3F800000#32 f32One = true :=
  ⟨tc1_admissible, by decide, by decide, rfl, rfl, by decide +kernel, by decide +kernel, by decide +kernel⟩

end Sys2Proof.Tests
end

/-! SUPPORT. The read-only registers (spec/10_state.md R100): the number of every register, the gaps of the map, and each assembled
register word bit by bit. -/

namespace Sys2Proof.Machine

/-! ## The register map -/

/-- The number of a register, sent as an operand byte, is mapped to that register. -/
theorem regOf_regNumber (r : Reg) : regOf (BitVec.ofNat 8 (regNumber r)).toNat = some r := by
  cases r with
  | voiceNote v | voiceAgeLo v | voiceAgeHi v | penvStatus v | penvLevel v => fin_cases v <;> rfl
  | envStatus v i | envLevel v i | oscPhase v i => fin_cases v <;> fin_cases i <;> rfl
  | _ => rfl

/-- The gaps of the register map (R100). -/
theorem regOf_of_gap {n : Nat}
    (h : n = 0x06 ∨ n = 0x07 ∨ (0x26 ≤ n ∧ n ≤ 0x3F) ∨ (0x40 ≤ n ∧ n % 8 = 7) ∨ (0xC0 ≤ n ∧ n % 8 = 6)) :
    regOf n = none := by
  rcases h with rfl | rfl | ⟨h1, h2⟩ | ⟨h1, h2⟩ | ⟨h1, h2⟩
  · rfl
  · rfl
  · interval_cases n <;> rfl
  · have h6 : ¬ n % 8 < 6 := by omega
    have h6' : n % 8 ≠ 6 := by omega
    unfold regOf
    rw [if_neg (by omega), if_neg (by omega), if_neg (by omega), if_neg (by omega), if_neg (by omega)]
    simp only [h6, h6', if_false, ite_self]
  · have h6 : ¬ n % 8 < 6 := by omega
    unfold regOf
    rw [if_neg (by omega), if_neg (by omega), if_neg (by omega), if_neg (by omega), if_neg (by omega),
      if_neg (by omega), if_neg (by omega)]
    simp only [h6, if_false, ite_self]

/-! ## The assembled words -/

/-- The bits of STATUS (R53): the fields at their places, every other bit 0. -/
theorem statusWord_bits (s : State) :
    (statusWord s).getLsbD 0 = s.configured ∧ (statusWord s).getLsbD 1 = s.cmdErr ∧
      (statusWord s).extractLsb' 2 2 = 0#2 ∧ (statusWord s).extractLsb' 4 4 = s.errCode ∧
      (statusWord s).extractLsb' 8 24 = 0#24 := by
  unfold statusWord
  refine ⟨?_, ?_, ?_, ?_, ?_⟩
  · repeat rw [BitVec.getLsbD_append]
    simp
  · repeat rw [BitVec.getLsbD_append]
    simp
  all_goals
    ext k hk
    rw [BitVec.getElem_extractLsb']
    repeat rw [BitVec.getLsbD_append, if_neg (by omega)]
  · rw [BitVec.getLsbD_append, if_pos (by omega)]
    simp
  · have hk4 : 4 + k - 1 - 1 - 2 = k := by omega
    rw [BitVec.getLsbD_append, if_pos (by omega), hk4, BitVec.getLsbD_eq_getElem]
  · simp

/-- The bits of VOICE_ACTIVE and VOICE_HELD: bit v is voice v's, bits 31:8 are 0 (R100). -/
theorem voiceBits_bits (p : Fin 8 → Bool) :
    (∀ v : Fin 8, (voiceBits p).getLsbD v.val = p v) ∧ (voiceBits p).extractLsb' 8 24 = 0#24 := by
  unfold voiceBits
  constructor
  · intro v
    repeat rw [BitVec.getLsbD_append]
    fin_cases v <;> simp
  · ext k hk
    rw [BitVec.getElem_extractLsb']
    repeat rw [BitVec.getLsbD_append, if_neg (by omega)]
    simp

/-- A stage fits the three bits that the status words give it. -/
theorem stageBits_toNat (st : Stage) : (stageBits st).toNat = stageCode st := by cases st <;> rfl

/-- The bits of ENV_STATUS (R100). -/
theorem envStatusWord_bits (c : Bool) (P : Memory) (i : Fin 6) (e : Envelope) :
    ((envStatusWord c P i e).extractLsb' 0 3).toNat = stageCode e.stage ∧
      (envStatusWord c P i e).getLsbD 3 = e.keyDown ∧ (envStatusWord c P i e).getLsbD 4 = e.rising ∧
      (envStatusWord c P i e).getLsbD 5 = e.armed ∧ (envStatusWord c P i e).getLsbD 6 = envActive c P i e ∧
      (envStatusWord c P i e).extractLsb' 7 25 = 0#25 := by
  have hstage : (envStatusWord c P i e).extractLsb' 0 3 = stageBits e.stage := by
    ext k hk
    rw [BitVec.getElem_extractLsb', envStatusWord]
    repeat rw [BitVec.getLsbD_append]
    simp [hk]
  rw [hstage]
  unfold envStatusWord
  refine ⟨stageBits_toNat e.stage, ?_, ?_, ?_, ?_, ?_⟩
  case refine_5 =>
    ext k hk
    rw [BitVec.getElem_extractLsb']
    repeat rw [BitVec.getLsbD_append, if_neg (by omega)]
    simp
  all_goals
    repeat rw [BitVec.getLsbD_append]
    simp

/-- The bits of PENV_STATUS (R100). -/
theorem penvStatusWord_bits (p : PitchEnvelope) :
    ((penvStatusWord p).extractLsb' 0 3).toNat = stageCode p.stage ∧ (penvStatusWord p).getLsbD 3 = p.keyDown ∧
      (penvStatusWord p).getLsbD 4 = p.rising ∧ (penvStatusWord p).extractLsb' 5 27 = 0#27 := by
  have hstage : (penvStatusWord p).extractLsb' 0 3 = stageBits p.stage := by
    ext k hk
    rw [BitVec.getElem_extractLsb', penvStatusWord]
    repeat rw [BitVec.getLsbD_append]
    simp [hk]
  rw [hstage]
  unfold penvStatusWord
  refine ⟨stageBits_toNat p.stage, ?_, ?_, ?_⟩
  case refine_3 =>
    ext k hk
    rw [BitVec.getElem_extractLsb']
    repeat rw [BitVec.getLsbD_append, if_neg (by omega)]
    simp
  all_goals
    repeat rw [BitVec.getLsbD_append]
    simp

end Sys2Proof.Machine

/-! SUPPORT. The state after reset (spec/10_state.md R101), and envelope and voice activity in terms of the live bytes (R86, R87). -/

namespace Sys2Proof.Machine

/-! ## Reset (R101) -/

/-- The state after reset holds the values of R101's list; every voice and operator is the one reset voice and operator. -/
theorem resetValues_reset : ResetValues State.reset := by
  have hvoice : ∀ v : Fin 8, State.reset.voices[v] = Voice.reset := fun v => by simp [State.reset, State.resetOf]
  have hop : ∀ (v : Fin 8) (i : Fin 6), State.reset.voices[v].ops[i] = Operator.reset := fun v i => by
    rw [hvoice]
    simp [Voice.reset]
  exact {
    configured := rfl
    status := rfl
    rdata := rfl
    out := rfl
    params := fun _ => rfl
    vbuf := fun _ => rfl
    counter := rfl
    age := fun v => by rw [hvoice]; rfl
    note := fun v => by rw [hvoice]; exact ⟨rfl, rfl⟩
    operator := fun v i => by rw [hop]; exact ⟨rfl, rfl, rfl, rfl⟩
    oscillator := fun v i => by rw [hop]; exact ⟨rfl, rfl⟩
    envelope := fun v i => by rw [hop]; rfl
    pitchEnvelope := fun v => by rw [hvoice]; rfl
    lfo := rfl }

/-- R101's list is about the state elements, not about the events that are still pending. -/
theorem ResetValues.with_events {s : State} (h : ResetValues s) (rest : List Event) :
    ResetValues { s with events := rest } :=
  ⟨h.configured, h.status, h.rdata, h.out, h.params, h.vbuf, h.counter, h.age, h.note, h.operator, h.oscillator,
    h.envelope, h.pitchEnvelope, h.lfo⟩

/-! ## Activity (R86, R87) -/

/-- env_active with its byte written out: L4 is the byte at 0x20 * i + 0x09, clamped to 99 (R58, R86, R152). -/
theorem envActive_iff (c : Bool) (P : Memory) (i : Fin 6) (e : Envelope) :
    envActive c P i e = true ↔ c = true ∧ e.armed = true ∧
      (stageCode e.stage < 4 ∨ 0 < min (Memory.read P (0x20 * i.val + 0x09)).toNat 99) := by
  have hstage : (e.stage != .idle) = true ↔ stageCode e.stage < 4 := by cases e.stage <;> simp [stageCode]
  have hl4 : opParam P i (.l 3) = min (Memory.read P (0x20 * i.val + 0x09)).toNat 99 := rfl
  rw [envActive, Bool.and_eq_true, Bool.and_eq_true, Bool.or_eq_true, hstage, decide_eq_true_iff, hl4, and_assoc]

/-- ENABLED as a boolean is its byte at 0x20 * i not being 0 (R152, R153). -/
theorem opFlag_enabled_iff (P : Memory) (i : Fin 6) :
    opFlag P i .enabled = true ↔ Memory.read P (0x20 * i.val) ≠ 0#8 := by
  have hraw : rawOp P i .enabled = (Memory.read P (0x20 * i.val)).toNat := rfl
  rw [opFlag, hraw, bne_iff_ne, ne_eq, ne_eq, BitVec.toNat_eq]
  rfl

/-- An active voice has an armed envelope (R86, R87). -/
theorem armed_of_activeIn {s : State} {v : Fin 8} (h : activeIn s v = true) :
    ∃ i : Fin 6, s.voices[v].ops[i].env.armed = true := by
  obtain ⟨i, -, hi⟩ := (voiceActive_iff _ _ _).mp h
  obtain ⟨-, harmed, -⟩ := (envActive_iff _ _ _ _).mp hi
  exact ⟨i, harmed⟩

end Sys2Proof.Machine

/-! SUPPORT. The ages of the voices (spec/10_state.md R64, R92): each operation on the voices keeps `AgesOrdered`, as long as the counter is
below its last value. -/

namespace Sys2Proof.Machine

/-! ## What a tick, a trigger and a release leave of the armed bits -/

/-- An envelope's step leaves its armed bit (R307). -/
theorem envStep_armed (T : Rom) (P : Memory) (i : Fin 6) (e : Envelope) : (envStep T P i e).1.armed = e.armed := by
  have hint : ∀ e : Envelope, (envIntegrate T P i e).armed = e.armed := by
    intro e
    rcases envIntegrate_cases T P i e with ⟨-, h⟩ | ⟨-, -, -, h⟩ | ⟨-, -, -, -, h⟩ | ⟨-, -, -, -, h⟩ <;> simp [h]
  have hcount : (envCountdown T P i e).armed = e.armed := by
    rcases envCountdown_cases T P i e with ⟨-, h⟩ | ⟨-, -, h⟩ | ⟨-, h⟩ <;> simp [h]
  exact (hint _).trans hcount

theorem opStep_armed (T : Rom) (P : Memory) (i : Fin 6) (pm pmod amod : F32) (fb : Bool) (o : Operator) :
    (opStep T P i pm pmod amod fb o).1.env.armed = o.env.armed := by
  rcases opStep_cases T P i pm pmod amod fb o with ⟨-, h⟩ | ⟨-, y, h⟩ <;> rw [h]
  exact envStep_armed T P i o.env

/-- A tick leaves the operators of a voice, or makes one pass over them (R510, R520). -/
theorem tick_ops_cases (T : Rom) (s : State) (v : Fin 8) :
    (tick T s).voices[v].ops = s.voices[v].ops ∨
    ∃ pmod amod, (tick T s).voices[v].ops = (algStep T s.params pmod amod s.voices[v].ops).ops := by
  cases hc : s.configured with
  | false => exact .inl (by rw [tick_unconfigured hc])
  | true =>
    rw [tick_voice hc, voiceTurn]
    split
    · exact .inr ⟨_, _, rfl⟩
    · exact .inl rfl

/-- A tick arms no envelope. -/
theorem tick_armed {T : Rom} {s : State} {v : Fin 8} {i : Fin 6} (h : (tick T s).voices[v].ops[i].env.armed = true) :
    s.voices[v].ops[i].env.armed = true := by
  rcases tick_ops_cases T s v with e | ⟨pmod, amod, e⟩ <;> rw [e] at h
  · exact h
  · exact algStep_ops_induction T s.params
      (Q := fun j o => o.env.armed = true → s.voices[v].ops[j].env.armed = true)
      (fun j pm pmod amod fb o ho h' => ho (by rwa [opStep_armed] at h')) pmod amod _ (fun _ h' => h') i h

@[simp] theorem opRelease_armed (T : Rom) (P : Memory) (i : Fin 6) (o : Operator) :
    (opRelease T P i o).env.armed = o.env.armed := by
  unfold opRelease envRelease
  dsimp only
  split <;> simp

/-! ## Operations that start no voice -/

/-- An operation that keeps the counter and the ages and arms no envelope keeps the ages ordered. -/
theorem AgesOrdered.of_armed {s t : State} (h : AgesOrdered s) (hc : t.counter = s.counter)
    (ha : ∀ v : Fin 8, t.voices[v].age = s.voices[v].age)
    (harm : ∀ (v : Fin 8) (i : Fin 6), t.voices[v].ops[i].env.armed = true → s.voices[v].ops[i].env.armed = true) :
    AgesOrdered t where
  le_counter v := by rw [ha, hc]; exact h.le_counter v
  distinct v w hvw e := by rw [ha, ha] at e; rw [ha]; exact h.distinct v w hvw e
  armed_started v i e := by rw [ha]; exact h.armed_started v i (harm v i e)

/-- Whether the ages are ordered depends on the counter and the voices alone. -/
theorem AgesOrdered.of_same {s t : State} (h : AgesOrdered s) (hc : t.counter = s.counter) (hv : t.voices = s.voices) :
    AgesOrdered t :=
  h.of_armed hc (fun v => by rw [hv]) (fun v i e => by rwa [hv] at e)

theorem AgesOrdered.after_tick {s : State} (h : AgesOrdered s) (T : Rom) : AgesOrdered (tick T s) :=
  h.of_armed (tick_counter T s) (fun v => (tick_voice_fields T s v).2.2) fun _ _ => tick_armed

theorem AgesOrdered.after_releaseAll {s : State} (h : AgesOrdered s) (T : Rom) : AgesOrdered (releaseAll T s) :=
  h.of_armed rfl (fun v => by rw [releaseAll_voice]; rfl) fun v i e => by
    rwa [releaseAll_voice, voiceNoteOff_op, opRelease_armed] at e

theorem AgesOrdered.after_releaseVoice {s : State} (h : AgesOrdered s) (T : Rom) (v : Fin 8) :
    AgesOrdered (updateVoice v (voiceNoteOff T s.params) s) := by
  have hw : ∀ w : Fin 8, (updateVoice v (voiceNoteOff T s.params) s).voices[w].age = s.voices[w].age ∧
      ∀ i : Fin 6, (updateVoice v (voiceNoteOff T s.params) s).voices[w].ops[i].env.armed =
        s.voices[w].ops[i].env.armed := by
    intro w
    by_cases hwv : w = v
    · subst hwv
      rw [updateVoice_same]
      exact ⟨rfl, fun i => by rw [voiceNoteOff_op, opRelease_armed]⟩
    · rw [updateVoice_other hwv]
      exact ⟨rfl, fun _ => rfl⟩
  exact h.of_armed rfl (fun w => (hw w).1) fun w i e => by rwa [(hw w).2 i] at e

/-! ## Starting a note -/

/-- A started voice has the new counter value for its age. -/
theorem startNote_age_same (T : Rom) (v : Fin 8) (note vel : BitVec 7) (s : State) :
    (startNote T v note vel s).voices[v].age = nextCounter s.counter := by
  rw [startNote_same]
  rfl

/-- Starting a voice keeps the ages ordered: its age is above every other, and not 0. -/
theorem AgesOrdered.after_startNote {s : State} (h : AgesOrdered s) (hc : s.counter ≠ BitVec.allOnes 64) (T : Rom)
    (v : Fin 8) (note vel : BitVec 7) : AgesOrdered (startNote T v note vel s) := by
  have hnext := nextCounter_toNat hc
  have hne0 : nextCounter s.counter ≠ 0#64 := fun e => by simp [e] at hnext
  have hother : ∀ w : Fin 8, w ≠ v → (startNote T v note vel s).voices[w] = s.voices[w] :=
    fun w hw => startNote_other T hw note vel s
  have hlt : ∀ w : Fin 8, w ≠ v → (startNote T v note vel s).voices[w].age ≠ nextCounter s.counter := by
    intro w hw e
    rw [hother w hw] at e
    have hle := BitVec.le_def.mp (h.le_counter w)
    rw [e] at hle
    omega
  have hage := startNote_age_same T v note vel s
  refine ⟨fun w => ?_, fun w x hwx e => ?_, fun w i e => ?_⟩
  · rw [startNote_counter]
    by_cases hw : w = v
    · subst hw
      rw [hage]
      exact BitVec.le_refl _
    · rw [hother w hw]
      have hle := BitVec.le_def.mp (h.le_counter w)
      exact BitVec.le_def.mpr (by omega)
  · by_cases hw : w = v
    · subst hw
      exact absurd (e.symm.trans hage) (hlt x hwx.symm)
    · by_cases hx : x = v
      · subst hx
        exact absurd (e.trans hage) (hlt w hw)
      · rw [hother w hw, hother x hx] at e
        rw [hother w hw]
        exact h.distinct w x hwx e
  · by_cases hw : w = v
    · subst hw
      rw [hage]
      exact hne0
    · rw [hother w hw] at e ⊢
      exact h.armed_started w i e

/-! ## The note commands and reset -/

theorem AgesOrdered.after_synthNoteOn {s : State} (h : AgesOrdered s) (hc : s.counter ≠ BitVec.allOnes 64) (T : Rom)
    (note vel : BitVec 7) : AgesOrdered (synthNoteOn T note vel s) := by
  rcases synthNoteOn_cases T note vel s with ⟨-, e⟩ | ⟨-, f, -, ⟨-, e⟩ | ⟨-, e⟩⟩ | ⟨-, -, e⟩ <;> rw [e]
  · have hrel : AgesOrdered (triggerLfo T (releaseAll T s)) := (h.after_releaseAll T).of_same rfl rfl
    exact hrel.after_startNote hc T 0 note vel
  · exact (h.after_startNote hc T f note vel).of_same rfl rfl
  · exact h.after_startNote hc T f note vel
  · exact (h.after_releaseVoice T (oldestVoice s)).after_startNote hc T (oldestVoice s) note vel

theorem AgesOrdered.after_synthNoteOff {s : State} (h : AgesOrdered s) (T : Rom) (note : BitVec 7) :
    AgesOrdered (synthNoteOff T note s) := by
  rcases synthNoteOff_cases T note s with ⟨v, -, e⟩ | ⟨-, e⟩ <;> rw [e]
  · exact h.after_releaseVoice T v
  · exact h

/-- After reset every age is 0 and no envelope is armed. -/
theorem AgesOrdered.after_hardwareReset (T : Rom) (s : State) : AgesOrdered (hardwareReset T s) := by
  have hv : ∀ v : Fin 8, (hardwareReset T s).voices[v] = Voice.reset := fun v => by simp [State.resetOf]
  refine ⟨fun v => ?_, fun v _ _ _ => by rw [hv]; rfl, fun v i e => ?_⟩
  · rw [hv]
    exact BitVec.le_refl _
  · rw [hv] at e
    simp [Voice.reset, Operator.reset, Envelope.reset] at e

/-! ## Active voices -/

/-- With ordered ages an active voice has been started. -/
theorem AgesOrdered.age_ne_zero {s : State} (h : AgesOrdered s) {v : Fin 8} (hv : activeIn s v = true) :
    s.voices[v].age ≠ 0#64 := by
  obtain ⟨i, hi⟩ := armed_of_activeIn hv
  exact h.armed_started v i hi

end Sys2Proof.Machine

/-! SUPPORT. The feedback memory prevOut (spec/10_state.md R91): only the step of the feedback operator writes it. -/

namespace Sys2Proof.Machine

/-! ## Operators and the pass over them -/

/-- An operator that steps in the ordinary variant keeps prevOut (R400). -/
theorem opStep_prevOut (T : Rom) (P : Memory) (i : Fin 6) (pm pmod amod : F32) (o : Operator) :
    (opStep T P i pm pmod amod false o).1.prevOut = o.prevOut := by
  rcases opStep_cases T P i pm pmod amod false o with ⟨-, h⟩ | ⟨-, y, h⟩ <;> rw [h]
  rfl

/-- One turn of the pass changes prevOut of no core but the feedback operator. -/
theorem algTurn_prevOut (T : Rom) (P : Memory) (pmod amod : F32) (s : AlgPass) (k : Fin 6) {i : Fin 6}
    (h : algIsFb (selectedAlgorithm T P) i = false) :
    (algTurn T P pmod amod s k).ops[i].prevOut = s.ops[i].prevOut := by
  by_cases hik : i = k
  · subst hik
    simpa [algTurn, h] using opStep_prevOut T P i _ pmod amod s.ops[i]
  · rw [algTurn_ops_other T P pmod amod s hik]

/-- The pass changes prevOut of no core but the feedback operator (R441). -/
theorem algStep_prevOut (T : Rom) (P : Memory) (pmod amod : F32) (ops : Vector Operator 6) {i : Fin 6}
    (h : algIsFb (selectedAlgorithm T P) i = false) : (algStep T P pmod amod ops).ops[i].prevOut = ops[i].prevOut := by
  have hfold : ∀ (l : List (Fin 6)) (s : AlgPass),
      (l.foldl (algTurn T P pmod amod) s).ops[i].prevOut = s.ops[i].prevOut := by
    intro l
    induction l with
    | nil => exact fun _ => rfl
    | cons k l ih => exact fun s => (ih _).trans (algTurn_prevOut T P pmod amod s k h)
  exact hfold _ _

/-- A tick changes prevOut of no core but the feedback operator of the selected algorithm. -/
theorem tick_prevOut (T : Rom) (s : State) (v : Fin 8) {i : Fin 6}
    (h : algIsFb (selectedAlgorithm T s.params) i = false) :
    (tick T s).voices[v].ops[i].prevOut = s.voices[v].ops[i].prevOut := by
  rcases tick_ops_cases T s v with e | ⟨pmod, amod, e⟩ <;> rw [e]
  exact algStep_prevOut T s.params pmod amod _ h

/-! ## The note commands -/

/-- A release keeps prevOut, in whichever voice. -/
theorem releaseVoice_prevOut (T : Rom) (v : Fin 8) (s : State) (w : Fin 8) (i : Fin 6) :
    (updateVoice v (voiceNoteOff T s.params) s).voices[w].ops[i].prevOut = s.voices[w].ops[i].prevOut := by
  by_cases hw : w = v
  · subst hw
    rw [updateVoice_same, voiceNoteOff_op]
    rfl
  · rw [updateVoice_other hw]

theorem releaseAll_prevOut (T : Rom) (s : State) (w : Fin 8) (i : Fin 6) :
    (releaseAll T s).voices[w].ops[i].prevOut = s.voices[w].ops[i].prevOut := by
  rw [releaseAll_voice, voiceNoteOff_op]
  rfl

/-- Starting a note keeps prevOut (R390). -/
theorem startNote_prevOut (T : Rom) (v : Fin 8) (note vel : BitVec 7) (s : State) (w : Fin 8) (i : Fin 6) :
    (startNote T v note vel s).voices[w].ops[i].prevOut = s.voices[w].ops[i].prevOut := by
  by_cases hw : w = v
  · subst hw
    rw [startNote_same, voiceNoteOn_op]
    rfl
  · rw [startNote_other T hw]

theorem synthNoteOn_prevOut (T : Rom) (note vel : BitVec 7) (s : State) (w : Fin 8) (i : Fin 6) :
    (synthNoteOn T note vel s).voices[w].ops[i].prevOut = s.voices[w].ops[i].prevOut := by
  rcases synthNoteOn_cases T note vel s with ⟨-, e⟩ | ⟨-, f, -, ⟨-, e⟩ | ⟨-, e⟩⟩ | ⟨-, -, e⟩ <;> rw [e]
  · rw [startNote_prevOut, triggerLfo_voices, releaseAll_prevOut]
  · rw [triggerLfo_voices, startNote_prevOut]
  · rw [startNote_prevOut]
  · rw [stealVoice, startNote_prevOut, releaseVoice_prevOut]

theorem synthNoteOff_prevOut (T : Rom) (note : BitVec 7) (s : State) (w : Fin 8) (i : Fin 6) :
    (synthNoteOff T note s).voices[w].ops[i].prevOut = s.voices[w].ops[i].prevOut := by
  rcases synthNoteOff_cases T note s with ⟨v, -, e⟩ | ⟨-, e⟩ <;> rw [e]
  exact releaseVoice_prevOut T v s w i

end Sys2Proof.Machine

/-! SUPPORT. What one event does, said once: the effect of every accepted command as a function of the state, the step of each
event in terms of it, and what every command leaves unchanged.

Style: an equivalence of this text is applied as `Iff.mp foo h`, not as `foo.mp h`. To resolve the dotted name Lean waits for the
proof of `foo`, and each such wait costs a thread while the `decide +kernel` tests above are still waiting for the kernel. -/

namespace Sys2Proof.Machine

/-! ## Words without operands -/

/-- A word of format N is its opcode above 24 zero bits (R201). -/
theorem toNat_of_reservedN {w : Word} (h : w &&& formatReserved .N = 0) :
    w.toNat = (wordOpcode w).toNat * 2 ^ 24 := by
  have hlow : w.toNat % 2 ^ 24 = 0 := by
    rw [← Nat.and_two_pow_sub_one_eq_mod]
    exact congrArg BitVec.toNat h
  have hop : (wordOpcode w).toNat = w.toNat / 2 ^ 24 % 2 ^ 8 := by
    rw [wordOpcode, BitVec.extractLsb'_toNat, Nat.shiftRight_eq_div_pow]
  have hlt := w.isLt
  omega

/-- The reserved-bit check passes exactly the words without a reserved bit set, and gives its own command. -/
theorem checkReserved_eq_ok {f : Format} {w : Word} {i j : Instr} :
    checkReserved f w i = .ok j ↔ w &&& formatReserved f = 0 ∧ i = j := by
  unfold checkReserved
  split
  · rename_i h
    simp [h]
  · rename_i h
    exact iff_of_false (by simp) fun h' => h h'.1

/-- A word that decodes to CONFIGURE or STATUS_CLEAR is the word of that command, since all its other bits are reserved. -/
theorem encode_of_decode_noOperand {w : Word} {i : Instr} (hi : i = .configure ∨ i = .statusClear)
    (h : decode w = .ok i) : encode i = w := by
  unfold decode at h
  rcases hi with rfl | rfl <;> split at h <;>
    simp only [checkReserved_eq_ok, reduceCtorEq, and_false, and_true] at h
  all_goals
    rename_i hop
    exact BitVec.eq_of_toNat_eq ((toNat_of_reservedN h).trans (congrArg (· * 2 ^ 24) hop)).symm

/-- Only 0x07000000 is CONFIGURE (R590). -/
theorem decode_eq_configure {w : Word} : decode w = .ok .configure ↔ w = 0x07000000#32 :=
  ⟨fun h => (encode_of_decode_noOperand (.inl rfl) h).symm, by rintro rfl; rfl⟩

/-- Only 0x08000000 is STATUS_CLEAR (R592). -/
theorem decode_eq_statusClear {w : Word} : decode w = .ok .statusClear ↔ w = 0x08000000#32 :=
  ⟨fun h => (encode_of_decode_noOperand (.inr rfl) h).symm, by rintro rfl; rfl⟩

/-! ## Commands as state functions -/

/-- What a command does to the state once its operand is accepted (spec/30_encoding.md R205, "execute rule(op)"). -/
def commandEffect (i : Instr) (s : State) : State :=
  match i with
  | .nop => s
  | .noteOn note vel => if s.configured then synthNoteOn rom note vel s else s
  | .noteOff note => if s.configured then synthNoteOff rom note s else s
  | .setAlgorithm value => writeParam (globalAddr .algorithm) value s
  | .setFeedback value => writeParam (globalAddr .feedback) value s
  | .setOscKeySync b => { s with params := Memory.writeAll s.params (oscKeySyncWrites (b.setWidth 8)) }
  | .setMono b => writeParam (globalAddr .mono) (b.setWidth 8) s
  | .configure => { s with configured := true }
  | .statusClear => { s with cmdErr := false, errCode := 0#4 }
  | .paramWrite addr data => writeParam addr.toNat data s
  | .paramRead addr => { s with rdata := (Memory.read s.params addr.toNat).setWidth 32 }
  | .vbufWrite offset data => { s with vbuf := Memory.write s.vbuf offset.toNat data }
  | .voiceLoad => { s with params := Memory.writeAll s.params (voiceLoadWrites s.vbuf) }
  | .regRead reg => readReg reg.toNat s

/-! One equation per command. -/

section
variable (s : State)

@[simp] theorem commandEffect_nop : commandEffect .nop s = s := rfl
@[simp] theorem commandEffect_noteOn (note vel : BitVec 7) :
    commandEffect (.noteOn note vel) s = if s.configured then synthNoteOn rom note vel s else s := rfl
@[simp] theorem commandEffect_noteOff (note : BitVec 7) :
    commandEffect (.noteOff note) s = if s.configured then synthNoteOff rom note s else s := rfl
@[simp] theorem commandEffect_setAlgorithm (value : Byte) :
    commandEffect (.setAlgorithm value) s = writeParam (globalAddr .algorithm) value s := rfl
@[simp] theorem commandEffect_setFeedback (value : Byte) :
    commandEffect (.setFeedback value) s = writeParam (globalAddr .feedback) value s := rfl
@[simp] theorem commandEffect_setOscKeySync (b : BitVec 1) :
    commandEffect (.setOscKeySync b) s =
      { s with params := Memory.writeAll s.params (oscKeySyncWrites (b.setWidth 8)) } := rfl
@[simp] theorem commandEffect_setMono (b : BitVec 1) :
    commandEffect (.setMono b) s = writeParam (globalAddr .mono) (b.setWidth 8) s := rfl
@[simp] theorem commandEffect_configure : commandEffect .configure s = { s with configured := true } := rfl
@[simp] theorem commandEffect_statusClear :
    commandEffect .statusClear s = { s with cmdErr := false, errCode := 0#4 } := rfl
@[simp] theorem commandEffect_paramWrite (addr data : Byte) :
    commandEffect (.paramWrite addr data) s = writeParam addr.toNat data s := rfl
@[simp] theorem commandEffect_paramRead (addr : Byte) :
    commandEffect (.paramRead addr) s = { s with rdata := (Memory.read s.params addr.toNat).setWidth 32 } := rfl
@[simp] theorem commandEffect_vbufWrite (offset data : Byte) :
    commandEffect (.vbufWrite offset data) s = { s with vbuf := Memory.write s.vbuf offset.toNat data } := rfl
@[simp] theorem commandEffect_voiceLoad :
    commandEffect .voiceLoad s = { s with params := Memory.writeAll s.params (voiceLoadWrites s.vbuf) } := rfl
@[simp] theorem commandEffect_regRead (reg : Byte) : commandEffect (.regRead reg) s = readReg reg.toNat s := rfl

end

/-- REG[n] goes to S.rdata where `n` is mapped, and S.rdata is kept where it is not. -/
theorem readReg_eq (n : Nat) (s : State) : readReg n s = { s with rdata := (regOf n).elim s.rdata (regValue s) } := by
  rw [readReg]
  cases regOf n <;> rfl

/-- Every command completes: its operand check, then its effect. -/
theorem exec_eq (i : Instr) (s : State) : exec i s = .next (checkOperand i s (commandEffect i s)) := by
  cases i with
  | noteOn note vel => exact (apply_ite Host.Outcome.next (s.configured = true) _ _).symm
  | noteOff note => exact (apply_ite Host.Outcome.next (s.configured = true) _ _).symm
  | _ => rfl

/-- A command is rejected by its operand check, or has its effect. -/
theorem exec_cases {i : Instr} {s t : State} (h : exec i s = .next t) :
    (∃ c, operandReject i = some c ∧ t = rejectCommand c s) ∨ (WellFormed i ∧ t = commandEffect i s) := by
  obtain rfl := Host.Outcome.next.inj ((exec_eq i s).symm.trans h)
  exact checkOperand_cases i s (commandEffect i s)

/-- A command with an accepted operand has its effect. -/
theorem exec_of_wellFormed {i : Instr} (h : WellFormed i) (s : State) : exec i s = .next (commandEffect i s) := by
  rcases exec_cases (exec_eq i s) with ⟨c, hc, -⟩ | ⟨-, e⟩
  · exact absurd (hc.symm.trans h) (Option.some_ne_none c)
  · rw [exec_eq, e]

/-- A command with a bad operand is rejected. -/
theorem exec_of_reject {i : Instr} {c : RejectCode} (h : operandReject i = some c) (s : State) :
    exec i s = .next (rejectCommand c s) := by
  rcases exec_cases (exec_eq i s) with ⟨d, hd, e⟩ | ⟨hwf, -⟩
  · rw [exec_eq, e, Option.some.inj (hd.symm.trans h)]
  · exact absurd (h.symm.trans hwf) (Option.some_ne_none c)

/-- A property of states that NOTE_ON and NOTE_OFF keep, and that depends on the counter and the voices alone, is kept by every
command. -/
theorem commandEffect_induction {Q : State → Prop} {s : State} (h : Q s)
    (hon : ∀ note vel, Q (synthNoteOn rom note vel s)) (hoff : ∀ note, Q (synthNoteOff rom note s))
    (hsame : ∀ t : State, t.counter = s.counter → t.voices = s.voices → Q t) (i : Instr) : Q (commandEffect i s) := by
  cases i with
  | noteOn note vel =>
    rw [commandEffect_noteOn]
    split
    · exact hon note vel
    · exact h
  | noteOff note =>
    rw [commandEffect_noteOff]
    split
    · exact hoff note
    · exact h
  | _ => exact hsame _ (by simp) (by simp)

/-! ## Operand checks -/

theorem not_wellFormed_of_reject {i : Instr} {c : RejectCode} (h : operandReject i = some c) : ¬ WellFormed i := by
  rw [WellFormed, h]
  exact Option.some_ne_none c

/-- An operand check accepts exactly the operands that pass its test. -/
theorem operandCheck_eq_none {b : Bool} {c : RejectCode} : (if b then none else some c) = none ↔ b = true := by
  cases b <;> simp

theorem wellFormed_paramRead {addr : Byte} : WellFormed (.paramRead addr) ↔ paramMapped addr.toNat = true :=
  operandCheck_eq_none

theorem wellFormed_vbufWrite {offset data : Byte} : WellFormed (.vbufWrite offset data) ↔ offset.toNat < 128 :=
  Iff.trans operandCheck_eq_none decide_eq_true_iff

theorem wellFormed_regRead {reg : Byte} : WellFormed (.regRead reg) ↔ ∃ r, regOf reg.toNat = some r :=
  Iff.trans operandCheck_eq_none Option.isSome_iff_exists

/-! ## REG_READ -/

/-- A mapped register number reads its register into S.rdata, and nothing else changes (R604). -/
theorem exec_regRead_of_mapped {reg : Byte} {r : Reg} (h : regOf reg.toNat = some r) (s : State) :
    exec (.regRead reg) s = .next { s with rdata := regValue s r } := by
  have hwf : WellFormed (.regRead reg) := Iff.mpr wellFormed_regRead ⟨r, h⟩
  rw [exec_of_wellFormed hwf, commandEffect_regRead, readReg_eq, h, Option.elim_some]

/-- An unmapped register number is rejected with code 5 (R604, R631). -/
theorem exec_regRead_of_unmapped {reg : Byte} (h : regOf reg.toNat = none) (s : State) :
    exec (.regRead reg) s = .next { s with cmdErr := true, errCode := 5#4 } := by
  have hr : operandReject (.regRead reg) = some .regUnmapped := if_neg (by simp [h])
  exact exec_of_reject hr s

/-- REG_READ of a register's number reads that register. -/
theorem exec_regRead_regNumber (r : Reg) (s : State) :
    exec (.regRead (BitVec.ofNat 8 (regNumber r))) s = .next { s with rdata := regValue s r } :=
  exec_regRead_of_mapped (regOf_regNumber r) s

/-! ## The step of each event -/

theorem commandReject_of_error {w : Word} {c : RejectCode} (h : decode w = .error c) : commandReject w = some c := by
  delta commandReject
  rw [h]

theorem commandReject_of_ok {w : Word} {i : Instr} (h : decode w = .ok i) : commandReject w = operandReject i := by
  delta commandReject
  rw [h]

/-- The step of an event: a tick, a reset, or a command word, which the decoder rejects, or whose operand is rejected, or whose
command has its effect. -/
theorem step_event_cases {s t : State} {e : Event} {rest : List Event} (he : s.events = e :: rest)
    (h : step s = .next t) :
    (e = .tick ∧ t = tick rom { s with events := rest }) ∨
    (e = .reset ∧ t = hardwareReset rom { s with events := rest }) ∨
    (∃ w c, e = .command w ∧ decode w = .error c ∧ t = rejectCommand c { s with events := rest }) ∨
    (∃ w i c, e = .command w ∧ decode w = .ok i ∧ operandReject i = some c ∧
      t = rejectCommand c { s with events := rest }) ∨
    (∃ w i, e = .command w ∧ decode w = .ok i ∧ WellFormed i ∧ t = commandEffect i { s with events := rest }) := by
  rcases step_cases h with ⟨h0, -⟩ | ⟨r, h0, ht⟩ | ⟨r, h0, ht⟩ | ⟨w, r, c, h0, hd, ht⟩ | ⟨w, r, i, h0, hd, hx⟩ <;>
    rw [he] at h0 <;> cases h0
  · exact .inl ⟨rfl, ht⟩
  · exact .inr (.inl ⟨rfl, ht⟩)
  · exact .inr (.inr (.inl ⟨w, c, rfl, hd, ht⟩))
  · rcases exec_cases hx with ⟨c, hr, ht⟩ | ⟨hwf, ht⟩
    · exact .inr (.inr (.inr (.inl ⟨w, i, c, rfl, hd, hr, ht⟩)))
    · exact .inr (.inr (.inr (.inr ⟨w, i, rfl, hd, hwf, ht⟩)))

end Sys2Proof.Machine

/-! SUPPORT. Who writes STATUS, S.rdata, S.configured and the voice buffer (spec/10_state.md R53, R54, R55, R63): one lemma per field
about the effect of a command, then the statement for every step. -/

namespace Sys2Proof.Machine

/-! ## CMD_ERR and ERR_CODE (R53) -/

/-- Of the accepted commands only STATUS_CLEAR writes CMD_ERR and ERR_CODE. -/
theorem commandEffect_status {i : Instr} (h : i ≠ .statusClear) (s : State) :
    (commandEffect i s).cmdErr = s.cmdErr ∧ (commandEffect i s).errCode = s.errCode := by
  cases i with
  | statusClear => exact absurd rfl h
  | noteOn note vel => rw [commandEffect_noteOn]; split <;> simp
  | noteOff note => rw [commandEffect_noteOff]; split <;> simp
  | _ => simp

/-- Settles O13, by the kind of event and, for a word, by what the checks of R205 make of it. -/
theorem statusBitsAndWriters : Obligations.StatusBitsAndWriters := by
  refine ⟨fun s => ?_, rfl, fun s t e rest he hs => ?_⟩
  · obtain ⟨h0, h1, h2, h4, h8⟩ := statusWord_bits s
    exact ⟨h0, h1, h2, h4, h8, exec_regRead_regNumber .status s⟩
  rcases step_event_cases he hs with ⟨rfl, rfl⟩ | ⟨rfl, rfl⟩ | ⟨w, c, rfl, hd, rfl⟩ | ⟨w, i, c, rfl, hd, hr, rfl⟩ |
    ⟨w, i, rfl, hd, hwf, rfl⟩
  · exact ⟨tick_cmdErr _ _, tick_errCode _ _⟩
  · exact ⟨rfl, rfl⟩
  · dsimp only
    rw [commandReject_of_error hd]
    exact ⟨rfl, rfl⟩
  · dsimp only
    rw [commandReject_of_ok hd, hr]
    exact ⟨rfl, rfl⟩
  · dsimp only
    rw [commandReject_of_ok hd, hwf]
    dsimp only
    by_cases hi : i = .statusClear
    · subst hi
      rw [if_pos (Iff.mp decode_eq_statusClear hd)]
      exact ⟨rfl, rfl⟩
    · have hw : w ≠ 0x08000000#32 := fun hw => hi (by
        rw [Iff.mpr decode_eq_statusClear hw] at hd
        exact (Except.ok.inj hd).symm)
      rw [if_neg hw]
      exact commandEffect_status hi _

/-! ## S.rdata (R54) -/

/-- Only the two read commands write S.rdata. -/
theorem commandEffect_rdata {i : Instr} (hp : ∀ addr, i ≠ .paramRead addr) (hr : ∀ reg, i ≠ .regRead reg) (s : State) :
    (commandEffect i s).rdata = s.rdata := by
  cases i with
  | paramRead addr => exact absurd rfl (hp addr)
  | regRead reg => exact absurd rfl (hr reg)
  | noteOn note vel => rw [commandEffect_noteOn]; split <;> simp
  | noteOff note => rw [commandEffect_noteOff]; split <;> simp
  | _ => simp

/-- Settles O14, by the kind of event; a read's operand check decides between its result and the old value. -/
theorem rdataHoldsLastRead : Obligations.RdataHoldsLastRead := by
  intro s t e rest he hs
  rcases step_event_cases he hs with ⟨rfl, rfl⟩ | ⟨rfl, rfl⟩ | ⟨w, c, rfl, hd, rfl⟩ | ⟨w, i, c, rfl, hd, hr, rfl⟩ |
    ⟨w, i, rfl, hd, hwf, rfl⟩
  · exact tick_rdata _ _
  · rfl
  · dsimp only
    rw [hd]
    rfl
  · dsimp only
    rw [hd]
    have hnot := not_wellFormed_of_reject hr
    cases i with
    | paramRead addr => exact (if_neg (hnot ∘ Iff.mpr wellFormed_paramRead)).symm
    | regRead reg =>
      dsimp only
      cases hm : regOf reg.toNat with
      | none => rfl
      | some r => exact absurd (Iff.mpr wellFormed_regRead ⟨r, hm⟩) hnot
    | _ => rfl
  · dsimp only
    rw [hd]
    cases i with
    | paramRead addr => exact (if_pos (Iff.mp wellFormed_paramRead hwf)).symm
    | regRead reg =>
      obtain ⟨r, hm⟩ := Iff.mp wellFormed_regRead hwf
      dsimp only
      rw [commandEffect_regRead, readReg_eq, hm]
      rfl
    | _ => exact commandEffect_rdata (fun _ => Instr.noConfusion) (fun _ => Instr.noConfusion) _

/-! ## S.configured (R55) -/

/-- Only CONFIGURE writes S.configured. -/
theorem commandEffect_configured (i : Instr) (s : State) :
    (commandEffect i s).configured = (s.configured || decide (i = .configure)) := by
  cases i with
  | noteOn note vel => rw [commandEffect_noteOn]; split <;> simp
  | noteOff note => rw [commandEffect_noteOff]; split <;> simp
  | _ => simp

/-- A word that is no accepted CONFIGURE is not CONFIGURE's word. -/
theorem word_ne_configure {w : Word} (h : decode w ≠ .ok .configure) : (w == 0x07000000#32) = false :=
  beq_false_of_ne fun hw => h (Iff.mpr decode_eq_configure hw)

/-- Settles O15, by the kind of event; the last part is the configured tests of the tick and of the note commands. -/
theorem configuredBitGatesBlock : Obligations.ConfiguredBitGatesBlock := by
  refine ⟨rfl, fun s t e rest he hs => ?_, fun s hc => ⟨tick_unconfigured hc, fun note vel => ?_, fun note => ?_⟩⟩
  · rcases step_event_cases he hs with ⟨rfl, rfl⟩ | ⟨rfl, rfl⟩ | ⟨w, c, rfl, hd, rfl⟩ | ⟨w, i, c, rfl, hd, hr, rfl⟩ |
      ⟨w, i, rfl, hd, hwf, rfl⟩
    · exact tick_configured _ _
    · rfl
    · dsimp only
      rw [word_ne_configure (by simp [hd]), Bool.or_false]
      rfl
    · dsimp only
      rw [word_ne_configure (by rw [hd]; rintro ⟨⟩; cases hr), Bool.or_false]
      rfl
    · dsimp only
      rw [commandEffect_configured]
      by_cases hi : i = .configure
      · subst hi
        simp [Iff.mp decode_eq_configure hd]
      · rw [word_ne_configure (by rw [hd]; exact fun h => hi (Except.ok.inj h)), decide_eq_false hi]
  · rw [exec_of_wellFormed rfl, commandEffect_noteOn, hc]
    rfl
  · rw [exec_of_wellFormed rfl, commandEffect_noteOff, hc]
    rfl

/-! ## The voice buffer (R63) -/

/-- Only VBUF_WRITE writes the voice buffer. -/
theorem commandEffect_vbuf {i : Instr} (h : ∀ offset data, i ≠ .vbufWrite offset data) (s : State) :
    (commandEffect i s).vbuf = s.vbuf := by
  cases i with
  | vbufWrite offset data => exact absurd rfl (h offset data)
  | noteOn note vel => rw [commandEffect_noteOn]; split <;> simp
  | noteOff note => rw [commandEffect_noteOff]; split <;> simp
  | _ => simp

/-- A tick reads nothing of the voice buffer. -/
theorem tick_withVbuf (T : Rom) (B : Memory) (s : State) : tick T { s with vbuf := B } = { tick T s with vbuf := B } := by
  unfold tick
  dsimp only
  split <;> rfl

/-- NOTE_ON reads nothing of the voice buffer: its three tests do not, nor does what it does in each case. -/
theorem synthNoteOn_withVbuf (T : Rom) (note vel : BitVec 7) (B : Memory) (s : State) :
    synthNoteOn T note vel { s with vbuf := B } = { synthNoteOn T note vel s with vbuf := B } := by
  have hfree : firstFree { s with vbuf := B } = firstFree s := rfl
  have hany : anyActive { s with vbuf := B } = anyActive s := rfl
  unfold synthNoteOn
  rw [hfree, hany]
  dsimp only
  split
  · rfl
  · split
    · split <;> rfl
    · rfl

theorem synthNoteOff_withVbuf (T : Rom) (note : BitVec 7) (B : Memory) (s : State) :
    synthNoteOff T note { s with vbuf := B } = { synthNoteOff T note s with vbuf := B } := by
  have hheld : heldVoice note { s with vbuf := B } = heldVoice note s := rfl
  unfold synthNoteOff
  rw [hheld]
  split <;> rfl

/-- No register shows the voice buffer. -/
theorem regValue_withVbuf (B : Memory) (s : State) : regValue { s with vbuf := B } = regValue s := by
  funext r
  cases r <;> rfl

/-- With another voice buffer, every command but VOICE_LOAD has the same effect outside the buffer. -/
theorem commandEffect_withVbuf {i : Instr} (h : i ≠ .voiceLoad) (B : Memory) (s : State) :
    ∃ B', commandEffect i { s with vbuf := B } = { commandEffect i s with vbuf := B' } := by
  cases i with
  | voiceLoad => exact absurd rfl h
  | vbufWrite offset data => exact ⟨Memory.write B offset.toNat data, rfl⟩
  | noteOn note vel =>
    refine ⟨B, ?_⟩
    rw [commandEffect_noteOn, commandEffect_noteOn, synthNoteOn_withVbuf]
    split <;> rfl
  | noteOff note =>
    refine ⟨B, ?_⟩
    rw [commandEffect_noteOff, commandEffect_noteOff, synthNoteOff_withVbuf]
    split <;> rfl
  | regRead reg =>
    refine ⟨B, ?_⟩
    rw [commandEffect_regRead, commandEffect_regRead, readReg_eq, readReg_eq, regValue_withVbuf]
  | _ => exact ⟨B, rfl⟩

/-- Settles O16: the buffer's one writer, by the kind of event, and the other buffer that no event but VOICE_LOAD notices. -/
theorem voiceBufferSeenOnlyByVoiceLoad : Obligations.VoiceBufferSeenOnlyByVoiceLoad := by
  refine ⟨fun o => decide_eq_true_iff, fun _ => rfl, fun s t e rest he hs => ?_, tick_withVbuf rom,
    fun B i s t hi hs => ?_⟩
  · rcases step_event_cases he hs with ⟨rfl, rfl⟩ | ⟨rfl, rfl⟩ | ⟨w, c, rfl, hd, rfl⟩ | ⟨w, i, c, rfl, hd, hr, rfl⟩ |
      ⟨w, i, rfl, hd, hwf, rfl⟩
    · exact tick_vbuf _ _
    · exact fun _ => rfl
    · dsimp only
      rw [hd]
      rfl
    · dsimp only
      rw [hd]
      cases i with
      | vbufWrite offset data => exact (if_neg (not_wellFormed_of_reject hr ∘ Iff.mpr wellFormed_vbufWrite)).symm
      | _ => rfl
    · dsimp only
      rw [hd]
      cases i with
      | vbufWrite offset data => exact (if_pos (Iff.mp wellFormed_vbufWrite hwf)).symm
      | _ => exact commandEffect_vbuf (fun _ _ => Instr.noConfusion) _
  · rcases exec_cases hs with ⟨c, hr, rfl⟩ | ⟨hwf, rfl⟩
    · exact ⟨B, exec_of_reject hr _⟩
    · obtain ⟨B', h⟩ := commandEffect_withVbuf hi B s
      exact ⟨B', (exec_of_wellFormed hwf _).trans (congrArg _ h)⟩

end Sys2Proof.Machine

/-! SUPPORT. The obligations about ages, prevOut, the registers, reset and activity, from the lemmas above. -/

namespace Sys2Proof.Machine

theorem AgesOrdered.after_commandEffect {s : State} (h : AgesOrdered s) (hc : s.counter ≠ BitVec.allOnes 64) (i : Instr) :
    AgesOrdered (commandEffect i s) :=
  commandEffect_induction h (h.after_synthNoteOn hc rom) (h.after_synthNoteOff rom) (fun _ => h.of_same) i

/-- Every step below the counter's last value keeps the ages ordered. -/
theorem AgesOrdered.after_step {s t : State} (h : AgesOrdered s) (hc : s.counter ≠ BitVec.allOnes 64) (hs : step s = .next t) :
    AgesOrdered t := by
  have hrest : ∀ rest : List Event, AgesOrdered { s with events := rest } := fun _ => h.of_same rfl rfl
  rcases step_cases hs with ⟨-, rfl⟩ | ⟨rest, -, rfl⟩ | ⟨rest, -, rfl⟩ | ⟨w, rest, c, -, -, rfl⟩ | ⟨w, rest, i, -, -, hx⟩
  · exact h
  · exact (hrest rest).after_tick rom
  · exact AgesOrdered.after_hardwareReset rom _
  · exact h.of_same rfl rfl
  · rcases exec_cases hx with ⟨c, -, rfl⟩ | ⟨-, rfl⟩
    · exact h.of_same rfl rfl
    · exact (hrest rest).after_commandEffect hc i

/-- Settles O45: every step keeps the ages ordered, and two active voices cannot share an age, since a shared age is 0 (R92). -/
theorem stepKeepsAgesOrdered : Obligations.StepKeepsAgesOrdered :=
  ⟨fun _ _ h hc hs => h.after_step hc hs,
    fun _ h => ⟨fun _ hv => h.age_ne_zero hv, fun v w hvw hv _ e => h.age_ne_zero hv (h.distinct v w hvw e)⟩⟩

/-- No command changes a prevOut. -/
theorem commandEffect_prevOut (i : Instr) (s : State) (v : Fin 8) (k : Fin 6) :
    (commandEffect i s).voices[v].ops[k].prevOut = s.voices[v].ops[k].prevOut :=
  commandEffect_induction (Q := fun t => t.voices[v].ops[k].prevOut = s.voices[v].ops[k].prevOut) rfl
    (fun note vel => synthNoteOn_prevOut rom note vel s v k) (fun note => synthNoteOff_prevOut rom note s v k)
    (fun t _ hv => by rw [hv]) i

/-- Settles O36: of the events other than reset only a tick can change a prevOut, and a tick only the feedback operator's. -/
theorem feedbackMemoryChangesOnlyInFeedbackOperator : Obligations.FeedbackMemoryChangesOnlyInFeedbackOperator := by
  intro s t v i hs hne
  rcases step_cases hs with ⟨-, rfl⟩ | ⟨rest, he, rfl⟩ | ⟨rest, he, -⟩ | ⟨w, rest, c, -, -, rfl⟩ | ⟨w, rest, j, -, -, hx⟩
  · exact absurd rfl hne
  · have hfb : algIsFb (selectedAlgorithm rom s.params) i = true := by
      by_contra hfb
      exact hne (tick_prevOut rom { s with events := rest } v (Bool.eq_false_of_not_eq_true hfb))
    obtain ⟨hhas, hop⟩ := Bool.and_eq_true_iff.mp hfb
    exact .inr ⟨⟨rest, he⟩, hhas, (beq_iff_eq.mp hop).symm⟩
  · exact .inl ⟨rest, he⟩
  · exact absurd rfl hne
  · rcases exec_cases hx with ⟨c, -, rfl⟩ | ⟨-, rfl⟩
    · exact absurd rfl hne
    · exact absurd (commandEffect_prevOut j _ v i) hne

/-- Settles O23: each listed number is the number of its register, and the rest are the gaps of the map. -/
theorem regReadGivesRegisterContents : Obligations.RegReadGivesRegisterContents := by
  intro s reads
  have read (r : Reg) : reads (regNumber r) (regValue s r) := exec_regRead_regNumber r s
  refine ⟨read .status, ⟨_, read .voiceActive, voiceBits_bits (activeIn s)⟩,
    ⟨_, read .voiceHeld, voiceBits_bits fun v => s.voices[v].held⟩,
    read .lastOut, read .ageCounterLo, read .ageCounterHi,
    fun v => ⟨read (.voiceNote v), read (.voiceAgeLo v), read (.voiceAgeHi v)⟩,
    read .lfoAmpMod, read .lfoPitchMod, read .lfoPhase, read .lfoDelay, read .lfoPrng, read .lfoHeld,
    fun v i => ⟨⟨_, read (.envStatus v i), envStatusWord_bits _ _ _ _⟩, read (.envLevel v i), read (.oscPhase v i)⟩,
    fun v => ⟨⟨_, read (.penvStatus v), penvStatusWord_bits _⟩, read (.penvLevel v)⟩, fun n hn hgap => ?_⟩
  refine exec_regRead_of_unmapped ?_ s
  rw [BitVec.toNat_ofNat, Nat.mod_eq_of_lt hn]
  exact regOf_of_gap hgap

/-- Settles O11: a reset event gives the state after reset, but for the pending events. -/
theorem resetSetsEveryElement : Obligations.ResetSetsEveryElement := by
  refine ⟨resetValues_reset, fun s rest he => ⟨_, ?_, ResetValues.with_events resetValues_reset rest⟩⟩
  rw [step, takeEvent_cons he]
  rfl

/-- Settles O24, from the bytes that the two activity tests read. -/
theorem activityFromLiveParameters : Obligations.ActivityFromLiveParameters := by
  refine fun s v => ⟨fun i => envActive_iff _ _ _ _, ?_⟩
  rw [activeIn, voiceActive_iff]
  simp only [opFlag_enabled_iff]

end Sys2Proof.Machine

/-! SUPPORT. The fields of a command word (spec/30_encoding.md R200 to R205) as arithmetic on its number: what a format
reserves, what the decoder answers for every opcode, and the operand checks read off the bits of the word.

Style: a definition of this text is unfolded with `delta`. Its equation lemmas, which `unfold` and `simp` would use, cost
a waiting thread each, as the note on `Iff.mp` above explains. -/

namespace Sys2Proof.Machine

/-! ## Fields as numbers -/

/-- The bits `[lo + len - 1 : lo]` of a word, as a number. -/
theorem extractLsb'_toNat_div (w : Word) (lo len : Nat) : (w.extractLsb' lo len).toNat = w.toNat / 2 ^ lo % 2 ^ len := by
  rw [BitVec.extractLsb'_toNat, Nat.shiftRight_eq_div_pow]

/-- The opcode is the top byte of the word (R200). -/
theorem wordOpcode_toNat (w : Word) : (wordOpcode w).toNat = w.toNat / 2 ^ 24 := by
  have hlt := w.isLt
  rw [wordOpcode, extractLsb'_toNat_div]
  omega

/-- Appending `m` bits shifts the upper part by `m`. -/
theorem append_toNat {n m : Nat} (a : BitVec n) (b : BitVec m) : (a ++ b).toNat = a.toNat * 2 ^ m + b.toNat := by
  rw [BitVec.toNat_append, ← Nat.shiftLeft_add_eq_or_of_lt b.isLt, Nat.shiftLeft_eq]

/-- The bit fields `(lo, len)` that a format reserves (R201, "Field by field"). -/
def reservedFields : Format → List (Nat × Nat)
  | .N => [(0, 24)]
  | .K => [(7, 1), (15, 9)]
  | .K0 => [(0, 8), (15, 9)]
  | .V => [(8, 16)]
  | .B => [(1, 23)]
  | .A => [(16, 8)]
  | .A0 => [(0, 8), (16, 8)]

/-- The mask of a format covers its reserved fields. -/
theorem formatReserved_allOnes {f : Format} {c : Nat × Nat} (hc : c ∈ reservedFields f) :
    (formatReserved f).extractLsb' c.1 c.2 = BitVec.allOnes c.2 := by
  revert c
  cases f <;> decide

/-- A word that passes the reserved-bit check holds 0 in every reserved field. -/
theorem reservedFields_zero {f : Format} {w : Word} (h : w &&& formatReserved f = 0) :
    ∀ c ∈ reservedFields f, w.toNat / 2 ^ c.1 % 2 ^ c.2 = 0 := by
  intro c hc
  have hfield : w.extractLsb' c.1 c.2 = 0#c.2 := by
    calc w.extractLsb' c.1 c.2
      _ = (w &&& formatReserved f).extractLsb' c.1 c.2 := by
        rw [BitVec.extractLsb'_and, formatReserved_allOnes hc, BitVec.and_allOnes]
      _ = 0#c.2 := by
        rw [h]
        exact BitVec.extractLsb'_zero
  rw [← extractLsb'_toNat_div, hfield, BitVec.toNat_zero]

/-! ## The word of a command as a number -/

/-- The operand fields of an encoded command, as a number below the opcode (R201). -/
def operandNumber : Instr → Nat
  | .noteOn note vel => note.toNat * 2 ^ 8 + vel.toNat
  | .noteOff note => note.toNat * 2 ^ 8
  | .setAlgorithm b | .setFeedback b | .regRead b => b.toNat
  | .setOscKeySync b | .setMono b => b.toNat
  | .paramWrite addr data | .vbufWrite addr data => addr.toNat * 2 ^ 8 + data.toNat
  | .paramRead addr => addr.toNat * 2 ^ 8
  | .nop | .configure | .statusClear | .voiceLoad => 0

/-- An encoded command is its opcode above its operand fields (R201, R203). -/
theorem encode_toNat (i : Instr) : (encode i).toNat = (Laws.opcodeByte i).toNat * 2 ^ 24 + operandNumber i := by
  delta operandNumber
  cases i <;> simp only [encode, append_toNat, Laws.opcodeByte, BitVec.toNat_ofNat] <;> omega

/-- The operand fields stay below the opcode. -/
theorem operandNumber_lt (i : Instr) : operandNumber i < 2 ^ 24 := by
  delta operandNumber
  cases i <;> dsimp only <;> omega

/-- The opcode of an encoded command. -/
theorem encode_opcode (i : Instr) : (encode i).toNat / 2 ^ 24 = (Laws.opcodeByte i).toNat := by
  have hlt := operandNumber_lt i
  rw [encode_toNat]
  omega

/-! ## The decoder -/

/-- A word with an unassigned opcode is rejected with ILLEGAL_OPCODE (R204). -/
theorem decode_of_unassigned {w : Word} (h : opcodeFormat (w.toNat / 2 ^ 24) = none) :
    decode w = .error .illegalOpcode := by
  rw [← wordOpcode_toNat] at h
  unfold decode
  split
  case h_15 => rfl
  all_goals
    rename_i hop
    rw [hop] at h
    cases h

/-- A word with an assigned opcode goes to the reserved-bit check of the opcode's format. -/
theorem decode_of_assigned {w : Word} {f : Format} (h : opcodeFormat (w.toNat / 2 ^ 24) = some f) :
    ∃ i, decode w = checkReserved f w i := by
  rw [← wordOpcode_toNat] at h
  unfold opcodeFormat at h
  split at h
  case h_15 => cases h
  all_goals
    rename_i hop
    obtain rfl := Option.some.inj h
    delta decode
    rw [hop]
    exact ⟨_, rfl⟩

/-- A non-zero reserved bit rejects a word with RESERVED_BITS (R204). -/
theorem decode_of_reservedBits {w : Word} {f : Format} (h : opcodeFormat (w.toNat / 2 ^ 24) = some f)
    (hr : w &&& formatReserved f ≠ 0) : decode w = .error .reservedBits := by
  obtain ⟨i, hi⟩ := decode_of_assigned h
  rw [hi, checkReserved, if_neg hr]

/-- A word that passes both of the decoder's checks decodes to a command. -/
theorem decode_of_accepted {w : Word} {f : Format} (h : opcodeFormat (w.toNat / 2 ^ 24) = some f)
    (hr : w &&& formatReserved f = 0) : ∃ i, decode w = .ok i := by
  obtain ⟨i, hi⟩ := decode_of_assigned h
  exact ⟨i, by rw [hi, checkReserved, if_pos hr]⟩

/-- A word that decodes has its command's opcode, and its operands are all the bits below: the rest is reserved. -/
theorem decode_fields {w : Word} {i : Instr} (h : decode w = .ok i) :
    Laws.opcodeByte i = wordOpcode w ∧ operandNumber i = w.toNat % 2 ^ 24 := by
  unfold decode at h
  split at h
  case h_15 => cases h
  all_goals
    rename_i hop
    obtain ⟨hr, rfl⟩ := Iff.mp checkReserved_eq_ok h
    refine ⟨(BitVec.eq_of_toNat_eq hop).symm, ?_⟩
    have hzero := reservedFields_zero hr
    revert hzero
    delta reservedFields operandNumber
    simp only [List.forall_mem_cons, wordNote, wordVel, wordAddr, wordLow, wordBit, extractLsb'_toNat_div]
    intro hzero
    omega

/-- A word that decodes is the word of its command. -/
theorem encode_of_decode {w : Word} {i : Instr} (h : decode w = .ok i) : encode i = w := by
  obtain ⟨hop, hlow⟩ := decode_fields h
  apply BitVec.eq_of_toNat_eq
  rw [encode_toNat, hop, hlow, wordOpcode_toNat]
  omega

/-! ## The operand checks, from the bits of the word -/

/-- Lines 3 to 5 of R205, from the opcode and the operand bytes of the word. -/
def wordOperandReject (w : Word) : Option RejectCode :=
  if (w.toNat / 2 ^ 24 = 0x10 ∨ w.toNat / 2 ^ 24 = 0x11) ∧ paramMapped (w.toNat / 2 ^ 8 % 2 ^ 8) = false then
    some .paramUnmapped
  else if w.toNat / 2 ^ 24 = 0x12 ∧ 128 ≤ w.toNat / 2 ^ 8 % 2 ^ 8 then some .vbufRange
  else if w.toNat / 2 ^ 24 = 0x14 ∧ regOf (w.toNat % 2 ^ 8) = none then some .regUnmapped
  else none

/-- The address byte of an encoded command with one (R201, formats A and A0). -/
theorem encode_addr (addr data : Byte) :
    (encode (.paramWrite addr data)).toNat / 2 ^ 8 % 2 ^ 8 = addr.toNat ∧
      (encode (.paramRead addr)).toNat / 2 ^ 8 % 2 ^ 8 = addr.toNat ∧
      (encode (.vbufWrite addr data)).toNat / 2 ^ 8 % 2 ^ 8 = addr.toNat := by
  simp only [encode_toNat, Laws.opcodeByte, BitVec.toNat_ofNat]
  delta operandNumber
  dsimp only
  omega

/-- The register number of an encoded REG_READ (R201, format V). -/
theorem encode_regRead_low (reg : Byte) : (encode (.regRead reg)).toNat % 2 ^ 8 = reg.toNat := by
  simp only [encode_toNat, Laws.opcodeByte, BitVec.toNat_ofNat]
  delta operandNumber
  dsimp only
  omega

/-- The operand checks of a command are the checks of its word's bits. -/
theorem wordOperandReject_encode (i : Instr) : wordOperandReject (encode i) = operandReject i := by
  delta wordOperandReject
  rw [encode_opcode]
  cases i with
  | paramWrite addr data =>
    obtain ⟨haddr, -, -⟩ := encode_addr addr data
    rw [haddr]
    cases h : paramMapped addr.toNat <;> simp [Laws.opcodeByte, operandReject, h]
  | paramRead addr =>
    obtain ⟨-, haddr, -⟩ := encode_addr addr 0
    rw [haddr]
    cases h : paramMapped addr.toNat <;> simp [Laws.opcodeByte, operandReject, h]
  | vbufWrite offset data =>
    obtain ⟨-, -, haddr⟩ := encode_addr offset data
    rw [haddr]
    by_cases h : offset.toNat < 128 <;> simp [Laws.opcodeByte, operandReject, vbufMapped, h]
  | regRead reg =>
    rw [encode_regRead_low]
    cases h : regOf reg.toNat <;> simp [Laws.opcodeByte, operandReject, h]
  | _ => rfl

/-! ## The step of a command word -/

/-- A word that the decoder rejects leaves the state, but for CMD_ERR and ERR_CODE (R632). -/
theorem commandStep_of_error {w : Word} {c : RejectCode} (h : decode w = .error c) (s : State) :
    commandStep w s = .next (rejectCommand c s) := by
  delta commandStep
  rw [h]

/-- A word that decodes executes its command. -/
theorem commandStep_of_ok {w : Word} {i : Instr} (h : decode w = .ok i) (s : State) : commandStep w s = exec i s := by
  delta commandStep
  rw [h]

/-- A word that decodes is rejected by the first operand check that its bits fail, and executes its command if none fails. -/
theorem commandStep_of_accepted {w : Word} {i : Instr} (h : decode w = .ok i) (s : State) :
    match wordOperandReject w with
    | some c => commandStep w s = .next (rejectCommand c s)
    | none => WellFormed i ∧ commandStep w s = exec i s := by
  have hop : wordOperandReject w = operandReject i := by rw [← encode_of_decode h, wordOperandReject_encode]
  rw [hop, commandStep_of_ok h]
  cases hr : operandReject i with
  | some c => exact exec_of_reject hr s
  | none => exact ⟨hr, rfl⟩

/-- The unassigned opcodes are the two gaps of the opcode map (R204). -/
theorem opcodeFormat_eq_none {op : Nat} : opcodeFormat op = none ↔ (0x09 ≤ op ∧ op ≤ 0x0F) ∨ 0x15 ≤ op := by
  unfold opcodeFormat
  split
  case h_15 =>
    simp only [imp_false, true_iff] at *
    omega
  all_goals simp

/-- Settles O4: the decoder's two rejections. -/
theorem illegalAndReservedWordsRejected : Obligations.IllegalAndReservedWordsRejected :=
  ⟨fun _ _ => opcodeFormat_eq_none, fun _ s => ⟨fun h => commandStep_of_error (decode_of_unassigned h) s,
    fun _ h hr => commandStep_of_error (decode_of_reservedBits h hr) s⟩⟩

/-- Settles O5, by the chain of R205: the decoder's two checks, then the operand checks on the bits of the word. -/
theorem commandChecksInOrder : Obligations.CommandChecksInOrder := by
  intro w s
  cases hf : opcodeFormat (w.toNat / 2 ^ 24) with
  | none => exact commandStep_of_error (decode_of_unassigned hf) s
  | some f =>
    dsimp only
    by_cases hr : w &&& formatReserved f = 0
    · obtain ⟨i, hi⟩ := decode_of_accepted hf hr
      have hstep := commandStep_of_accepted hi s
      revert hstep
      rw [if_neg (not_not_intro hr)]
      delta wordOperandReject
      split_ifs <;> intro hstep
      · exact hstep
      · exact hstep
      · exact hstep
      · exact ⟨i, hi, encode_of_decode hi, hstep⟩
    · rw [if_pos hr]
      exact commandStep_of_error (decode_of_reservedBits hf hr) s

end Sys2Proof.Machine

/-! SUPPORT. VOICE_LOAD (spec/20_memory.md R220 to R222, 49_commands_config.md R600): the value it gives each field, the
bytes of the loaded parameter store, and the packed voice read back from them (R223). -/

namespace Sys2Proof.Machine

/-! ## Bit fields of a packed byte -/

/-- Bit `k` of a field is bit `lo + k` of its byte. -/
theorem byteField_getLsbD (b : Byte) (lo width k : Nat) :
    (byteField b lo width).getLsbD k = (decide (k < width) && b.getLsbD (lo + k)) := by
  have hmask : (BitVec.ofNat 8 (2 ^ width - 1)).getLsbD k = (decide (k < 8) && decide (k < width)) := by
    rw [BitVec.getLsbD_ofNat, Nat.testBit_two_pow_sub_one]
  rw [byteField, BitVec.getLsbD_and, BitVec.getLsbD_ushiftRight, hmask]
  by_cases hk : k < 8
  · simp [hk, Bool.and_comm]
  · rw [BitVec.getLsbD_of_ge b (lo + k) (by omega), Bool.false_and, Bool.and_false]

/-- Two adjacent fields, put back side by side, are one field. -/
theorem byteField_join (b : Byte) (lo w w' : Nat) :
    byteField b lo w ||| byteField b (lo + w) w' <<< w = byteField b lo (w + w') := by
  apply BitVec.eq_of_getLsbD_eq
  intro k hk
  simp only [BitVec.getLsbD_or, BitVec.getLsbD_shiftLeft, byteField_getLsbD, hk, decide_true, Bool.true_and]
  by_cases hw : k < w
  · have hww : k < w + w' := by omega
    simp [hw, hww]
  · have hpos : lo + w + (k - w) = lo + k := by omega
    have hlen : k - w < w' ↔ k < w + w' := by omega
    simp [hw, hpos, hlen]

/-- A field at bit 0 and the field above it are one field at bit 0. -/
theorem byteField_join_zero (b : Byte) (w w' : Nat) :
    byteField b 0 w ||| byteField b w w' <<< w = byteField b 0 (w + w') := by
  have hjoin := byteField_join b 0 w w'
  rwa [Nat.zero_add] at hjoin

/-- A field at bit 0 is the byte with the bits above it cleared. -/
theorem byteField_zero (b : Byte) (w : Nat) : byteField b 0 w = b &&& BitVec.ofNat 8 (2 ^ w - 1) := by
  rw [byteField, BitVec.ushiftRight_zero]

/-- Two and three adjacent fields from bit 0 on, put back side by side, are the byte with the bits above them cleared. -/
theorem byteField_join_two (b : Byte) (w w' : Nat) :
    byteField b 0 w ||| byteField b w w' <<< w = b &&& BitVec.ofNat 8 (2 ^ (w + w') - 1) := by
  rw [byteField_join_zero, byteField_zero]

theorem byteField_join_three (b : Byte) (w w' w'' : Nat) :
    byteField b 0 w ||| byteField b w w' <<< w ||| byteField b (w + w') w'' <<< (w + w') =
      b &&& BitVec.ofNat 8 (2 ^ (w + w' + w'') - 1) := by
  rw [byteField_join_zero, byteField_join_zero, byteField_zero]

/-! ## The writes of VOICE_LOAD -/

/-- The value that VOICE_LOAD gives field `f` of the core index that packed slot `p` of buffer `B` describes (R221, R600). -/
def loadedOp (B : Memory) (p : Fin 6) (f : OpField) : Byte :=
  let slot (k : Nat) : Byte := Memory.read B (17 * p.val + k)
  match f with
  | .r n => byteField (slot n.val) 0 7
  | .l n => byteField (slot (4 + n.val)) 0 7
  | .ksBreakpoint => byteField (slot 8) 0 7
  | .ksLeftDepth => byteField (slot 9) 0 7
  | .ksRightDepth => byteField (slot 10) 0 7
  | .ksLeftCurve => byteField (slot 11) 0 2
  | .ksRightCurve => byteField (slot 11) 2 2
  | .rateScaling => byteField (slot 12) 0 3
  | .detune => byteField (slot 12) 3 4
  | .ampModSens => byteField (slot 13) 0 2
  | .velSens => byteField (slot 13) 2 3
  | .outputLevel => byteField (slot 14) 0 7
  | .fixedMode => byteField (slot 15) 0 1
  | .coarse => byteField (slot 15) 1 5
  | .fine => byteField (slot 16) 0 7
  | .enabled => 1#8
  | .waveform => 0#8
  | .oscKeySync => byteField (Memory.read B 111) 3 1

/-- The value of global field `g` after VOICE_LOAD of buffer `B` into the store `m` (R222, R600), which keeps MONO. -/
def loadedGlobal (m B : Memory) (g : GlobalField) : Byte :=
  match g with
  | .pr n => byteField (Memory.read B (102 + n.val)) 0 7
  | .pl n => byteField (Memory.read B (106 + n.val)) 0 7
  | .algorithm => byteField (Memory.read B 110) 0 5
  | .feedback => byteField (Memory.read B 111) 0 3
  | .lfoSpeed => byteField (Memory.read B 112) 0 7
  | .lfoDelay => byteField (Memory.read B 113) 0 7
  | .lfoPmd => byteField (Memory.read B 114) 0 7
  | .lfoAmd => byteField (Memory.read B 115) 0 7
  | .lfoKeySync => byteField (Memory.read B 116) 0 1
  | .lfoWaveform => byteField (Memory.read B 116) 1 3
  | .lfoPms => byteField (Memory.read B 116) 4 3
  | .transpose => byteField (Memory.read B 117) 0 7
  | .mono => Memory.read m (globalAddr .mono)

/-- The operator fields in the order in which VOICE_LOAD writes them. -/
def slotFields : List OpField :=
  [.r 0, .r 1, .r 2, .r 3, .l 0, .l 1, .l 2, .l 3, .ksBreakpoint, .ksLeftDepth, .ksRightDepth, .ksLeftCurve,
    .ksRightCurve, .rateScaling, .detune, .ampModSens, .velSens, .outputLevel, .fixedMode, .coarse, .fine, .enabled,
    .waveform, .oscKeySync]

/-- The global fields in the order in which VOICE_LOAD writes them: all but MONO. -/
def loadedGlobals : List GlobalField :=
  [.pr 0, .pr 1, .pr 2, .pr 3, .pl 0, .pl 1, .pl 2, .pl 3, .algorithm, .feedback, .lfoSpeed, .lfoDelay, .lfoPmd, .lfoAmd,
    .lfoKeySync, .lfoWaveform, .lfoPms, .transpose]

/-- VOICE_LOAD writes every field of a slot's core index. -/
theorem mem_slotFields (f : OpField) : f ∈ slotFields := by
  cases f with
  | l n | r n => fin_cases n <;> decide
  | _ => decide

/-- VOICE_LOAD writes every global field but MONO. -/
theorem mem_loadedGlobals {g : GlobalField} (h : g ≠ .mono) : g ∈ loadedGlobals := by
  cases g with
  | pl n | pr n => fin_cases n <;> decide
  | mono => exact absurd rfl h
  | _ => decide

theorem slotWrites_eq (B : Memory) (p : Fin 6) :
    slotWrites B p = slotFields.map fun f => (opAddr p.rev f, loadedOp B p f) := rfl

theorem globalWrites_eq (m B : Memory) :
    globalWrites B = loadedGlobals.map fun g => (globalAddr g, loadedGlobal m B g) := rfl

/-- Every write of VOICE_LOAD is that of an operator field or of a global field. -/
theorem mem_voiceLoadWrites (m : Memory) {B : Memory} {c : Nat × Byte} :
    c ∈ voiceLoadWrites B ↔
      (∃ p f, (opAddr p.rev f, loadedOp B p f) = c) ∨ ∃ g ∈ loadedGlobals, (globalAddr g, loadedGlobal m B g) = c := by
  have hp (p : Fin 6) : p ∈ packedSlots := by fin_cases p <;> decide
  simp only [voiceLoadWrites, List.mem_append, List.mem_flatMap, slotWrites_eq, globalWrites_eq m, List.mem_map, hp,
    mem_slotFields, true_and]

/-! ## Their addresses -/

theorem opOffset_lt (f : OpField) : opOffset f < 0x18 := by
  cases f with
  | l n | r n =>
    simp only [opOffset]
    omega
  | _ => decide

/-- Slot p describes core index 5 - p (R220). -/
theorem opAddr_rev (p : Fin 6) (f : OpField) : opAddr p.rev f = 0x20 * (5 - p.val) + opOffset f := by
  have hp := Fin.val_rev p
  rw [opAddr]
  omega

theorem globalAddr_of_loaded {g : GlobalField} (h : g ∈ loadedGlobals) :
    0xC0 ≤ globalAddr g ∧ globalAddr g ≠ 0xF0 ∧ paramMapped (globalAddr g) = true := by
  revert g
  decide

/-- VOICE_LOAD writes mapped addresses only, and not MONO's (R600). -/
theorem voiceLoadWrites_mapped {B : Memory} {c : Nat × Byte} (h : c ∈ voiceLoadWrites B) :
    paramMapped c.1 = true ∧ c.1 ≠ 0xF0 := by
  rcases Iff.mp (mem_voiceLoadWrites []) h with ⟨p, f, rfl⟩ | ⟨g, hg, rfl⟩
  · have hf := opOffset_lt f
    have hblock : opAddr p.rev f < 0xC0 := by
      rw [opAddr]
      omega
    refine ⟨?_, by omega⟩
    rw [paramMapped, if_pos hblock, decide_eq_true_iff, opAddr]
    omega
  · obtain ⟨-, hmono, hmapped⟩ := globalAddr_of_loaded hg
    exact ⟨hmapped, hmono⟩

/-- The addresses of a slot's writes lie in the block of the core index it describes (R152, R220). -/
theorem slotWrites_block {B : Memory} {p : Fin 6} {a : Nat} (h : a ∈ (slotWrites B p).map Prod.fst) :
    a / 0x20 = 5 - p.val := by
  rw [slotWrites_eq, List.map_map, List.mem_map] at h
  obtain ⟨f, -, rfl⟩ := h
  have hf := opOffset_lt f
  rw [Function.comp_apply, opAddr_rev]
  omega

theorem slotWrites_nodup (B : Memory) (p : Fin 6) : ((slotWrites B p).map Prod.fst).Nodup := by
  have hoffsets : (slotFields.map opOffset).Nodup := by decide
  have haddrs : (slotWrites B p).map Prod.fst = (slotFields.map opOffset).map (0x20 * p.rev.val + ·) := rfl
  rw [haddrs]
  exact hoffsets.map (add_right_injective _)

/-- The addresses of the global writes lie above the six blocks (R152). -/
theorem globalWrites_above {B : Memory} {a : Nat} (h : a ∈ (globalWrites B).map Prod.fst) : 0xC0 ≤ a := by
  rw [globalWrites_eq [], List.map_map, List.mem_map] at h
  obtain ⟨g, hg, rfl⟩ := h
  exact (globalAddr_of_loaded hg).1

theorem globalWrites_nodup (B : Memory) : ((globalWrites B).map Prod.fst).Nodup := by
  have haddrs : (globalWrites B).map Prod.fst = loadedGlobals.map globalAddr := rfl
  rw [haddrs]
  decide

/-- No two writes of VOICE_LOAD go to one address: each slot has a block of its own, and the global fields are above the
blocks. -/
theorem voiceLoadWrites_nodup (B : Memory) : ((voiceLoadWrites B).map Prod.fst).Nodup := by
  have hslots : packedSlots.Nodup := by decide
  rw [voiceLoadWrites, List.map_append, List.map_flatMap]
  refine List.Nodup.append ?_ (globalWrites_nodup B) fun a hslot hglobal => ?_
  · refine List.nodup_flatMap.mpr ⟨fun p _ => slotWrites_nodup B p, hslots.imp fun {p q} hpq a hp hq => hpq ?_⟩
    have hblock := (slotWrites_block hp).symm.trans (slotWrites_block hq)
    omega
  · obtain ⟨p, -, hp⟩ := List.mem_flatMap.mp hslot
    have hblock := slotWrites_block hp
    have habove := globalWrites_above hglobal
    omega

/-! ## The loaded parameter store -/

/-- The parameter store after VOICE_LOAD. -/
def loadedParams (s : State) : Memory := Memory.writeAll s.params (voiceLoadWrites s.vbuf)

theorem exec_voiceLoad (s : State) : exec .voiceLoad s = .next { s with params := loadedParams s } := rfl

section
variable {s : State}

/-- A write of VOICE_LOAD stands in the loaded store, since no other goes to its address. -/
theorem read_loadedParams_of_mem (h : MemoryCanonical s) {a : Nat} {b : Byte} (hc : (a, b) ∈ voiceLoadWrites s.vbuf) :
    Memory.read (loadedParams s) a = b :=
  Memory.read_writeAll_mem (c := (a, b)) h.params_wf (voiceLoadWrites_nodup s.vbuf) hc

/-- Field `f` of the core index of slot p holds its bits of the slot (R221). -/
theorem read_loadedParams_op (h : MemoryCanonical s) (p : Fin 6) (f : OpField) :
    Memory.read (loadedParams s) (0x20 * (5 - p.val) + opOffset f) = loadedOp s.vbuf p f := by
  rw [← opAddr_rev]
  exact read_loadedParams_of_mem h (Iff.mpr (mem_voiceLoadWrites []) (.inl ⟨p, f, rfl⟩))

/-- MONO and the unmapped addresses are kept (R600). -/
theorem read_loadedParams_kept {a : Nat} (ha : paramMapped a = false ∨ a = 0xF0) :
    Memory.read (loadedParams s) a = Memory.read s.params a := by
  refine Memory.read_writeAll_other _ fun c hc hca => ?_
  obtain ⟨hmapped, hmono⟩ := voiceLoadWrites_mapped hc
  rcases ha with ha | ha
  · rw [hca, ha] at hmapped
    cases hmapped
  · exact hmono (hca.trans ha)

/-- A global field holds its bits of the buffer, and MONO its old byte (R222). -/
theorem read_loadedParams_global (h : MemoryCanonical s) (g : GlobalField) :
    Memory.read (loadedParams s) (globalAddr g) = loadedGlobal s.params s.vbuf g := by
  by_cases hg : g = .mono
  · subst hg
    exact read_loadedParams_kept (.inr rfl)
  · exact read_loadedParams_of_mem h (Iff.mpr (mem_voiceLoadWrites s.params) (.inr ⟨g, mem_loadedGlobals hg, rfl⟩))

end

/-- Settles O21, field by field: each clause is the value that VOICE_LOAD gives the field at that address. -/
theorem voiceLoadUnpacksFields : Obligations.VoiceLoadUnpacksFields := by
  intro s h
  have op := read_loadedParams_op h
  have global := read_loadedParams_global h
  refine ⟨loadedParams s, exec_voiceLoad s, fun p => ?_, fun n hn => global (.pr ⟨n, hn⟩), fun n hn => global (.pl ⟨n, hn⟩),
    global .algorithm, global .feedback, global .lfoSpeed, global .lfoDelay, global .lfoPmd, global .lfoAmd,
    global .lfoKeySync, global .lfoWaveform, global .lfoPms, global .transpose, fun _ => read_loadedParams_kept⟩
  have block (n k : Nat) : 0x20 * (5 - p.val) + k + n = 0x20 * (5 - p.val) + (k + n) := Nat.add_assoc _ _ _
  exact ⟨fun n hn => (congrArg _ (block n 0x0A)).trans (op p (.r ⟨n, hn⟩)),
    fun n hn => (congrArg _ (block n 0x06)).trans (op p (.l ⟨n, hn⟩)), op p .ksBreakpoint, op p .ksLeftDepth,
    op p .ksRightDepth, op p .ksLeftCurve, op p .ksRightCurve, op p .rateScaling, op p .detune, op p .ampModSens,
    op p .velSens, op p .outputLevel, op p .fixedMode, op p .coarse, op p .fine, op p .enabled, op p .waveform,
    op p .oscKeySync⟩

/-! ## Packing (R223) -/

/-- Byte `17 * p + k` of the packed voice is byte `k` of the slot of core index 5 - p (R220). -/
theorem packVoiceByte_slot (P B : Memory) (p : Fin 6) {k : Nat} (hk : k < 17) :
    packVoiceByte P B (17 * p.val + k) = packSlotByte P p.rev k := by
  have hp := p.isLt
  have hslot : (17 * p.val + k) / 17 = p.val := by omega
  have hbyte : (17 * p.val + k) % 17 = k := by omega
  have hrev : Fin.ofNat 6 (5 - p.val) = p.rev := by
    ext
    rw [Fin.val_ofNat, Fin.val_rev]
    omega
  rw [packVoiceByte, if_pos (by omega), hslot, hbyte, hrev]

/-- The don't-care bits of a slot are those of its byte, whichever slot it is (R221). -/
theorem packedBits_slot (p : Fin 6) {k : Nat} (hk : k < 17) : packedBits (17 * p.val + k) = packedBits k := by
  have hp := p.isLt
  have hbyte : (17 * p.val + k) % 17 = k % 17 := by omega
  unfold packedBits
  rw [if_pos (by omega), if_pos (by omega), hbyte]

/-- Packing a loaded slot joins the fields of each of its bytes again, which are all its bits but the don't-cares (R221). -/
theorem packSlotByte_loaded {s : State} (h : MemoryCanonical s) (p : Fin 6) {k : Nat} (hk : k < 17) :
    packSlotByte (loadedParams s) p.rev k = Memory.read s.vbuf (17 * p.val + k) &&& packedBits k := by
  have op (f : OpField) : Memory.read (loadedParams s) (opAddr p.rev f) = loadedOp s.vbuf p f := by
    rw [opAddr_rev, read_loadedParams_op h]
  simp only [packSlotByte, op]
  match k with
  | 0 | 1 | 2 | 3 | 4 | 5 | 6 | 7 | 8 | 9 | 10 | 14 | 16 => exact byteField_zero _ 7
  | 11 => exact byteField_join_two _ 2 2
  | 12 => exact byteField_join_two _ 3 4
  | 13 => exact byteField_join_two _ 2 3
  | 15 => exact byteField_join_two _ 1 5
  | k + 17 => omega

/-- Packing the loaded global fields joins the fields of each byte again (R222); the key-sync bit of byte 111 is read back
from core index 0, where slot 5 put it. -/
theorem packGlobalByte_loaded {s : State} (h : MemoryCanonical s) {k : Nat} (hk : 102 ≤ k) (hk' : k < 118) :
    packGlobalByte (loadedParams s) k = Memory.read s.vbuf k &&& packedBits k := by
  have hsync : Memory.read (loadedParams s) (opAddr 0 .oscKeySync) = byteField (Memory.read s.vbuf 111) 3 1 :=
    read_loadedParams_op h 5 .oscKeySync
  simp only [packGlobalByte, read_loadedParams_global h, hsync]
  obtain ⟨j, rfl⟩ := Nat.exists_eq_add_of_le hk
  match j with
  | 0 | 1 | 2 | 3 | 4 | 5 | 6 | 7 | 10 | 11 | 12 | 13 | 15 => exact byteField_zero _ 7
  | 8 => exact byteField_zero _ 5
  | 9 => exact byteField_join_two _ 3 1
  | 14 => exact byteField_join_three _ 1 3 3
  | j + 16 => omega

/-- Every bit of a name byte is kept (R222). -/
theorem packedBits_name {k : Nat} (hk : 118 ≤ k) : packedBits k = BitVec.allOnes 8 := by
  unfold packedBits
  rw [if_neg (by omega)]
  split
  · omega
  · omega
  · rw [if_neg (by omega)]
    rfl

/-- Settles O22, by the part of the voice that the byte is in: a slot, the global part, or the name. -/
theorem packAfterVoiceLoadReproducesVoice : Obligations.PackAfterVoiceLoadReproducesVoice := by
  refine fun s h => ⟨loadedParams s, exec_voiceLoad s, fun k _ => ?_⟩
  by_cases hslot : k < 102
  · obtain ⟨p, j, hj, rfl⟩ : ∃ (p : Fin 6) (j : Nat), j < 17 ∧ k = 17 * p.val + j :=
      ⟨⟨k / 17, by omega⟩, k % 17, by omega, by dsimp only; omega⟩
    rw [packVoiceByte_slot _ _ p hj, packSlotByte_loaded h p hj, packedBits_slot p hj]
  · rw [packVoiceByte, if_neg hslot]
    by_cases hglobal : k < 118
    · rw [if_pos hglobal, packGlobalByte_loaded h (by omega) hglobal]
    · rw [if_neg hglobal, packedBits_name (by omega), BitVec.and_allOnes]

end Sys2Proof.Machine

/-! SUPPORT. The amplitude envelope (spec/42_envelope.md): stage entry, the static pause, the rising step and release, each said
once, and the obligations about them. -/

namespace Sys2Proof.Machine

/-! ## Stage entry and release -/

/-- Entering a stage other than idle, written out (R306). -/
theorem envAdvance_of_stageIndex (T : Rom) (P : Memory) (i : Fin 6) {st : Stage} {n : Fin 4} (h : stageIndex st = some n)
    (e : Envelope) :
    envAdvance T P i st e =
      { e with
        stage := st
        target := toI32 (envTarget T P i n)
        rising := decide (e.level.toInt < envTarget T P i n)
        staticCount :=
          if envTarget T P i n = e.level.toInt ∨ (n = 0 ∧ opParam P i (.l n) = 0) then
            toI32 (envStaticCount T P i e.rsDelta n)
          else 0#32
        inc := toI32 (envIncOf (envQRate P i e.rsDelta n)) } := by
  rw [envAdvance, h]

/-- The envelope parameters by their bytes: L(n+1) at 0x06 + n, R(n+1) at 0x0A + n, OUTPUT_LEVEL at 0x05 (R152, R153). -/
theorem opParam_l (P : Memory) (i : Fin 6) (n : Fin 4) :
    opParam P i (.l n) = min (Memory.read P (0x20 * i.val + (0x06 + n.val))).toNat 99 := rfl

theorem opParam_r (P : Memory) (i : Fin 6) (n : Fin 4) :
    opParam P i (.r n) = min (Memory.read P (0x20 * i.val + (0x0A + n.val))).toNat 99 := rfl

theorem opParam_outputLevel (P : Memory) (i : Fin 6) :
    opParam P i .outputLevel = min (Memory.read P (0x20 * i.val + 0x05)).toNat 99 := rfl

/-- Settles O29: a trigger is the entry of stage 0, whose L1 test is the byte at 0x06 being 0. -/
theorem envelopeTriggerEntersAttack : Obligations.EnvelopeTriggerEntersAttack := by
  intro T P i e
  have hl1 : opParam P i (.l 0) = min (Memory.read P (0x20 * i.val + 0x06)).toNat 99 := opParam_l P i 0
  rw [envTrigger, envAdvance_of_stageIndex T P i (n := 0) rfl]
  simp only [hl1, true_and]

/-- A release before stage 3 enters stage 3; one in stage 3 or 4 only clears keyDown (R314). -/
theorem envRelease_of_lt (T : Rom) (P : Memory) (i : Fin 6) {e : Envelope} (h : stageCode e.stage < 3) :
    envRelease T P i e = envAdvance T P i .release { e with keyDown := false } := if_pos h

theorem envRelease_of_ge (T : Rom) (P : Memory) (i : Fin 6) {e : Envelope} (h : 3 ≤ stageCode e.stage) :
    envRelease T P i e = { e with keyDown := false } := if_neg (Nat.not_lt.mpr h)

/-- The same of a pitch envelope (R358). -/
theorem peRelease_of_lt (T : Rom) (P : Memory) {p : PitchEnvelope} (h : stageCode p.stage < 3) :
    peRelease T P p = peAdvance T P .release { p with keyDown := false } := if_pos h

theorem peRelease_of_ge (T : Rom) (P : Memory) {p : PitchEnvelope} (h : 3 ≤ stageCode p.stage) :
    peRelease T P p = { p with keyDown := false } := if_neg (Nat.not_lt.mpr h)

@[simp] theorem envRelease_armed (T : Rom) (P : Memory) (i : Fin 6) (e : Envelope) :
    (envRelease T P i e).armed = e.armed := by
  rcases Nat.lt_or_ge (stageCode e.stage) 3 with h | h
  · rw [envRelease_of_lt T P i h, envAdvance_armed]
  · rw [envRelease_of_ge T P i h]

/-- An un-armed envelope is silent (R310). -/
theorem envGain_of_unarmed (P : Memory) (i : Fin 6) {e : Envelope} (h : e.armed = false) : envGain P i e = 0#32 := by
  rw [envGain, h]
  rfl

/-- Settles O30: a voice's release releases its envelopes, each by its stage. -/
theorem voiceReleaseEntersStageThree : Obligations.VoiceReleaseEntersStageThree := by
  intro T P vc
  have hop (i : Fin 6) : (voiceNoteOff T P vc).ops[i] = { vc.ops[i] with env := envRelease T P i vc.ops[i].env } :=
    voiceNoteOff_op T P vc i
  have hsilent (i : Fin 6) (h : vc.ops[i].env.armed = false) :
      (envRelease T P i vc.ops[i].env).armed = false ∧ envGain P i (envRelease T P i vc.ops[i].env) = 0#32 := by
    have harmed := (envRelease_armed T P i vc.ops[i].env).trans h
    exact ⟨harmed, envGain_of_unarmed P i harmed⟩
  exact ⟨rfl, fun i => ⟨hop i, envRelease_of_lt T P i, envRelease_of_ge T P i, hsilent i⟩, rfl,
    peRelease_of_lt T P, peRelease_of_ge T P⟩

/-! ## Ranges under every admissible ROM -/

/-- scaleOut lies in 0..127 under every admissible LEVEL_LUT (R300). -/
theorem RomAdmissible.scaleOut_le {T : Rom} (h : RomAdmissible T) {l : Nat} (hl : l ≤ 99) : scaleOut T l ≤ 127 := by
  unfold scaleOut
  split
  · omega
  · exact h.levelLut_le l (by omega)

/-- A target lies in [2^20, 15 * 2^24] under every admissible LEVEL_LUT (R301). -/
theorem RomAdmissible.envTarget_range {T : Rom} (h : RomAdmissible T) (P : Memory) (i : Fin 6) (n : Fin 4) :
    2 ^ 20 ≤ envTarget T P i n ∧ envTarget T P i n ≤ 15 * 2 ^ 24 := by
  have hl := h.scaleOut_le (opParam_le P i (.l n))
  have ho := h.scaleOut_le (opParam_le P i .outputLevel)
  unfold envTarget envActual
  omega

/-- At 44100 Hz the static count of R305 is the count at the static rate, unscaled. -/
theorem envStaticCount_eq (T : Rom) (P : Memory) (i : Fin 6) (d : BitVec 32) (n : Fin 4) :
    envStaticCount T P i d n =
      let sr := envStaticRate P i d n
      let c := if sr < 77 then T.statics sr else 20 * (99 - sr)
      if sr < 77 ∧ n = 0 ∧ opParam P i (.l n) = 0 then c / 20 else c :=
  Nat.mul_div_cancel _ (by decide : 0 < 2 ^ 24)

/-! ## The static pause -/

/-- In a static pause the envelope moves nothing but the count (R307). -/
theorem envStep_of_pause (T : Rom) (P : Memory) (i : Fin 6) {e : Envelope} (h : 1 < e.staticCount.toInt) :
    (envStep T P i e).1 = { e with staticCount := toI32 (e.staticCount.toInt - 1) } := by
  have hlt := BitVec.toInt_lt (x := e.staticCount)
  have hcount : envCountdown T P i e = { e with staticCount := toI32 (e.staticCount.toInt - 1) } := by
    rcases envCountdown_cases T P i e with ⟨hz, -⟩ | ⟨-, hle, -⟩ | ⟨-, heq⟩
    · simp [hz] at h
    · omega
    · exact heq
  have hne : toI32 (e.staticCount.toInt - 1) ≠ 0#32 := by
    intro hz
    have := congrArg BitVec.toInt hz
    rw [toI32_toInt (by omega) (by omega)] at this
    simp at this
    omega
  rw [envStep, hcount]
  rcases envIntegrate_cases T P i { e with staticCount := toI32 (e.staticCount.toInt - 1) } with
    ⟨-, heq⟩ | ⟨-, hz, -⟩ | ⟨-, hz, -⟩ | ⟨-, hz, -⟩
  · exact heq
  all_goals exact absurd hz hne

/-- After `k` ticks of a longer pause the count is lower by `k`, and nothing else has moved. -/
theorem envStep_iterate_of_pause (T : Rom) (P : Memory) (i : Fin 6) (e : Envelope) {k : Nat}
    (h : (k : Int) < e.staticCount.toInt) :
    (fun x => (envStep T P i x).1)^[k] e = { e with staticCount := toI32 (e.staticCount.toInt - k) } := by
  have hlt := BitVec.toInt_lt (x := e.staticCount)
  induction k with
  | zero => simp
  | succ k ih =>
    have hk : (toI32 (e.staticCount.toInt - k)).toInt = e.staticCount.toInt - k :=
      toI32_toInt (by omega) (by omega)
    rw [Function.iterate_succ_apply', ih (by omega), envStep_of_pause T P i (by dsimp only; omega)]
    dsimp only
    rw [hk, Nat.cast_succ, Int.sub_sub]

/-- The tick that ends a pause enters the next stage and integrates it (R307). -/
theorem envStep_of_pause_end (T : Rom) (P : Memory) (i : Fin 6) {e : Envelope} (h : e.staticCount = 1#32) :
    (envStep T P i e).1 =
      envIntegrate T P i (envAdvance T P i (nextStage e.stage) { e with staticCount := 0#32 }) := by
  have hone : e.staticCount.toInt = 1 := by rw [h]; decide
  rw [envStep]
  rcases envCountdown_cases T P i e with ⟨hz, -⟩ | ⟨-, -, heq⟩ | ⟨hgt, -⟩
  · simp [h] at hz
  · rw [heq]
  · omega

/-! ## The rising step -/

/-- A rising step ends at the lower of the target and the risen level, in its stage or the next (R307, R308). -/
theorem envIntegrate_rising (T : Rom) (P : Memory) (i : Fin 6) {e : Envelope} (hm : stageMoves e.stage e.keyDown = true)
    (hs : e.staticCount = 0#32) (hr : e.rising = true) (hnonneg : 0 ≤ envRisen e.level.toInt e.inc.toInt) :
    (envIntegrate T P i e).level.toInt = min e.target.toInt (envRisen e.level.toInt e.inc.toInt) ∧
      ((envIntegrate T P i e).stage = e.stage ∨ (envIntegrate T P i e).stage = nextStage e.stage) := by
  have htarget := BitVec.toInt_lt (x := e.target)
  rcases envIntegrate_cases T P i e with ⟨hstay, -⟩ | ⟨-, -, hdir, heq⟩ | ⟨-, -, -, hlt, heq⟩ | ⟨-, -, hfall, -⟩
  · simp [hm, hs] at hstay
  · have hle : e.target.toInt ≤ envRisen e.level.toInt e.inc.toInt := by simpa [hr] using hdir
    rw [heq, envAdvance_level, envAdvance_stage]
    exact ⟨(min_eq_left hle).symm, .inr rfl⟩
  · rw [heq, min_eq_right hlt.le]
    exact ⟨toI32_toInt (by omega) (by omega), .inl rfl⟩
  · simp [hr] at hfall

/-- From level 0 a step rises from the jump target, by ten increments (R308). -/
theorem envRisen_zero (inc : Int) : envRisen 0 inc = 1716 * 2 ^ 16 + 10 * inc := rfl

/-! ## The attack-zero case (R321) -/

/-- The envelope after a trigger from reset with L1 at 0 and OUTPUT_LEVEL at 99: stage 0 with the least target, in a pause of the
static count of the rate. -/
def attackZeroEntry (T : Rom) (P : Memory) (i : Fin 6) : Envelope :=
  { Envelope.reset with
    stage := .attack, keyDown := true, armed := true, rising := true, target := 1048576#32
    staticCount := toI32 (envStaticCount T P i 0#32 0), inc := toI32 (envIncOf (envQRate P i 0#32 0)) }

/-- With L1 at 0 and OUTPUT_LEVEL at 99 actual(0) is below its least value, 16, and is clamped to it (R301). -/
theorem envTarget_of_attackZero {T : Rom} (hT : RomAdmissible T) {P : Memory} {i : Fin 6} (hl : opParam P i (.l 0) = 0)
    (ho : opParam P i .outputLevel = 99) : envTarget T P i 0 = 1048576 := by
  have hlut := hT.levelLut_fixed.1
  simp [envTarget, envActual, scaleOut, hl, ho, hlut]

theorem envTrigger_of_attackZero {T : Rom} (hT : RomAdmissible T) {P : Memory} {i : Fin 6} (hl : opParam P i (.l 0) = 0)
    (ho : opParam P i .outputLevel = 99) : envTrigger T P i Envelope.reset = attackZeroEntry T P i := by
  rw [envTrigger, envAdvance_of_stageIndex T P i (n := 0) rfl, envTarget_of_attackZero hT hl ho]
  have htarget : toI32 1048576 = 1048576#32 := by decide
  have hlevel : Envelope.reset.level.toInt = 0 := by decide
  simp only [hl, hlevel, htarget, and_self, or_true, if_true, show (0 : Int) < 1048576 by decide, decide_true]
  rfl

/-- With R1 at 90 the static rate is above STATICS, and the pause is 20 * (99 - 90) ticks (R305). -/
theorem envStaticCount_of_rate_ninety (T : Rom) {P : Memory} {i : Fin 6} (hr : opParam P i (.r 0) = 90) :
    envStaticCount T P i 0#32 0 = 180 := by
  have hsr : envStaticRate P i 0#32 0 = 90 := by simp [envStaticRate, hr]
  simp [envStaticCount_eq, hsr]

/-- With R1 at 50 and L1 at 0 the pause is a twentieth of STATICS[50] (R305). -/
theorem envStaticCount_of_rate_fifty (T : Rom) {P : Memory} {i : Fin 6} (hl : opParam P i (.l 0) = 0)
    (hr : opParam P i (.r 0) = 50) : envStaticCount T P i 0#32 0 = T.statics 50 / 20 := by
  have hsr : envStaticRate P i 0#32 0 = 50 := by simp [envStaticRate, hr]
  simp [envStaticCount_eq, hsr, hl]

/-- The entry of stage 1 from an envelope at level 0: rising, without a pause. -/
def decay1EntryFromZero (T : Rom) (P : Memory) (i : Fin 6) (e : Envelope) : Envelope :=
  { e with
    stage := .decay1, target := toI32 (envTarget T P i 1), rising := true, staticCount := 0#32
    inc := toI32 (envIncOf (envQRate P i e.rsDelta 1)) }

/-- At level 0 every target is above the level, so stage 1 is entered rising and without a pause (R306). -/
theorem envAdvance_decay1_of_level_zero {T : Rom} (hT : RomAdmissible T) (P : Memory) (i : Fin 6) {e : Envelope}
    (hlevel : e.level = 0#32) :
    envAdvance T P i .decay1 { e with staticCount := 0#32 } = decay1EntryFromZero T P i e := by
  have hpos : 0 < envTarget T P i 1 := by
    have := (hT.envTarget_range P i 1).1
    omega
  rw [envAdvance_of_stageIndex T P i (n := 1) rfl]
  simp [decay1EntryFromZero, hlevel, hpos, hpos.ne']

/-- The last tick of an attack pause at level 0 enters stage 1 and takes its first step at once: it ends at the target of stage 1
or at the level risen from the jump target. -/
theorem envStep_of_attackZero_end {T : Rom} (hT : RomAdmissible T) (P : Memory) (i : Fin 6) {e : Envelope}
    (hstage : e.stage = .attack) (hlevel : e.level = 0#32) (hs : e.staticCount = 1#32) :
    (envStep T P i e).1.stage ≠ .attack ∧
      (envStep T P i e).1.level.toInt =
        min (envTarget T P i 1) (envRisen 0 (envIncOf (envQRate P i e.rsDelta 1))) := by
  obtain ⟨htge, htle⟩ := hT.envTarget_range P i 1
  obtain ⟨hige, hile⟩ := envIncOf_range (envQRate_le P i e.rsDelta 1)
  have htarget : (decay1EntryFromZero T P i e).target.toInt = envTarget T P i 1 := toI32_toInt (by omega) (by omega)
  have hinc : (decay1EntryFromZero T P i e).inc.toInt = envIncOf (envQRate P i e.rsDelta 1) :=
    toI32_toInt (by omega) (by omega)
  have hzero : (decay1EntryFromZero T P i e).level.toInt = 0 := by rw [decay1EntryFromZero, hlevel]; rfl
  obtain ⟨hl, hst⟩ := envIntegrate_rising T P i (e := decay1EntryFromZero T P i e) rfl rfl rfl
    (by rw [hzero, hinc, envRisen_zero]; omega)
  have hnext : nextStage e.stage = .decay1 := by rw [hstage]; rfl
  rw [envStep_of_pause_end T P i hs, hnext, envAdvance_decay1_of_level_zero hT P i hlevel]
  rw [htarget, hzero, hinc] at hl
  refine ⟨?_, hl⟩
  rcases hst with hst | hst <;> rw [hst] <;> simp [decay1EntryFromZero, nextStage]

/-- Settles O51: the trigger gives a pause whose count is the static count of R1; the pause keeps level and stage, and its last
tick enters stage 1. -/
theorem attackZeroPausesThenDecays : Obligations.AttackZeroPausesThenDecays := by
  intro T hT P i hL hO
  have hl : opParam P i (.l 0) = 0 := by rw [opParam_l]; simp [hL]
  have ho : opParam P i .outputLevel = 99 := by rw [opParam_outputLevel, hO]; rfl
  rw [envTrigger_of_attackZero hT hl ho]
  refine ⟨fun hR => ?_, fun hR => ?_⟩
  · have hr : opParam P i (.r 0) = 90 := by rw [opParam_r]; simp [hR]
    have hcount : (attackZeroEntry T P i).staticCount = 180#32 := by
      rw [attackZeroEntry, envStaticCount_of_rate_ninety T hr]
      rfl
    have hcountInt : (attackZeroEntry T P i).staticCount.toInt = 180 := by rw [hcount]; rfl
    have hpause (k : Nat) (hk : k ≤ 179) := envStep_iterate_of_pause T P i (attackZeroEntry T P i) (k := k) (by omega)
    refine ⟨rfl, rfl, hcountInt, fun k hk => ?_, ?_⟩
    · rw [hpause k hk]
      exact ⟨rfl, rfl⟩
    · rw [Function.iterate_succ_apply', hpause 179 le_rfl]
      exact envStep_of_attackZero_end hT P i rfl rfl (by dsimp only; rw [hcountInt]; rfl)
  · have hr : opParam P i (.r 0) = 50 := by rw [opParam_r]; simp [hR]
    have hfit := hT.statics_lt 50 (by omega)
    rw [attackZeroEntry, envStaticCount_of_rate_fifty T hl hr]
    dsimp only
    rw [toI32_toInt (by omega) (by omega)]
    rfl

end Sys2Proof.Machine

/-! SUPPORT. The pitch envelope (spec/43_pitch_envelope.md): stage entry, its ranges under every admissible ROM, and the unity
envelope, whose four levels are 50. -/

namespace Sys2Proof.Machine

/-! ## Stage entry -/

/-- Entering a stage other than idle, written out (R353). -/
theorem peAdvance_of_stageIndex (T : Rom) (P : Memory) {st : Stage} {n : Fin 4} (h : stageIndex st = some n)
    (p : PitchEnvelope) :
    peAdvance T P st p =
      { p with
        stage := st
        target := toI32 (peTarget T P n)
        rising := decide (p.level.toInt < peTarget T P n)
        inc := toI32 (peInc T P n) } := by
  rw [peAdvance, h]

/-- PL(n+1) by its byte at 0xE0 + n (R152, R153). -/
theorem globalParam_pl (P : Memory) (n : Fin 4) :
    globalParam P (.pl n) = min (Memory.read P (0xE0 + n.val)).toNat 99 := rfl

/-- A pitch increment is below 2^27 under every admissible PITCHENV_RATE (R362). -/
theorem RomAdmissible.peInc_lt {T : Rom} (h : RomAdmissible T) (P : Memory) (n : Fin 4) : peInc T P n < 2 ^ 27 := by
  have hpr : globalParam P (.pr n) ≤ 99 := globalParam_le P (.pr n)
  have hrate := h.pitchenvRate_le _ (Nat.lt_succ_of_le hpr)
  change T.pitchenvRate (globalParam P (.pr n)) * 2 ^ 24 * 10 / (213 * 44100) < 2 ^ 27
  omega

/-! ## The output at level 0 -/

/-- lut_exp2 takes zero to 1.0 without the table (R256). -/
theorem lutExp2_zero : lutExp2 0#32 = f32One := rfl

/-- At level 0 the frequency multiplier is exactly 1.0 (R355). -/
theorem peOut_of_level_zero {p : PitchEnvelope} (h : p.level = 0#32) : peOut p = f32One := by
  have hzero : f32OfRat (0#32).toInt (2 ^ 24) = 0#32 := by decide
  rw [peOut, h, hzero, lutExp2_zero]

/-! ## The unity envelope (R366) -/

/-- At PL(n+1) = 50 the target of stage n is 0 under every admissible PITCHENV_TAB (R351). -/
theorem RomAdmissible.peTarget_of_unity {T : Rom} (hT : RomAdmissible T) {P : Memory} {n : Fin 4}
    (h : Memory.read P (0xE0 + n.val) = 50#8) : peTarget T P n = 0 := by
  obtain ⟨-, hfifty, -⟩ := hT.pitchenvTab_fixed
  have hpl : globalParam P (.pl n) = 50 := by rw [globalParam_pl, h]; rfl
  rw [peTarget, hpl, hfifty, zero_mul]

/-- The envelope held in stage `st`, entered as stage `n` from level 0 with target 0. -/
def unityEntry (T : Rom) (P : Memory) (st : Stage) (n : Fin 4) : PitchEnvelope :=
  { PitchEnvelope.reset with stage := st, keyDown := true, inc := toI32 (peInc T P n) }

/-- Held at level 0, the entry of a stage of target 0 is not rising: the target is the level (R353). -/
theorem peAdvance_eq_unityEntry (T : Rom) {P : Memory} {st : Stage} {n : Fin 4} (hst : stageIndex st = some n)
    (htarget : peTarget T P n = 0) {p : PitchEnvelope} (hlevel : p.level = 0#32) (hkey : p.keyDown = true) :
    peAdvance T P st p = unityEntry T P st n := by
  have hrising : decide (p.level.toInt < 0) = false := by rw [hlevel]; rfl
  rw [peAdvance_of_stageIndex T P hst, htarget, hrising, hlevel, hkey]
  rfl

/-- A trigger from reset enters stage 0 at unity (R357). -/
theorem peTrigger_reset_eq_unityEntry (T : Rom) {P : Memory} (htarget : peTarget T P 0 = 0) :
    peTrigger T P PitchEnvelope.reset = unityEntry T P .attack 0 :=
  peAdvance_eq_unityEntry T (p := { PitchEnvelope.reset with keyDown := true }) rfl htarget rfl rfl

/-- At unity a tick in a stage that moves enters the next one, since level - inc is at most the target (R354). -/
theorem peMove_unityEntry {T : Rom} (hT : RomAdmissible T) {P : Memory} {st : Stage} {n m : Fin 4}
    (hm : stageMoves st true = true) (hnext : stageIndex (nextStage st) = some m) (htarget : peTarget T P m = 0) :
    peMove T P (unityEntry T P st n) = unityEntry T P (nextStage st) m := by
  have hlt := hT.peInc_lt P n
  have hinc : (unityEntry T P st n).inc.toInt = peInc T P n := toI32_toInt (by omega) (by omega)
  have hlevel : (unityEntry T P st n).level.toInt = 0 := rfl
  rcases peMove_cases T P (unityEntry T P st n) with ⟨hstay, -⟩ | ⟨-, -, heq⟩ | ⟨-, hrise, -⟩ | ⟨-, -, hfall, -⟩
  · exact absurd (hm.symm.trans hstay) (by simp)
  · rw [heq]
    exact peAdvance_eq_unityEntry T hnext htarget rfl rfl
  · exact absurd hrise Bool.false_ne_true
  · have htargetInt : (unityEntry T P st n).target.toInt = 0 := rfl
    omega

/-- In stage 3 the key holds the envelope (R354). -/
theorem peMove_of_held_release (T : Rom) (P : Memory) {p : PitchEnvelope} (hst : p.stage = .release)
    (hkey : p.keyDown = true) : peMove T P p = p := by
  have hstay : stageMoves p.stage p.keyDown = false := by rw [hst, hkey]; rfl
  rcases peMove_cases T P p with ⟨-, heq⟩ | ⟨hmove, -⟩ | ⟨hmove, -⟩ | ⟨hmove, -⟩
  · exact heq
  all_goals exact absurd (hmove.symm.trans hstay) (by simp)

/-- Settles O52: the trigger and the first three ticks each enter a stage at unity, the last of which holds, and the output at
level 0 is 1.0. -/
theorem unityPitchLevelsGiveUnity : Obligations.UnityPitchLevelsGiveUnity := by
  intro T hT P hpl p after
  have htarget (n : Fin 4) : peTarget T P n = 0 := hT.peTarget_of_unity (hpl n n.isLt)
  have hsucc (k : Nat) : after (k + 1) = peMove T P (after k) := Function.iterate_succ_apply' _ k p
  have h0 : after 0 = unityEntry T P .attack 0 := peTrigger_reset_eq_unityEntry T (htarget 0)
  have h1 : after 1 = unityEntry T P .decay1 1 := by
    rw [hsucc, h0]
    exact peMove_unityEntry hT rfl rfl (htarget 1)
  have h2 : after 2 = unityEntry T P .decay2 2 := by
    rw [hsucc, h1]
    exact peMove_unityEntry hT rfl rfl (htarget 2)
  have h3 (j : Nat) : after (j + 3) = unityEntry T P .release 3 := by
    induction j with
    | zero =>
      rw [hsucc, h2]
      exact peMove_unityEntry hT rfl rfl (htarget 3)
    | succ j ih =>
      rw [hsucc, ih]
      exact peMove_of_held_release T P rfl rfl
  refine ⟨congrArg (·.target) h0, congrArg (·.stage) h0, congrArg (·.stage) h1, congrArg (·.stage) h2, fun k hk => ?_,
    fun k => peOut_of_level_zero ?_⟩
  · obtain ⟨j, rfl⟩ := Nat.exists_eq_add_of_le' hk
    exact congrArg (·.stage) (h3 j)
  · rw [← hsucc]
    match k with
    | 0 => exact congrArg (·.level) h1
    | 1 => exact congrArg (·.level) h2
    | j + 2 => exact congrArg (·.level) (h3 j)

end Sys2Proof.Machine

/-! SUPPORT. The operator's trigger (spec/44_operator.md R390, R397): what it leaves in each register, oscillator key sync by its
byte, and the rate-scaling delta with its range. -/

namespace Sys2Proof.Machine

/-! ## Oscillator key sync -/

/-- A per-operator parameter as a boolean is its byte not being 0 (R15, R153). -/
theorem opFlag_iff (P : Memory) (i : Fin 6) (f : OpField) : opFlag P i f = true ↔ Memory.read P (opAddr i f) ≠ 0#8 := by
  rw [opFlag, rawOp, bne_iff_ne, ne_eq, ne_eq, BitVec.toNat_eq]
  rfl

@[simp] theorem oscKeySyncAt_inc (P : Memory) (i : Fin 6) (o : Oscillator) : (oscKeySyncAt P i o).inc = o.inc := by
  unfold oscKeySyncAt
  split <;> rfl

/-- Key sync puts the phase to +0.0 where the byte OSC_KEY_SYNC, at 0x20 * i + 0x16 (R152), is not 0; else the phase runs on. -/
theorem oscKeySyncAt_phase_of_ne {P : Memory} {i : Fin 6} (h : Memory.read P (0x20 * i.val + 0x16) ≠ 0#8) (o : Oscillator) :
    (oscKeySyncAt P i o).phase = 0#32 := by
  rw [oscKeySyncAt, if_pos ((opFlag_iff P i .oscKeySync).mpr h)]
  rfl

theorem oscKeySyncAt_phase_of_eq {P : Memory} {i : Fin 6} (h : Memory.read P (0x20 * i.val + 0x16) = 0#8) (o : Oscillator) :
    (oscKeySyncAt P i o).phase = o.phase := by
  rw [oscKeySyncAt, if_neg fun hsync => (opFlag_iff P i .oscKeySync).mp hsync h]

/-! ## What the trigger leaves in each register (R390)

The proofs rewrite instead of `rfl`, which would have Lean evaluate the datapath to test whether they hold by definition. -/

section
variable (T : Rom) (P : Memory) (n vel : Nat) (i : Fin 6) (o : Operator)

@[simp] theorem opTrigger_freq : (opTrigger T P n vel i o).freq = opFreq T P i n := by rw [opTrigger]

@[simp] theorem opTrigger_velF : (opTrigger T P n vel i o).velF = velFactor T P i vel := by rw [opTrigger]

@[simp] theorem opTrigger_lsF : (opTrigger T P n vel i o).lsF = klsFactor T P i n := by rw [opTrigger]

@[simp] theorem opTrigger_osc :
    (opTrigger T P n vel i o).osc = oscKeySyncAt P i (oscSetFreq (opFreq T P i n) o.osc) := by rw [opTrigger]

@[simp] theorem opTrigger_env :
    (opTrigger T P n vel i o).env = envTrigger T P i { o.env with rsDelta := toI32 (rateDelta P i n) } := by rw [opTrigger]

@[simp] theorem opTrigger_prevOut : (opTrigger T P n vel i o).prevOut = o.prevOut := by rw [opTrigger]

end

@[simp] theorem oscSetFreq_inc (f : F32) (o : Oscillator) :
    (oscSetFreq f o).inc = f32Div (oscClampFreq f) sampleRateF32 := by rw [oscSetFreq]

@[simp] theorem oscSetFreq_phase (f : F32) (o : Oscillator) : (oscSetFreq f o).phase = o.phase := by rw [oscSetFreq]

/-- The envelope trigger reads the rate delta and leaves it (R313). -/
@[simp] theorem envTrigger_rsDelta (T : Rom) (P : Memory) (i : Fin 6) (e : Envelope) :
    (envTrigger T P i e).rsDelta = e.rsDelta := envAdvance_rsDelta T P i .attack _

/-- Settles O28: each register by its lemma, the phase by the byte OSC_KEY_SYNC. -/
theorem operatorTriggerWrites : Obligations.OperatorTriggerWrites := by
  intro T P i n vel o
  refine ⟨opTrigger_freq .., ?_, opTrigger_velF .., opTrigger_lsF .., opTrigger_env .., fun hsync => ?_, fun hsync => ?_,
    opTrigger_prevOut ..⟩
  · rw [opTrigger_osc, oscKeySyncAt_inc, oscSetFreq_inc]
  · rw [opTrigger_osc, oscKeySyncAt_phase_of_ne hsync]
  · rw [opTrigger_osc, oscKeySyncAt_phase_of_eq hsync, oscSetFreq_phase]

/-! ## The rate-scaling delta (R397) -/

/-- The delta as a function of the sensitivity RS and the clamped key number x: `RS * x / 8` with the two DX7 corrections. -/
def scaledRateDelta (rs x : Nat) : Int :=
  ((rs * x / 8 : Nat) : Int) - (if rs = 3 ∧ x % 8 = 3 then 1 else 0) + (if rs = 7 ∧ x % 8 ∈ [1, 2, 3] then 1 else 0)

/-- RATE_SCALING by its byte at 0x20 * i + 0x0E (R152, R153). -/
theorem opParam_rateScaling (P : Memory) (i : Fin 6) :
    opParam P i .rateScaling = min (Memory.read P (0x20 * i.val + 0x0E)).toNat 7 := rfl

/-- On the naturals the truncated subtraction is the clamp at 0. -/
theorem clampInt_sub_toNat (k m hi : Nat) : (clampInt ((k : Int) - m) 0 hi).toNat = min (k - m) hi := by
  unfold clampInt
  omega

theorem rateDelta_eq_scaledRateDelta (P : Memory) (i : Fin 6) (n : Nat) :
    rateDelta P i n = scaledRateDelta (opParam P i .rateScaling) (min (n / 3 - 7) 31) := by
  have hx : (clampInt (((n / 3 : Nat) : Int) - 7) 0 31).toNat = min (n / 3 - 7) 31 := clampInt_sub_toNat (n / 3) 7 31
  simp only [rateDelta, scaledRateDelta, hx, List.mem_cons, List.not_mem_nil, or_false]
  split_ifs <;> omega

/-- The delta lies in 0..27: the correction by -1 acts at x of at least 3, where `3 * x / 8` is not 0; that by +1 acts at x of at
most 27, where `7 * x / 8` is below 27. -/
theorem scaledRateDelta_range {rs x : Nat} (hrs : rs ≤ 7) (hx : x ≤ 31) :
    0 ≤ scaledRateDelta rs x ∧ scaledRateDelta rs x ≤ 27 := by
  have hprod : rs * x ≤ 7 * 31 := Nat.mul_le_mul hrs hx
  simp only [scaledRateDelta, List.mem_cons, List.not_mem_nil, or_false]
  by_cases hminus : rs = 3 ∧ x % 8 = 3
  · obtain ⟨rfl, hmod⟩ := hminus
    simp only [hmod]
    omega
  · rw [if_neg hminus]
    by_cases hplus : rs = 7 ∧ (x % 8 = 1 ∨ x % 8 = 2 ∨ x % 8 = 3)
    · obtain ⟨rfl, hmod⟩ := hplus
      simp only [hmod]
      omega
    · rw [if_neg hplus]
      omega

theorem rateDelta_range (P : Memory) (i : Fin 6) (n : Nat) : 0 ≤ rateDelta P i n ∧ rateDelta P i n ≤ 27 := by
  rw [rateDelta_eq_scaledRateDelta]
  exact scaledRateDelta_range (opParam_le P i .rateScaling) (Nat.min_le_right ..)

/-- The triggered envelope holds the delta, which fits the register. -/
theorem opTrigger_rsDelta_toInt (T : Rom) (P : Memory) (n vel : Nat) (i : Fin 6) (o : Operator) :
    (opTrigger T P n vel i o).env.rsDelta.toInt = rateDelta P i n := by
  obtain ⟨hnonneg, hle⟩ := rateDelta_range P i n
  rw [opTrigger_env, envTrigger_rsDelta]
  exact toI32_toInt (by omega) (by omega)

/-- Settles O58, for every note: the clamp of the key number is taken on the naturals. -/
theorem rateDeltaRange : Obligations.RateDeltaRange := by
  intro T P i n vel o _
  obtain ⟨hnonneg, hle⟩ := rateDelta_range P i n
  have hformula := rateDelta_eq_scaledRateDelta P i n
  rw [opParam_rateScaling] at hformula
  exact ⟨hformula, hnonneg, hle, opTrigger_rsDelta_toInt T P n vel i o⟩

end Sys2Proof.Machine

/-! SUPPORT. The algorithm pass from an arbitrary scratch buffer (spec/45_algorithm.md R440): two scratch buffers that agree but
for the slots of the pending cores, those still to be evaluated, agree after each turn in one slot more. -/

namespace Sys2Proof.Machine

/-- Two scratch buffers agree but for the slots of the pending cores. -/
def AgreeButPending (pending : List (Fin 6)) (x y : Vector F32 6) : Prop := ∀ j : Fin 6, j ∉ pending → x[j] = y[j]

/-- With no core pending the buffers are the same. -/
theorem AgreeButPending.eq_of_nil {x y : Vector F32 6} (h : AgreeButPending [] x y) : x = y :=
  Vector.ext fun k hk => h ⟨k, hk⟩ List.not_mem_nil

/-- Writing one value to the slot of a core settles it. -/
theorem AgreeButPending.set {i : Fin 6} {rest : List (Fin 6)} {x y : Vector F32 6} (h : AgreeButPending (i :: rest) x y)
    (r : F32) : AgreeButPending rest (x.set i r) (y.set i r) := by
  intro j hj
  rw [Fin.getElem_fin, Fin.getElem_fin]
  by_cases hji : j = i
  · subst hji
    rw [Vector.getElem_set_self, Vector.getElem_set_self]
  · have hne : i.val ≠ j.val := fun e => hji (Fin.ext e.symm)
    rw [Vector.getElem_set_ne _ _ hne, Vector.getElem_set_ne _ _ hne]
    exact h j (List.not_mem_cons_of_ne_of_not_mem hji hj)

/-- The phase input of a core reads the slots of its modulators and no other (R441). -/
theorem phaseInput_congr {A : Algorithm} {i : Fin 6} {x y : Vector F32 6} (h : ∀ j ∈ algMods A i, x[j] = y[j]) :
    phaseInput A x i = phaseInput A y i := by
  have hsum : (algMods A i).foldl (fun pm j => f32Add pm x[j]) f32Zero =
      (algMods A i).foldl (fun pm j => f32Add pm y[j]) f32Zero :=
    List.foldl_ext _ _ _ fun pm j hj => by rw [h j hj]
  rw [phaseInput, phaseInput, hsum]

/-- With modulators above what they modulate (R432), turns over cores in descending order read no pending slot: each turn
evaluates the same operator on the same phase input, and writes the same output to its own slot. -/
theorem AgreeButPending.foldl_algTurn {T : Rom} {P : Memory} (pmod amod : F32)
    (habove : ∀ i : Fin 6, ∀ j ∈ algMods (selectedAlgorithm T P) i, i < j) {l : List (Fin 6)} (hl : l.Pairwise (· > ·))
    {x y : Vector F32 6} (h : AgreeButPending l x y) (ops : Vector Operator 6) (out : F32) :
    l.foldl (algTurn T P pmod amod) { ops := ops, scratch := x, out := out } =
      l.foldl (algTurn T P pmod amod) { ops := ops, scratch := y, out := out } := by
  induction l generalizing x y ops out with
  | nil => rw [h.eq_of_nil]
  | cons i rest ih =>
    obtain ⟨hbelow, hrest⟩ := List.pairwise_cons.mp hl
    have hnotPending : ∀ j ∈ algMods (selectedAlgorithm T P) i, j ∉ i :: rest := fun j hj =>
      List.not_mem_cons_of_ne_of_not_mem (habove i j hj).ne' fun hmem => lt_asymm (habove i j hj) (hbelow j hmem)
    have hinput : phaseInput (selectedAlgorithm T P) x i = phaseInput (selectedAlgorithm T P) y i :=
      phaseInput_congr fun j hj => h j (hnotPending j hj)
    simp only [List.foldl_cons, algTurn, hinput]
    exact ih hrest (h.set _) _ _

/-- Settles O38: at the start every core is pending, so any scratch buffer agrees with the cleared one. -/
theorem scratchClearUnobservable : Obligations.ScratchClearUnobservable := by
  intro T P pmod amod ops scratch hrouting
  obtain ⟨habove, -, -, -⟩ := hrouting
  have hall : ∀ j : Fin 6, j ∈ evaluationOrder := by decide
  have hdescending : evaluationOrder.Pairwise (· > ·) := by decide
  have hstart : AgreeButPending evaluationOrder scratch (Vector.replicate 6 f32Zero) := fun j hj => absurd (hall j) hj
  exact hstart.foldl_algTurn pmod amod habove hdescending ops f32Zero

end Sys2Proof.Machine

/-! SUPPORT. The LFO's delay (spec/46_lfo.md R473, R474, R480): its countdown over many ticks, and who writes it, from what a tick,
a NOTE_ON and every other command make of the LFO. -/

namespace Sys2Proof.Machine

/-! ## The countdown -/

/-- While the delay runs, an LFO step lowers it by 1 and outputs (+0.0, 1.0) (R473). -/
theorem lfoStep_of_delay_ne_zero (T : Rom) (P : Memory) {L : Lfo} (h : L.delay ≠ 0#32) :
    lfoStep T P L = { L with delay := L.delay - 1#32, ampMod := f32Zero, pitchMod := f32One } := by
  rcases lfoStep_cases T P L with ⟨-, hstep⟩ | ⟨hzero, -⟩
  · exact hstep
  · exact absurd hzero h

theorem lfoStep_delay_of_eq_zero (T : Rom) (P : Memory) {L : Lfo} (h : L.delay = 0#32) :
    (lfoStep T P L).delay = 0#32 := by
  rcases lfoStep_cases T P L with ⟨hne, -⟩ | ⟨-, hdelay, -⟩
  · exact absurd h hne
  · exact hdelay

/-- After `k` steps, at least one and at most the delay, the delay is lower by `k` and the LFO is otherwise held. -/
theorem lfoStep_iterate_of_le_delay (T : Rom) (P : Memory) (L : Lfo) {k : Nat} (hk : 0 < k) (hle : k ≤ L.delay.toNat) :
    (lfoStep T P)^[k] L =
      { L with delay := L.delay - BitVec.ofNat 32 k, ampMod := f32Zero, pitchMod := f32One } := by
  induction k, hk using Nat.le_induction with
  | base => exact lfoStep_of_delay_ne_zero T P (by rintro h; simp [h] at hle)
  | succ k hk ih =>
    have hrunning : L.delay - BitVec.ofNat 32 k ≠ 0#32 := by bv_omega
    have hnext : L.delay - BitVec.ofNat 32 k - 1#32 = L.delay - BitVec.ofNat 32 (k + 1) := by bv_omega
    rw [Function.iterate_succ_apply', ih (by omega), lfoStep_of_delay_ne_zero T P hrunning, hnext]

/-! ## What each event makes of the LFO -/

/-- A tick steps the LFO where the block is configured (R520). -/
theorem tick_lfo (T : Rom) (s : State) :
    (tick T s).lfo = if s.configured then lfoStep T s.params s.lfo else s.lfo := by
  cases h : s.configured with
  | false => rw [tick_unconfigured h]; rfl
  | true => delta tick; rw [h]; rfl

/-- NOTE_ON triggers the LFO or leaves it as it is (R530, R531). -/
theorem synthNoteOn_lfo_cases (T : Rom) (note vel : BitVec 7) (s : State) :
    (synthNoteOn T note vel s).lfo = lfoTrigger T s.params s.lfo ∨ (synthNoteOn T note vel s).lfo = s.lfo := by
  rcases synthNoteOn_cases T note vel s with ⟨-, e⟩ | ⟨-, f, -, ⟨-, e⟩ | ⟨-, e⟩⟩ | ⟨-, -, e⟩ <;> rw [e]
  · exact .inl rfl
  · exact .inl rfl
  · exact .inr rfl
  · exact .inr rfl

/-- Of the commands only NOTE_ON writes the LFO, and then by its trigger. -/
theorem commandEffect_lfo_cases (i : Instr) (s : State) :
    (commandEffect i s).lfo = s.lfo ∨
      ∃ note vel, i = .noteOn note vel ∧ (commandEffect i s).lfo = lfoTrigger rom s.params s.lfo := by
  cases i with
  | noteOn note vel =>
    rw [commandEffect_noteOn]
    split
    · exact (synthNoteOn_lfo_cases rom note vel s).symm.imp_right fun h => ⟨note, vel, rfl, h⟩
    · exact .inl rfl
  | noteOff note =>
    rw [commandEffect_noteOff]
    split
    · exact .inl (synthNoteOff_lfo rom note s)
    · exact .inl rfl
  | _ => exact .inl (by simp)

/-- A tick that changes the delay lowers a positive delay by 1. -/
theorem tick_delay_of_ne {T : Rom} {s : State} (h : (tick T s).lfo.delay ≠ s.lfo.delay) :
    s.lfo.delay ≠ 0#32 ∧ (tick T s).lfo.delay = s.lfo.delay - 1#32 := by
  rw [tick_lfo] at h ⊢
  split at h
  · rename_i hconfigured
    rw [if_pos hconfigured]
    have hne : s.lfo.delay ≠ 0#32 := fun hz => h ((lfoStep_delay_of_eq_zero T s.params hz).trans hz.symm)
    exact ⟨hne, congrArg Lfo.delay (lfoStep_of_delay_ne_zero T s.params hne)⟩
  · exact absurd rfl h

/-- Settles O59: the countdown by induction on the ticks, and the delay's writers by the kind of event. -/
theorem lfoDelayCountsDown : Obligations.LfoDelayCountsDown := by
  refine ⟨fun T P L _ => lfoStep_iterate_of_le_delay T P L, fun T P _ => lfoStep_delay_of_eq_zero T P,
    fun s t hs hne => ?_⟩
  rcases step_cases hs with ⟨-, rfl⟩ | ⟨rest, he, rfl⟩ | ⟨rest, he, -⟩ | ⟨w, rest, c, -, -, rfl⟩ | ⟨w, rest, i, he, hd, hx⟩
  · exact absurd rfl hne
  · obtain ⟨hpos, hlower⟩ := tick_delay_of_ne (s := { s with events := rest }) hne
    exact .inr (.inl ⟨rest, he, Nat.pos_of_ne_zero fun hz => hpos (BitVec.eq_of_toNat_eq hz), hlower⟩)
  · exact .inl ⟨rest, he⟩
  · exact absurd rfl hne
  · rcases exec_cases hx with ⟨c, -, rfl⟩ | ⟨-, rfl⟩
    · exact absurd rfl hne
    · rcases commandEffect_lfo_cases i { s with events := rest } with hkept | ⟨note, vel, rfl, htrigger⟩
      · exact absurd (congrArg Lfo.delay hkept) hne
      · exact .inr (.inr ⟨w, rest, note, vel, he, hd, congrArg Lfo.delay htrigger⟩)

end Sys2Proof.Machine

/-! SUPPORT. NOTE_ON's allocation (spec/47_voice_synth.md R501, R502, R530, R531): the note transposed by its byte, and what
synth_note_on is in each of its cases, with the tests of the cases by their bytes. -/

namespace Sys2Proof.Machine

/-! ## The transposed note (R501) -/

/-- eff(note) with its byte written out: TRANSPOSE is the byte at 0xC2, clamped to 48 (R59, R152). -/
theorem effectiveNote_eq (P : Memory) (note : BitVec 7) :
    effectiveNote P note =
      (min (max ((note.toNat : Int) + min (Memory.read P 0xC2).toNat 48 - 24) 0) 127).toNat := rfl

/-- Settles O27: the model's start of a note, with the transposed note by its byte. -/
theorem voiceStartTransposesAndTriggers : Obligations.VoiceStartTransposesAndTriggers := by
  intro T P note vel vc n
  have hn : effectiveNote P note = n := effectiveNote_eq P note
  rw [← hn]
  rfl

/-! ## The cases of synth_note_on (R530) -/

/-- A voice, LFO or synth parameter as a boolean is its byte not being 0 (R15, R153). -/
theorem globalFlag_iff (P : Memory) (f : GlobalField) :
    globalFlag P f = true ↔ Memory.read P (globalAddr f) ≠ 0#8 := by
  delta globalFlag rawGlobal
  rw [bne_iff_ne, ne_eq, ne_eq, BitVec.toNat_eq]
  rfl

theorem globalFlag_eq_false_iff (P : Memory) (f : GlobalField) :
    globalFlag P f = false ↔ Memory.read P (globalAddr f) = 0#8 := by
  rw [← Bool.not_eq_true, globalFlag_iff, not_not]

/-- NOTE_ON of a configured block is synth_note_on (R550). -/
theorem exec_noteOn_of_configured {s : State} (h : s.configured = true) (note vel : BitVec 7) :
    exec (.noteOn note vel) s = .next (synthNoteOn rom note vel s) := by
  rw [exec_of_wellFormed rfl, commandEffect_noteOn, if_pos h]

section
variable (T : Rom) (note vel : BitVec 7) {s : State}

/-- Monophonic: every voice released, the LFO triggered, voice 0 started. -/
theorem synthNoteOn_of_mono (h : globalFlag s.params .mono = true) :
    synthNoteOn T note vel s = startNote T 0 note vel (triggerLfo T (releaseAll T s)) := if_pos h

/-- Polyphonic with a free voice: the voice started, and the LFO triggered where the pool was idle or key sync is set. -/
theorem synthNoteOn_of_free {f : Fin 8} (h : globalFlag s.params .mono = false) (hf : firstFree s = some f) :
    synthNoteOn T note vel s =
      if anyActive s = false ∨ globalFlag s.params .lfoKeySync = true then triggerLfo T (startNote T f note vel s)
      else startNote T f note vel s := by
  simp [synthNoteOn, h, hf]

/-- Polyphonic with no free voice: a voice is stolen. -/
theorem synthNoteOn_of_full (h : globalFlag s.params .mono = false) (hf : firstFree s = none) :
    synthNoteOn T note vel s = stealVoice T note vel s := by
  simp [synthNoteOn, h, hf]

end

/-- NOTE_ON on a full polyphonic pool steals (R530). -/
theorem exec_noteOn_of_full {s : State} (hc : s.configured = true) (hmono : Memory.read s.params 0xF0 = 0#8)
    (hfull : ∀ v, activeIn s v = true) (note vel : BitVec 7) :
    exec (.noteOn note vel) s = .next (stealVoice rom note vel s) := by
  rw [exec_noteOn_of_configured hc,
    synthNoteOn_of_full rom note vel (Iff.mpr (globalFlag_eq_false_iff _ _) hmono) (Iff.mpr firstFree_eq_none hfull)]

/-- Settles O25, by the mode and by whether a voice is free. -/
theorem noteOnAllocatesVoice : Obligations.NoteOnAllocatesVoice := by
  intro s note vel hc hcounter
  have hnext := nextCounter_of_ne hcounter
  refine ⟨fun hmono => ?_, fun hmono f hf hbelow => ?_, fun hmono hfull => exec_noteOn_of_full hc hmono hfull note vel⟩
  · have hmonoFlag : globalFlag s.params .mono = true := Iff.mpr (globalFlag_iff _ _) hmono
    refine ⟨_, exec_noteOn_of_configured hc note vel, ?_⟩
    rw [synthNoteOn_of_mono rom note vel hmonoFlag]
    refine ⟨?_, ?_, fun v hv => ?_⟩
    · rw [← hnext]; rfl
    · rw [← hnext]
      exact (startNote_same rom 0 note vel _).trans (by rw [triggerLfo_voices, releaseAll_voice]; rfl)
    · rw [startNote_other rom hv, triggerLfo_voices, releaseAll_voice]
  · have hpoly : globalFlag s.params .mono = false := Iff.mpr (globalFlag_eq_false_iff _ _) hmono
    have htrigger : (anyActive s = false ∨ globalFlag s.params .lfoKeySync = true) ↔
        (∀ v, activeIn s v = false) ∨ Memory.read s.params 0xD6 ≠ 0#8 :=
      or_congr anyActive_eq_false (globalFlag_iff _ _)
    refine ⟨_, exec_noteOn_of_configured hc note vel, ?_⟩
    rw [synthNoteOn_of_free rom note vel hpoly (Iff.mpr firstFree_eq_some ⟨hf, hbelow⟩), ← hnext]
    split
    · rename_i h
      exact ⟨rfl, startNote_same rom f note vel s, fun v hv => startNote_other rom hv note vel s,
        (if_pos (htrigger.mp h)).symm⟩
    · rename_i h
      exact ⟨rfl, startNote_same rom f note vel s, fun v hv => startNote_other rom hv note vel s,
        (if_neg (mt htrigger.mpr h)).symm⟩

/-! ## The steal (R531) -/

/-- The stolen voice is the one voice of least age that is below every other such. -/
theorem oldestVoice_eq {s : State} {m : Fin 8} (hleast : ∀ v : Fin 8, s.voices[m].age ≤ s.voices[v].age)
    (hlowest : ∀ v : Fin 8, v < m → s.voices[m].age < s.voices[v].age) : oldestVoice s = m := by
  have hm := oldestVoice_spec s m
  rcases lt_trichotomy (oldestVoice s) m with hlt | heq | hgt
  · exact absurd (hlowest _ hlt) (BitVec.not_lt.mpr hm.1)
  · exact heq
  · exact absurd (hm.2 hgt) (BitVec.not_lt.mpr (hleast _))

/-- Settles O26: the given voice is the oldest, which a steal restarts. -/
theorem noteOnStealsOldestVoice : Obligations.NoteOnStealsOldestVoice := by
  intro s note vel m hc hcounter hmono hfull hleast hlowest
  obtain rfl := oldestVoice_eq hleast hlowest
  rw [← nextCounter_of_ne hcounter]
  exact ⟨_, exec_noteOn_of_full hc hmono hfull note vel, stealVoice_frame rom note vel s,
    stealVoice_same rom note vel s, fun v hv => stealVoice_other rom note vel s hv⟩

end Sys2Proof.Machine

/-! SUPPORT. The tick as the sequential loop of spec/47_voice_synth.md R520: what one turn of the loop does, and what the loop
has done after any list of voices without repeats, since a turn changes its own voice alone. -/

namespace Sys2Proof.Machine

/-! ## The tick's equation -/

/-- A configured tick in one equation (R520): the LFO's step, every voice's turn, and the samples summed in slot order. -/
theorem tick_of_configured (T : Rom) {s : State} (h : s.configured = true) :
    tick T s =
      { s with
        lfo := lfoStep T s.params s.lfo
        voices := s.voices.map fun vc => (voiceTurn T s.params (lfoStep T s.params s.lfo) vc).1
        out := voiceIndices.foldl (fun acc v =>
          addSample acc (voiceTurn T s.params (lfoStep T s.params s.lfo) s.voices[v]).2) f32Zero } := by
  delta tick
  simp only [h, Bool.not_true, Bool.false_eq_true, if_false, Fin.getElem_fin, Vector.getElem_map, Vector.map_map,
    Function.comp_def]

/-- The activity test of a configured block is the one that a tick makes. -/
theorem activeIn_of_configured {s : State} (h : s.configured = true) (v : Fin 8) :
    activeIn s v = voiceActive true s.params s.voices[v] := congrArg (voiceActive · s.params s.voices[v]) h

/-- An active voice steps and gives its sample. -/
theorem voiceTurn_of_active (T : Rom) {P : Memory} (L : Lfo) {vc : Voice} (h : voiceActive true P vc = true) :
    voiceTurn T P L vc = ((voiceStep T P L vc).1, some (voiceStep T P L vc).2) := if_pos h

/-- An inactive voice is left alone and gives no sample (R511). -/
theorem voiceTurn_of_inactive (T : Rom) {P : Memory} (L : Lfo) {vc : Voice} (h : voiceActive true P vc = false) :
    voiceTurn T P L vc = (vc, none) := if_neg (by rw [h]; exact Bool.false_ne_true)

/-! ## The loop -/

/-- One turn of R520's loop, on the state it has reached and the sum so far. -/
def loopTurn (T : Rom) (x : State × F32) (v : Fin 8) : State × F32 :=
  if activeIn x.1 v then
    ({ x.1 with voices := x.1.voices.set v (voiceStep T x.1.params x.1.lfo x.1.voices[v]).1 },
      f32Add x.2 (voiceStep T x.1.params x.1.lfo x.1.voices[v]).2)
  else x

/-- The turn of voice `v` in state `s`. -/
def turnOf (T : Rom) (s : State) (v : Fin 8) : Voice × Option F32 := voiceTurn T s.params s.lfo s.voices[v]

/-- State `s` with the turns of the voices in `l` taken, each from `s` itself. -/
def withTurns (T : Rom) (s : State) (l : List (Fin 8)) : State :=
  { s with voices := Vector.ofFn fun v => if v ∈ l then (turnOf T s v).1 else s.voices[v] }

theorem withTurns_of_mem (T : Rom) (s : State) {l : List (Fin 8)} {v : Fin 8} (h : v ∈ l) :
    (withTurns T s l).voices[v] = (turnOf T s v).1 := by
  delta withTurns
  simp [h]

theorem withTurns_of_not_mem (T : Rom) (s : State) {l : List (Fin 8)} {v : Fin 8} (h : v ∉ l) :
    (withTurns T s l).voices[v] = s.voices[v] := by
  delta withTurns
  simp [h]

/-- Two equal lists of voices, given voice by voice, make the same state. -/
theorem withVoices_congr (s : State) {V W : Vector Voice 8} (h : ∀ v : Fin 8, V[v] = W[v]) :
    ({ s with voices := V } : State) = { s with voices := W } :=
  congrArg (fun X => { s with voices := X }) (Vector.ext fun k hk => h ⟨k, hk⟩)

/-- One turn of the loop is the turn of its voice, active or not. -/
theorem loopTurn_eq_turnOf (T : Rom) {s : State} (h : s.configured = true) (acc : F32) (v : Fin 8) :
    loopTurn T (s, acc) v =
      (updateVoice v (fun _ => (turnOf T s v).1) s, addSample acc (turnOf T s v).2) := by
  have hactive := activeIn_of_configured h v
  cases ha : activeIn s v with
  | true =>
    have hturn : turnOf T s v = _ := voiceTurn_of_active T s.lfo (hactive.symm.trans ha)
    rw [hturn]
    exact if_pos ha
  | false =>
    have hturn : turnOf T s v = (s.voices[v], none) := voiceTurn_of_inactive T s.lfo (hactive.symm.trans ha)
    have hkept : s.voices.set v s.voices[v] = s.voices := by simp
    have hstate : updateVoice v (fun _ => s.voices[v]) s = s := congrArg (fun V => { s with voices := V }) hkept
    rw [hturn, hstate]
    exact if_neg (by simp [ha])

/-- Writing voice `v` leaves the turn of every other voice (R520: a voice's step changes only its own state). -/
theorem turnOf_updateVoice_other (T : Rom) {v w : Fin 8} (h : w ≠ v) (f : Voice → Voice) (s : State) :
    turnOf T (updateVoice v f s) w = turnOf T s w :=
  congrArg (voiceTurn T s.params s.lfo) (updateVoice_other h f s)

/-- The loop over a list without repeats takes the turn of each listed voice as from the loop's first state, and adds their
samples in the list's order. -/
theorem foldl_loopTurn (T : Rom) {s : State} (h : s.configured = true) {l : List (Fin 8)} (hl : l.Nodup) (acc : F32) :
    l.foldl (loopTurn T) (s, acc) =
      (withTurns T s l, l.foldl (fun acc v => addSample acc (turnOf T s v).2) acc) := by
  induction l generalizing s acc with
  | nil => simp [withTurns]
  | cons v l ih =>
    obtain ⟨hv, hl⟩ := List.nodup_cons.mp hl
    have hother : ∀ w : Fin 8, w ∈ l → w ≠ v := fun w hw e => hv (e ▸ hw)
    have hturn : ∀ w : Fin 8, w ∈ l → turnOf T (updateVoice v (fun _ => (turnOf T s v).1) s) w = turnOf T s w :=
      fun w hw => turnOf_updateVoice_other T (hother w hw) _ s
    rw [List.foldl_cons, loopTurn_eq_turnOf T h, ih (s := updateVoice v _ s) h hl, List.foldl_cons]
    refine Prod.ext ?_ (List.foldl_ext _ _ _ fun acc w hw => by rw [hturn w hw])
    refine withVoices_congr s fun w => ?_
    by_cases hw : w ∈ l
    · exact (withTurns_of_mem T _ hw).trans
        ((congrArg Prod.fst (hturn w hw)).trans (withTurns_of_mem T s (List.mem_cons_of_mem v hw)).symm)
    · refine (withTurns_of_not_mem T _ hw).trans ?_
      by_cases hwv : w = v
      · subst hwv
        exact (updateVoice_same w _ s).trans (withTurns_of_mem T s List.mem_cons_self).symm
      · exact (updateVoice_other hwv _ s).trans
          (withTurns_of_not_mem T s (List.not_mem_cons_of_ne_of_not_mem hwv hw)).symm

/-- Settles O33: the loop over all eight voices takes every voice's turn from the state after the LFO's step, as the tick does. -/
theorem tickIsSequentialLoop : Obligations.TickIsSequentialLoop := by
  refine fun T s => ⟨tick_unconfigured, fun hc => ?_⟩
  have hloop := foldl_loopTurn T (s := { s with lfo := lfoStep T s.params s.lfo }) hc (l := voiceIndices) (by decide) f32Zero
  have hall : (withTurns T { s with lfo := lfoStep T s.params s.lfo } voiceIndices).voices =
      s.voices.map fun vc => (voiceTurn T s.params (lfoStep T s.params s.lfo) vc).1 := by
    refine Vector.ext fun k hk => ?_
    rw [Vector.getElem_map]
    exact withTurns_of_mem T _ (mem_voiceIndices ⟨k, hk⟩)
  intro body x
  have hx : x = _ := hloop
  rw [tick_of_configured T hc, hx, ← hall]
  rfl

end Sys2Proof.Machine

/-! SUPPORT. Silence before the first NOTE_ON (spec/47_voice_synth.md R522, R543): only a NOTE_ON arms an envelope, a tick with none
armed outputs +0.0, and a run of the host's events keeps what every step of them keeps. -/

namespace Sys2Proof.Machine

/-! ## What keeps every envelope un-armed -/

/-- A state in which no further envelope is armed has nothing armed either. -/
theorem NothingArmed.of_armed {s t : State} (h : NothingArmed s)
    (harm : ∀ (v : Fin 8) (i : Fin 6), t.voices[v].ops[i].env.armed = true → s.voices[v].ops[i].env.armed = true) :
    NothingArmed t :=
  fun v i => Bool.eq_false_of_not_eq_true fun ht => Bool.false_ne_true ((h v i).symm.trans (harm v i ht))

/-- Whether anything is armed depends on the voices alone. -/
theorem NothingArmed.of_voices {s t : State} (h : NothingArmed s) (hv : t.voices = s.voices) : NothingArmed t :=
  h.of_armed fun v i ht => by rwa [hv] at ht

/-- After reset nothing is armed (R68). -/
theorem nothingArmed_hardwareReset (T : Rom) (s : State) : NothingArmed (hardwareReset T s) := by
  intro v i
  have hv : (hardwareReset T s).voices[v] = Voice.reset := by simp [State.resetOf]
  have hop : Voice.reset.ops[i] = Operator.reset := by simp [Voice.reset]
  rw [hv, hop]
  rfl

/-- NOTE_OFF arms no envelope: a release keeps the armed bits (R314). -/
theorem synthNoteOff_armed (T : Rom) (note : BitVec 7) (s : State) (w : Fin 8) (i : Fin 6) :
    (synthNoteOff T note s).voices[w].ops[i].env.armed = s.voices[w].ops[i].env.armed := by
  rcases synthNoteOff_cases T note s with ⟨v, -, e⟩ | ⟨-, e⟩ <;> rw [e]
  by_cases hw : w = v
  · subst hw
    rw [updateVoice_same, voiceNoteOff_op, opRelease_armed]
  · rw [updateVoice_other hw]

/-- No command but NOTE_ON arms an envelope. -/
theorem commandEffect_armed {i : Instr} (h : ∀ note vel, i ≠ .noteOn note vel) (s : State) (v : Fin 8) (k : Fin 6) :
    (commandEffect i s).voices[v].ops[k].env.armed = s.voices[v].ops[k].env.armed := by
  cases i with
  | noteOn note vel => exact absurd rfl (h note vel)
  | noteOff note =>
    rw [commandEffect_noteOff]
    split
    · exact synthNoteOff_armed rom note s v k
    · rfl
  | _ => simp

/-! ## The output and the pending events -/

/-- With nothing armed no voice is active (R86, R87). -/
theorem NothingArmed.not_activeIn {s : State} (h : NothingArmed s) (v : Fin 8) : activeIn s v = false := by
  refine Bool.eq_false_of_not_eq_true fun hactive => ?_
  obtain ⟨i, hi⟩ := armed_of_activeIn hactive
  exact Bool.false_ne_true ((h v i).symm.trans hi)

/-- With nothing armed a tick adds no sample, so its output is +0.0 (R522). -/
theorem NothingArmed.tick_out {s : State} (h : NothingArmed s) (T : Rom) : (tick T s).out = 0#32 := by
  cases hc : s.configured with
  | false => rw [tick_unconfigured hc]; rfl
  | true =>
    have hnone (acc : F32) (v : Fin 8) :
        addSample acc (voiceTurn T s.params (lfoStep T s.params s.lfo) s.voices[v]).2 = acc := by
      rw [voiceTurn_of_inactive T _ ((activeIn_of_configured hc v).symm.trans (h.not_activeIn v))]
      rfl
    rw [tick_of_configured T hc]
    simp only [hnone, List.foldl_fixed]
    rfl

/-- No command writes S.out (R56). -/
theorem commandEffect_out (i : Instr) (s : State) : (commandEffect i s).out = s.out := by
  cases i with
  | noteOn note vel => rw [commandEffect_noteOn]; split <;> simp
  | noteOff note => rw [commandEffect_noteOff]; split <;> simp
  | _ => simp

/-- No command reads or writes the host's later events. -/
theorem commandEffect_events (i : Instr) (s : State) : (commandEffect i s).events = s.events := by
  cases i with
  | noteOn note vel => rw [commandEffect_noteOn]; split <;> simp
  | noteOff note => rw [commandEffect_noteOff]; split <;> simp
  | _ => simp

/-! ## Steps and runs -/

/-- An event that is no NOTE_ON word. -/
def NotNoteOn (e : Event) : Prop := ∀ w note vel, e = .command w → decode w ≠ .ok (.noteOn note vel)

/-- Every step but a NOTE_ON keeps every envelope un-armed. -/
theorem NothingArmed.after_step {s t : State} {e : Event} {rest : List Event} (h : NothingArmed s) (hne : NotNoteOn e)
    (he : s.events = e :: rest) (hs : step s = .next t) : NothingArmed t := by
  rcases step_event_cases he hs with ⟨-, rfl⟩ | ⟨-, rfl⟩ | ⟨w, c, -, -, rfl⟩ | ⟨w, i, c, -, -, -, rfl⟩ |
    ⟨w, i, hw, hd, -, rfl⟩
  · exact h.of_armed fun _ _ => tick_armed
  · exact nothingArmed_hardwareReset rom _
  · exact h.of_voices rfl
  · exact h.of_voices rfl
  · have hi : ∀ note vel, i ≠ .noteOn note vel := fun note vel hi => hne w note vel hw (hd.trans (congrArg _ hi))
    exact h.of_armed fun v k hk => (commandEffect_armed hi { s with events := rest } v k).symm.trans hk

/-- With nothing armed every step gives +0.0 or keeps the output (R522). -/
theorem NothingArmed.step_out {s t : State} {e : Event} {rest : List Event} (h : NothingArmed s)
    (he : s.events = e :: rest) (hs : step s = .next t) : t.out = 0#32 ∨ e ≠ .tick ∧ t.out = s.out := by
  rcases step_event_cases he hs with ⟨-, rfl⟩ | ⟨-, rfl⟩ | ⟨w, c, rfl, -, rfl⟩ | ⟨w, i, c, rfl, -, -, rfl⟩ |
    ⟨w, i, rfl, -, -, rfl⟩
  · exact .inl (NothingArmed.tick_out (s := { s with events := rest }) h rom)
  · exact .inl rfl
  · exact .inr ⟨Event.noConfusion, rfl⟩
  · exact .inr ⟨Event.noConfusion, rfl⟩
  · exact .inr ⟨Event.noConfusion, commandEffect_out i _⟩

/-- A step takes the next event, whatever it is, and leaves the later ones pending (R6, R650). -/
theorem step_takes_event {s : State} {e : Event} {rest : List Event} (he : s.events = e :: rest) :
    ∃ t, step s = .next t ∧ t.events = rest := by
  rw [step, takeEvent_cons he]
  cases e with
  | tick => exact ⟨_, rfl, tick_events rom _⟩
  | reset => exact ⟨_, rfl, rfl⟩
  | command w =>
    cases hd : decode w with
    | error c => exact ⟨_, commandStep_of_error hd _, rfl⟩
    | ok i =>
      refine ⟨_, (commandStep_of_ok hd _).trans (exec_eq i _), ?_⟩
      rcases checkOperand_cases i { s with events := rest } (commandEffect i { s with events := rest }) with
        ⟨c, -, hc⟩ | ⟨-, hc⟩ <;> rw [hc]
      · rfl
      · exact commandEffect_events i _

/-- A run of `k + 1` steps is its first step and a run of `k` steps from there. -/
theorem run_succ_of_step {M : Host.Core} {s t : M.State} (h : M.step s = .next t) (k : Nat) :
    M.run (k + 1) s = M.run k t := by
  rw [Host.Core.run, h]

/-- What every step of an admitted event keeps, a run over admitted events keeps, and the run takes them all. -/
theorem run_induction {Q : State → Prop} {Admitted : Event → Prop}
    (hstep : ∀ {s t : State} {e : Event} {rest : List Event},
      Q s → Admitted e → s.events = e :: rest → step s = .next t → Q t)
    {evs : List Event} (hevs : ∀ e ∈ evs, Admitted e) {s : State} (hs : s.events = evs) (hQ : Q s) :
    ∃ t, Host.Core.run Sys2Proof.core evs.length s = .next t ∧ Q t ∧ t.events = [] := by
  induction evs generalizing s with
  | nil => exact ⟨s, rfl, hQ, hs⟩
  | cons e rest ih =>
    obtain ⟨he, hrest⟩ := List.forall_mem_cons.mp hevs
    obtain ⟨t, ht, hevents⟩ := step_takes_event hs
    obtain ⟨u, hrun, hu⟩ := ih hrest hevents (hstep hQ he hs ht)
    exact ⟨u, (run_succ_of_step (M := Sys2Proof.core) ht _).trans hrun, hu⟩

/-- Nothing is armed and the output is +0.0. -/
def Silent (s : State) : Prop := NothingArmed s ∧ s.out = 0#32

/-- Every step but a NOTE_ON keeps the block silent. -/
theorem Silent.after_step {s t : State} {e : Event} {rest : List Event} (h : Silent s) (hne : NotNoteOn e)
    (he : s.events = e :: rest) (hs : step s = .next t) : Silent t := by
  obtain ⟨harmed, hout⟩ := h
  refine ⟨harmed.after_step hne he hs, ?_⟩
  rcases harmed.step_out he hs with hzero | ⟨-, hkept⟩
  · exact hzero
  · exact hkept.trans hout

/-- Settles O39: the step clause by whether an event is pending, the run by induction from the silent reset state. -/
theorem silenceWithoutNoteOn : Obligations.SilenceWithoutNoteOn := by
  refine ⟨fun s t h hw hs => ?_, fun evs hevs => ?_⟩
  · cases he : s.events with
    | nil =>
      rw [step, takeEvent_nil he] at hs
      obtain rfl := Host.Outcome.next.inj hs
      refine ⟨h, ?_⟩
      rintro ⟨_, htick⟩
      cases htick
    | cons e rest =>
      have hne : NotNoteOn e := fun w note vel hcommand => hw w rest note vel (he.trans (congrArg (· :: rest) hcommand))
      refine ⟨h.after_step hne he hs, ?_⟩
      rintro ⟨_, htick⟩
      rcases h.step_out he hs with hzero | ⟨hnotTick, -⟩
      · exact hzero
      · exact absurd (List.cons.inj htick).1 hnotTick
  · have hreset : Silent { State.reset with events := evs } :=
      ⟨(nothingArmed_hardwareReset rom State.reset).of_voices rfl, rfl⟩
    obtain ⟨t, ht, ⟨-, hout⟩, hevents⟩ := run_induction Silent.after_step
      (fun e he w note vel hcommand => hevs w note vel (hcommand ▸ he)) rfl hreset
    exact ⟨t, ht, hout, hevents⟩

end Sys2Proof.Machine

/-! SUPPORT. Equation lemmas that several proofs above rewrite with. Lean derives one when it is first named, and a second proof that
names it meanwhile waits, at the cost of a thread while the `decide +kernel` tests still wait for the kernel. An `example` is elaborated
in the order of the text, ahead of those proofs, so naming the lemmas here derives each of them before two proofs ask for it. For the
same reason the proofs below state the equations they need by `rfl` or `delta`. -/

namespace Sys2Proof.Machine

example := @opTrigger.eq_1
example := @oscSetFreq.eq_1
example := @synthNoteOn.eq_1
example := @envStep.eq_1
example := @envStaticRate.eq_1
example := @oscKeySyncAt.eq_1
example := @oscKeySyncAt.eq_def

end Sys2Proof.Machine

/-! SUPPORT. The encoder against the decoder (spec/30_encoding.md section 1): an encoded command passes both of the decoder's
checks, and each field of its word is the operand that it was made from. -/

namespace Sys2Proof.Machine

/-! ## The reserved bits of an encoded command -/

/-- The fields of a format that are reserved hold every bit of its mask. -/
theorem exists_reservedField {f : Format} {k : Nat} (hk : k < 32) (h : (formatReserved f).getLsbD k = true) :
    ∃ c ∈ reservedFields f, c.1 ≤ k ∧ k < c.1 + c.2 := by
  revert k
  cases f <;> decide

/-- A word that holds 0 in every reserved field passes the reserved-bit check. -/
theorem and_formatReserved_of_zero {f : Format} {w : Word}
    (h : ∀ c ∈ reservedFields f, w.toNat / 2 ^ c.1 % 2 ^ c.2 = 0) : w &&& formatReserved f = 0 := by
  apply BitVec.eq_of_getLsbD_eq
  intro k hk
  rw [BitVec.getLsbD_and]
  cases hbit : (formatReserved f).getLsbD k with
  | false => simp
  | true =>
    obtain ⟨c, hc, hlo, hhi⟩ := exists_reservedField hk hbit
    have hfield : w.extractLsb' c.1 c.2 = 0#c.2 :=
      BitVec.eq_of_toNat_eq ((extractLsb'_toNat_div w c.1 c.2).trans ((h c hc).trans (BitVec.toNat_zero).symm))
    have hlsb := congrArg (fun x => x.getLsbD (k - c.1)) hfield
    rw [BitVec.getLsbD_extractLsb', Nat.add_sub_cancel' hlo] at hlsb
    simpa [show k - c.1 < c.2 by omega] using hlsb

/-- The format of a command's opcode (R203). -/
def commandFormat : Instr → Format
  | .nop | .configure | .statusClear | .voiceLoad => .N
  | .noteOn _ _ => .K
  | .noteOff _ => .K0
  | .setAlgorithm _ | .setFeedback _ | .regRead _ => .V
  | .setOscKeySync _ | .setMono _ => .B
  | .paramWrite _ _ | .vbufWrite _ _ => .A
  | .paramRead _ => .A0

/-- The opcode map gives every command's opcode its format (R203). -/
theorem opcodeFormat_encode (i : Instr) : opcodeFormat ((encode i).toNat / 2 ^ 24) = some (commandFormat i) := by
  rw [encode_opcode]
  cases i <;> rfl

/-- An encoded command holds 0 in every field that its format reserves (R201). -/
theorem encode_reserved (i : Instr) : encode i &&& formatReserved (commandFormat i) = 0 := by
  refine and_formatReserved_of_zero fun c hc => ?_
  rw [encode_toNat]
  revert c
  delta commandFormat reservedFields operandNumber
  cases i <;> simp only [List.forall_mem_cons, List.not_mem_nil, false_implies, implies_true, and_true] <;> omega

/-! ## The fields of an encoded command -/

theorem wordOpcode_encode (i : Instr) : wordOpcode (encode i) = Laws.opcodeByte i :=
  BitVec.eq_of_toNat_eq ((wordOpcode_toNat _).trans (encode_opcode i))

/-- The bits `[lo + len - 1 : lo]` of an encoded command, from its operand fields. -/
theorem extractLsb'_encode (i : Instr) {lo len : Nat} (h : lo + len ≤ 24) (x : BitVec len)
    (hx : operandNumber i / 2 ^ lo % 2 ^ len = x.toNat) : (encode i).extractLsb' lo len = x := by
  have hsplit : (2 : Nat) ^ 24 = 2 ^ lo * 2 ^ (24 - lo) := by rw [← Nat.pow_add, Nat.add_sub_cancel' (by omega)]
  have hlen : 2 ^ len ∣ (Laws.opcodeByte i).toNat * 2 ^ (24 - lo) :=
    Dvd.dvd.mul_left (Nat.pow_dvd_pow 2 (by omega)) _
  apply BitVec.eq_of_toNat_eq
  rw [extractLsb'_toNat_div, encode_toNat, hsplit, ← hx, Nat.mul_left_comm,
    Nat.mul_add_div (Nat.two_pow_pos lo), Nat.add_mod, Nat.mod_eq_zero_of_dvd hlen, Nat.zero_add, Nat.mod_mod]

theorem wordNote_encode_noteOn (note vel : BitVec 7) : wordNote (encode (.noteOn note vel)) = note :=
  extractLsb'_encode _ (by decide) _ (by delta operandNumber; dsimp only; omega)

theorem wordVel_encode_noteOn (note vel : BitVec 7) : wordVel (encode (.noteOn note vel)) = vel :=
  extractLsb'_encode _ (by decide) _ (by delta operandNumber; dsimp only; omega)

theorem wordNote_encode_noteOff (note : BitVec 7) : wordNote (encode (.noteOff note)) = note :=
  extractLsb'_encode _ (by decide) _ (by delta operandNumber; dsimp only; omega)

/-- The operand byte of format V is the low byte. -/
theorem wordLow_encode_formatV {i : Instr} {x : Byte} (h : operandNumber i = x.toNat) : wordLow (encode i) = x :=
  extractLsb'_encode _ (by decide) _ (by rw [h]; omega)

/-- The operand bit of format B is bit 0. -/
theorem wordBit_encode_formatB {i : Instr} {x : BitVec 1} (h : operandNumber i = x.toNat) : wordBit (encode i) = x :=
  extractLsb'_encode _ (by decide) _ (by rw [h]; omega)

/-- The two operand bytes of format A. -/
theorem wordAddr_encode {i : Instr} {addr data : Byte} (h : operandNumber i = addr.toNat * 2 ^ 8 + data.toNat) :
    wordAddr (encode i) = addr :=
  extractLsb'_encode _ (by decide) _ (by rw [h]; omega)

theorem wordLow_encode {i : Instr} {addr data : Byte} (h : operandNumber i = addr.toNat * 2 ^ 8 + data.toNat) :
    wordLow (encode i) = data :=
  extractLsb'_encode _ (by decide) _ (by rw [h]; omega)

/-! ## The round trip -/

/-- Settles O1: the opcode selects the command's own row, whose reserved bits are 0 and whose fields are the operands. -/
theorem decodeOfEncode : Obligations.DecodeOfEncode := by
  intro i
  have hreserved := encode_reserved i
  have hop := wordOpcode_encode i
  delta decode
  rw [hop]
  cases i with
  | noteOn note vel =>
    exact Iff.mpr checkReserved_eq_ok
      ⟨hreserved, congrArg₂ _ (wordNote_encode_noteOn note vel) (wordVel_encode_noteOn note vel)⟩
  | noteOff note => exact Iff.mpr checkReserved_eq_ok ⟨hreserved, congrArg _ (wordNote_encode_noteOff note)⟩
  | setAlgorithm value | setFeedback value | regRead value =>
    exact Iff.mpr checkReserved_eq_ok ⟨hreserved, congrArg _ (wordLow_encode_formatV rfl)⟩
  | setOscKeySync b | setMono b => exact Iff.mpr checkReserved_eq_ok ⟨hreserved, congrArg _ (wordBit_encode_formatB rfl)⟩
  | paramWrite addr data | vbufWrite addr data =>
    exact Iff.mpr checkReserved_eq_ok ⟨hreserved, congrArg₂ _ (wordAddr_encode rfl) (wordLow_encode rfl)⟩
  | paramRead addr =>
    exact Iff.mpr checkReserved_eq_ok ⟨hreserved, congrArg _ (wordAddr_encode (data := 0#8) (Nat.add_zero _).symm)⟩
  | nop | configure | statusClear | voiceLoad => exact Iff.mpr checkReserved_eq_ok ⟨hreserved, rfl⟩

/-- Settles O2: every bit that the decoder does not drop is an opcode or operand bit. -/
theorem encodeOfDecode : Obligations.EncodeOfDecode := fun _ _ => encode_of_decode

/-- Settles O3: each example word is the word of the command that it stands for. -/
theorem exampleWordsDecode : Obligations.ExampleWordsDecode :=
  ⟨decodeOfEncode .nop, decodeOfEncode (.noteOn 69 100), decodeOfEncode (.noteOff 69), decodeOfEncode (.setAlgorithm 31),
    decodeOfEncode (.setFeedback 7), decodeOfEncode (.setOscKeySync 1), decodeOfEncode (.setMono 1),
    decodeOfEncode .configure, decodeOfEncode .statusClear, decodeOfEncode (.paramWrite 6 99),
    decodeOfEncode (.paramRead 0xC0), decodeOfEncode (.vbufWrite 110 31), decodeOfEncode .voiceLoad,
    decodeOfEncode (.regRead 0)⟩

end Sys2Proof.Machine

/-! SUPPORT. The two address maps (spec/20_memory.md R152, 10_state.md R100) are one to one: where every field and register lies, and
which one lies at a given place. -/

namespace Sys2Proof.Machine

/-! ## PARAM -/

/-- The global fields in rising order of their addresses. -/
def globalFields : List GlobalField :=
  [.algorithm, .feedback, .transpose, .lfoWaveform, .lfoSpeed, .lfoDelay, .lfoPmd, .lfoAmd, .lfoPms, .lfoKeySync,
    .pl 0, .pl 1, .pl 2, .pl 3, .pr 0, .pr 1, .pr 2, .pr 3, .mono]

theorem mem_globalFields (g : GlobalField) : g ∈ globalFields := by
  cases g with
  | pl n | pr n => fin_cases n <;> decide
  | _ => decide

/-- Two fields of an operator's block have different offsets. -/
theorem opOffset_injective {f g : OpField} (h : opOffset f = opOffset g) : f = g := by
  have hoffsets : (slotFields.map opOffset).Nodup := by decide
  exact List.inj_on_of_nodup_map hoffsets (mem_slotFields f) (mem_slotFields g) h

/-- Two global fields have different addresses. -/
theorem globalAddr_injective {g h : GlobalField} (e : globalAddr g = globalAddr h) : g = h := by
  have haddrs : (globalFields.map globalAddr).Nodup := by decide
  exact List.inj_on_of_nodup_map haddrs (mem_globalFields g) (mem_globalFields h) e

theorem opAddr_eq (i : Fin 6) (f : OpField) : opAddr i f = 0x20 * i.val + opOffset f := rfl

/-- An operator's address names its core index and its field. -/
theorem opAddr_injective {i j : Fin 6} {f g : OpField} (h : opAddr i f = opAddr j g) : i = j ∧ f = g := by
  have hf := opOffset_lt f
  have hg := opOffset_lt g
  rw [opAddr_eq, opAddr_eq] at h
  exact ⟨Fin.ext (by omega), opOffset_injective (by omega)⟩

/-- The six blocks lie below the global fields. -/
theorem opAddr_lt (i : Fin 6) (f : OpField) : opAddr i f < 0xC0 := by
  have hf := opOffset_lt f
  rw [opAddr_eq]
  omega

theorem globalAddr_range (g : GlobalField) : 0xC0 ≤ globalAddr g ∧ globalAddr g ≤ 0xF0 := by
  have hall : ∀ g ∈ globalFields, 0xC0 ≤ globalAddr g ∧ globalAddr g ≤ 0xF0 := by decide
  exact hall g (mem_globalFields g)

/-- Below 0xC0 the mapped addresses are those of the operator fields. -/
theorem paramMapped_iff_opAddr {a : Nat} (h : a < 0xC0) : paramMapped a = true ↔ ∃ i f, a = opAddr i f := by
  delta paramMapped
  rw [if_pos h, decide_eq_true_iff]
  constructor
  · intro hoffset
    have hall : ∀ k < 0x18, ∃ f ∈ slotFields, opOffset f = k := by decide
    obtain ⟨f, -, hf⟩ := hall _ hoffset
    exact ⟨⟨a / 0x20, by omega⟩, f, by rw [opAddr_eq, hf, Nat.div_add_mod]⟩
  · rintro ⟨i, f, rfl⟩
    have hf := opOffset_lt f
    rw [opAddr_eq]
    omega

/-- From 0xC0 on the mapped addresses are those of the global fields. -/
theorem paramMapped_iff_globalAddr {a : Nat} (h : 0xC0 ≤ a) : paramMapped a = true ↔ ∃ g, a = globalAddr g := by
  constructor
  · intro ha
    have hle : a ≤ 0xF0 := by
      revert ha
      delta paramMapped
      simp only [if_neg (Nat.not_lt.mpr h), Bool.or_eq_true, Bool.and_eq_true, decide_eq_true_iff]
      omega
    obtain ⟨k, rfl⟩ := Nat.exists_eq_add_of_le h
    have hall : ∀ k < 0x31, paramMapped (0xC0 + k) = true → ∃ g ∈ globalFields, 0xC0 + k = globalAddr g := by decide
    obtain ⟨g, -, hg⟩ := hall k (by omega) ha
    exact ⟨g, hg⟩
  · rintro ⟨g, rfl⟩
    have hall : ∀ g ∈ globalFields, paramMapped (globalAddr g) = true := by decide
    exact hall g (mem_globalFields g)

/-- Every mapped address is that of an operator field or of a global field. -/
theorem paramMapped_iff (a : Nat) : paramMapped a = true ↔ (∃ i f, a = opAddr i f) ∨ ∃ g, a = globalAddr g := by
  rcases Nat.lt_or_ge a 0xC0 with h | h
  · rw [paramMapped_iff_opAddr h]
    refine ⟨.inl, fun hor => hor.resolve_right ?_⟩
    rintro ⟨g, rfl⟩
    have hg := globalAddr_range g
    omega
  · rw [paramMapped_iff_globalAddr h]
    refine ⟨.inr, fun hor => hor.resolve_left ?_⟩
    rintro ⟨i, f, rfl⟩
    have hf := opAddr_lt i f
    omega

theorem paramMapped_opAddr (i : Fin 6) (f : OpField) : paramMapped (opAddr i f) = true :=
  Iff.mpr (paramMapped_iff _) (.inl ⟨i, f, rfl⟩)

theorem paramMapped_globalAddr (g : GlobalField) : paramMapped (globalAddr g) = true :=
  Iff.mpr (paramMapped_iff _) (.inr ⟨g, rfl⟩)

/-- The mapped addresses of a range, counted in two parts. -/
theorem length_filter_range' (p : Nat → Bool) (a m n : Nat) :
    ((List.range' a (m + n)).filter p).length =
      ((List.range' a m).filter p).length + ((List.range' (a + m) n).filter p).length := by
  rw [← List.range'_append_1, List.filter_append, List.length_append]

/-- 163 addresses are mapped: 24 in each of the six blocks, and 19 above them. -/
theorem length_paramMapped : ((List.range 256).filter paramMapped).length = 163 := by
  have h0 : ((List.range' 0 64).filter paramMapped).length = 48 := by decide
  have h1 : ((List.range' 64 64).filter paramMapped).length = 48 := by decide
  have h2 : ((List.range' 128 64).filter paramMapped).length = 48 := by decide
  have h3 : ((List.range' 192 64).filter paramMapped).length = 19 := by decide
  rw [List.range_eq_range', length_filter_range' paramMapped 0 64 192, length_filter_range' paramMapped 64 64 128,
    length_filter_range' paramMapped 128 64 64, h0, h1, h2, h3]

/-- Settles O6: the blocks are disjoint, and in a block and among the global fields no two offsets are the same. -/
theorem paramMapOneToOne : Obligations.ParamMapOneToOne := by
  refine ⟨length_paramMapped, paramMapped_iff, fun i f => ⟨rfl, opOffset_lt f⟩, fun _ _ _ _ => opAddr_injective,
    fun _ _ => globalAddr_injective, fun i f g h => ?_⟩
  have hf := opAddr_lt i f
  have hg := globalAddr_range g
  omega

/-! ## REG -/

theorem regNumber_lt (r : Reg) : regNumber r < 256 := by
  delta regNumber
  cases r <;> dsimp only <;> omega

/-- The number of a register is mapped to that register. -/
theorem regOf_regNumber_nat (r : Reg) : regOf (regNumber r) = some r := by
  have h := regOf_regNumber r
  rwa [BitVec.toNat_ofNat, Nat.mod_eq_of_lt (regNumber_lt r)] at h

/-- The registers below 0x40 (R100): the number is that of the register, or lies in a gap. -/
theorem regOf_low {n : Nat} (h : n < 0x40) :
    (∃ r, regOf n = some r ∧ n = regNumber r) ∨ regOf n = none ∧ (n = 0x06 ∨ n = 0x07 ∨ (0x26 ≤ n ∧ n ≤ 0x3F)) := by
  have hall : ∀ n < 0x40, (regOf n).all (fun r => n == regNumber r) = true ∧
      (regOf n = none → n = 0x06 ∨ n = 0x07 ∨ (0x26 ≤ n ∧ n ≤ 0x3F)) := by decide
  obtain ⟨hsome, hnone⟩ := hall n h
  cases hr : regOf n with
  | none => exact .inr ⟨rfl, hnone hr⟩
  | some r =>
    rw [hr] at hsome
    exact .inl ⟨r, rfl, beq_iff_eq.mp hsome⟩

/-- The three banks from 0x40 on (R100): bank, voice and slot of the number are those of its register, or the slot is a gap. -/
theorem regOf_bank {n : Nat} (h : 0x40 ≤ n) (hn : n < 0x100) :
    (∃ r, regOf n = some r ∧ n = regNumber r) ∨
      regOf n = none ∧ ((0x40 ≤ n ∧ n % 8 = 7) ∨ (0xC0 ≤ n ∧ n % 8 = 6)) := by
  delta regOf
  rw [if_neg (by omega), if_neg (by omega), if_neg (by omega), if_neg (by omega), if_neg (by omega)]
  split_ifs
  case pos | pos | pos | pos | pos =>
    refine .inl ⟨_, rfl, ?_⟩
    delta regNumber regBankVoice
    simp only [Fin.val_ofNat]
    omega
  all_goals exact .inr ⟨rfl, by omega⟩

theorem regOf_of_ge {n : Nat} (h : 0x100 ≤ n) : regOf n = none := by
  delta regOf
  repeat rw [if_neg (by omega)]

/-- A mapped number is the number of its register. -/
theorem eq_regNumber_of_regOf {n : Nat} {r : Reg} (h : regOf n = some r) : n = regNumber r := by
  have hcases : (∃ r, regOf n = some r ∧ n = regNumber r) ∨ regOf n = none := by
    rcases Nat.lt_or_ge n 0x40 with hlow | hlow
    · exact (regOf_low hlow).imp_right And.left
    · rcases Nat.lt_or_ge n 0x100 with hn | hn
      · exact (regOf_bank hlow hn).imp_right And.left
      · exact .inr (regOf_of_ge hn)
  rcases hcases with ⟨r', hr', hnum⟩ | hnone
  · rwa [Option.some.inj (h.symm.trans hr')]
  · cases h.symm.trans hnone

/-- The numbers without a register are the gaps of the map. -/
theorem regOf_eq_none_iff {n : Nat} (hn : n < 256) :
    regOf n = none ↔ n = 0x06 ∨ n = 0x07 ∨ (0x26 ≤ n ∧ n ≤ 0x3F) ∨ (0x40 ≤ n ∧ n % 8 = 7) ∨ (0xC0 ≤ n ∧ n % 8 = 6) := by
  refine ⟨fun h => ?_, regOf_of_gap⟩
  rcases Nat.lt_or_ge n 0x40 with hlow | hlow
  · rcases regOf_low hlow with ⟨r, hr, -⟩ | ⟨-, hgap⟩
    · cases h.symm.trans hr
    · omega
  · rcases regOf_bank hlow hn with ⟨r, hr, -⟩ | ⟨-, hgap⟩
    · cases h.symm.trans hr
    · exact .inr (.inr (.inr hgap))

/-- Settles O7: the two directions of the map, and its gaps. -/
theorem registerMapOneToOne : Obligations.RegisterMapOneToOne :=
  ⟨fun _ r => ⟨eq_regNumber_of_regOf, fun h => h ▸ regOf_regNumber_nat r⟩, fun _ => regOf_eq_none_iff⟩

end Sys2Proof.Machine

/-! SUPPORT. What the commands store (spec/49_commands_config.md): the canonical form of PARAM and VBUF kept by every step, the byte
at every address after each store, and R605's table of what each command writes. -/

namespace Sys2Proof.Machine

/-! ## The stores of the commands -/

theorem paramMapped_of_paramWrite {addr data : Byte} (h : WellFormed (.paramWrite addr data)) :
    paramMapped addr.toNat = true := Iff.mp operandCheck_eq_none h

/-- The state element `params` after a command: a list of writes to mapped addresses. -/
theorem commandEffect_params {i : Instr} (h : WellFormed i) (s : State) :
    ∃ ws : List (Nat × Byte), (commandEffect i s).params = Memory.writeAll s.params ws ∧
      ∀ c ∈ ws, paramMapped c.1 = true := by
  cases i with
  | setAlgorithm value =>
    exact ⟨[(globalAddr .algorithm, value)], rfl, List.forall_mem_singleton.mpr (paramMapped_globalAddr .algorithm)⟩
  | setFeedback value =>
    exact ⟨[(globalAddr .feedback, value)], rfl, List.forall_mem_singleton.mpr (paramMapped_globalAddr .feedback)⟩
  | setMono b =>
    exact ⟨[(globalAddr .mono, b.setWidth 8)], rfl, List.forall_mem_singleton.mpr (paramMapped_globalAddr .mono)⟩
  | setOscKeySync b =>
    refine ⟨oscKeySyncWrites (b.setWidth 8), rfl, fun c hc => ?_⟩
    obtain ⟨i, -, rfl⟩ := List.mem_map.mp hc
    exact paramMapped_opAddr i .oscKeySync
  | paramWrite addr data =>
    exact ⟨[(addr.toNat, data)], rfl, List.forall_mem_singleton.mpr (paramMapped_of_paramWrite h)⟩
  | voiceLoad =>
    exact ⟨voiceLoadWrites s.vbuf, by rw [commandEffect_voiceLoad], fun c hc => (voiceLoadWrites_mapped hc).1⟩
  | noteOn note vel =>
    refine ⟨[], ?_, List.forall_mem_nil _⟩
    rw [commandEffect_noteOn]
    split <;> simp
  | noteOff note =>
    refine ⟨[], ?_, List.forall_mem_nil _⟩
    rw [commandEffect_noteOff]
    split <;> simp
  | _ => exact ⟨[], by simp, List.forall_mem_nil _⟩

/-- The canonical form is about PARAM and VBUF alone. -/
theorem MemoryCanonical.of_same {s t : State} (h : MemoryCanonical s) (hp : t.params = s.params) (hv : t.vbuf = s.vbuf) :
    MemoryCanonical t where
  params_wf := by rw [hp]; exact h.params_wf
  params_mapped := by rw [hp]; exact h.params_mapped
  vbuf_wf := by rw [hv]; exact h.vbuf_wf
  vbuf_mapped := by rw [hv]; exact h.vbuf_mapped

/-- VBUF after a command: as it was, or with one byte written at an offset below 128. -/
theorem commandEffect_vbuf_cases {i : Instr} (h : WellFormed i) (s : State) :
    (commandEffect i s).vbuf = s.vbuf ∨
      ∃ o b, vbufMapped o = true ∧ (commandEffect i s).vbuf = Memory.write s.vbuf o b := by
  by_cases hi : ∃ offset data, i = .vbufWrite offset data
  · obtain ⟨offset, data, rfl⟩ := hi
    exact .inr ⟨offset.toNat, data, Iff.mp operandCheck_eq_none h, rfl⟩
  · exact .inl (commandEffect_vbuf (fun offset data e => hi ⟨offset, data, e⟩) s)

/-- An accepted command keeps both stores canonical: it writes mapped addresses only. -/
theorem MemoryCanonical.after_commandEffect {s : State} (h : MemoryCanonical s) {i : Instr} (hi : WellFormed i) :
    MemoryCanonical (commandEffect i s) := by
  obtain ⟨ws, hparams, hmapped⟩ := commandEffect_params hi s
  have hvbuf : Memory.wf (commandEffect i s).vbuf = true ∧ Memory.within vbufMapped (commandEffect i s).vbuf = true := by
    rcases commandEffect_vbuf_cases hi s with hkept | ⟨o, b, ho, hwrite⟩
    · rw [hkept]
      exact ⟨h.vbuf_wf, h.vbuf_mapped⟩
    · rw [hwrite]
      exact ⟨Memory.wf_write h.vbuf_wf o b, Memory.within_write h.vbuf_mapped ho b⟩
  exact {
    params_wf := by rw [hparams]; exact Memory.wf_writeAll h.params_wf ws
    params_mapped := by rw [hparams]; exact Memory.within_writeAll h.params_mapped hmapped
    vbuf_wf := hvbuf.1
    vbuf_mapped := hvbuf.2 }

/-- After a reset both stores are empty. -/
theorem memoryCanonical_hardwareReset (T : Rom) (s : State) : MemoryCanonical (hardwareReset T s) := ⟨rfl, rfl, rfl, rfl⟩

/-! ## One induction over the kinds of step -/

/-- A property of states that does not read the pending events is kept by every step, if a tick, a rejection and every accepted
command keep it and a reset gives it. -/
theorem step_induction {Q : State → Prop} (hevents : ∀ s rest, Q s → Q { s with events := rest })
    (htick : ∀ s, Q s → Q (tick rom s)) (hreset : ∀ s, Q (hardwareReset rom s))
    (hreject : ∀ c s, Q s → Q (rejectCommand c s))
    (hcommand : ∀ i s, WellFormed i → Q s → Q (commandEffect i s)) {s t : State} (h : Q s) (hs : step s = .next t) : Q t := by
  rcases step_cases hs with ⟨-, rfl⟩ | ⟨rest, -, rfl⟩ | ⟨rest, -, rfl⟩ | ⟨w, rest, c, -, -, rfl⟩ | ⟨w, rest, i, -, -, hx⟩
  · exact h
  · exact htick _ (hevents s rest h)
  · exact hreset _
  · exact hreject c _ (hevents s rest h)
  · rcases exec_cases hx with ⟨c, -, rfl⟩ | ⟨hwf, rfl⟩
    · exact hreject c _ (hevents s rest h)
    · exact hcommand i _ hwf (hevents s rest h)

/-- Settles O40, by the kind of step: only accepted commands write the stores, and only at mapped addresses. -/
theorem stepKeepsMemoryCanonical : Obligations.StepKeepsMemoryCanonical := fun _ _ =>
  step_induction (Q := MemoryCanonical) (fun _ _ h => h.of_same rfl rfl)
    (fun s h => h.of_same (tick_params rom s) (tick_vbuf rom s)) (memoryCanonical_hardwareReset rom)
    (fun _ _ h => h.of_same rfl rfl) (fun _ _ hi h => h.after_commandEffect hi)

/-! ## STATUS -/

/-- Consistency of STATUS is about CMD_ERR and ERR_CODE alone. -/
theorem StatusConsistent.of_same {s t : State} (h : StatusConsistent s) (hc : t.cmdErr = s.cmdErr)
    (he : t.errCode = s.errCode) : StatusConsistent t where
  code_le := by rw [he]; exact h.code_le
  clear_iff := by rw [hc, he]; exact h.clear_iff

/-- With both fields clear STATUS is consistent. -/
theorem statusConsistent_of_clear {s : State} (hc : s.cmdErr = false) (he : s.errCode = 0#4) : StatusConsistent s where
  code_le := by rw [he]; decide
  clear_iff := by rw [hc, he]; simp

/-- The code of a rejection is one of 1 to 5 (R631). -/
theorem rejectNumber_range (c : RejectCode) : (rejectNumber c).toNat ≤ 5 ∧ rejectNumber c ≠ 0#4 := by
  cases c <;> decide

theorem statusConsistent_rejectCommand (c : RejectCode) (s : State) : StatusConsistent (rejectCommand c s) where
  code_le := (rejectNumber_range c).1
  clear_iff := iff_of_false Bool.true_eq_false.mp (rejectNumber_range c).2

/-- Settles O41: a rejection sets both fields, STATUS_CLEAR and reset clear both, and nothing else writes them. -/
theorem stepKeepsStatusConsistent : Obligations.StepKeepsStatusConsistent := fun _ _ =>
  step_induction (Q := StatusConsistent) (fun _ _ h => h.of_same rfl rfl)
    (fun s h => h.of_same (tick_cmdErr rom s) (tick_errCode rom s)) (fun _ => statusConsistent_of_clear rfl rfl)
    (fun c s _ => statusConsistent_rejectCommand c s) fun i s _ h => by
      by_cases hi : i = .statusClear
      · subst hi
        exact statusConsistent_of_clear rfl rfl
      · obtain ⟨hc, he⟩ := commandEffect_status hi s
        exact h.of_same hc he

/-! ## Reads after the stores -/

/-- Settles O18: one write for each of three setters, and for OSC_KEY_SYNC six writes of one byte. -/
theorem settersStoreRawOperand : Obligations.SettersStoreRawOperand := by
  intro s h
  refine ⟨fun value => ⟨_, rfl, Memory.read_write h.params_wf _ value⟩,
    fun value => ⟨_, rfl, Memory.read_write h.params_wf _ value⟩,
    fun b => ⟨_, rfl, Memory.read_write h.params_wf _ (b.setWidth 8)⟩, fun b => ⟨_, rfl, fun a => ?_⟩⟩
  split
  · rename_i ha
    have hmem : (a, b.setWidth 8) ∈ oscKeySyncWrites (b.setWidth 8) := by
      refine List.mem_map.mpr ⟨⟨a / 0x20, by omega⟩, mem_coreIndices _, Prod.ext ?_ rfl⟩
      have haddr : opAddr ⟨a / 0x20, by omega⟩ .oscKeySync = 0x20 * (a / 0x20) + 0x16 := rfl
      rw [haddr]
      omega
    have hnodup : ((oscKeySyncWrites (b.setWidth 8)).map Prod.fst).Nodup := by
      have haddrs : (oscKeySyncWrites (b.setWidth 8)).map Prod.fst = coreIndices.map (opAddr · .oscKeySync) := rfl
      rw [haddrs]
      decide
    exact Memory.read_writeAll_mem h.params_wf hnodup hmem
  · rename_i ha
    refine Memory.read_writeAll_other s.params fun c hc hca => ha ?_
    obtain ⟨i, -, rfl⟩ := List.mem_map.mp hc
    have haddr : opAddr i .oscKeySync = 0x20 * i.val + 0x16 := rfl
    rw [← hca, haddr]
    omega

theorem exec_paramRead_of_mapped {addr : Byte} (h : paramMapped addr.toNat = true) (s : State) :
    exec (.paramRead addr) s = .next { s with rdata := (Memory.read s.params addr.toNat).setWidth 32 } :=
  exec_of_wellFormed (Iff.mpr wellFormed_paramRead h) s

theorem exec_paramWrite_of_mapped {addr : Byte} (h : paramMapped addr.toNat = true) (data : Byte) (s : State) :
    exec (.paramWrite addr data) s = .next { s with params := Memory.write s.params addr.toNat data } :=
  exec_of_wellFormed (i := .paramWrite addr data) (Iff.mpr operandCheck_eq_none h) s

theorem exec_vbufWrite_of_lt {offset : Byte} (h : offset.toNat < 128) (data : Byte) (s : State) :
    exec (.vbufWrite offset data) s = .next { s with vbuf := Memory.write s.vbuf offset.toNat data } :=
  exec_of_wellFormed (Iff.mpr wellFormed_vbufWrite h) s

/-- Settles O19: the read after the write is the read of the written store. -/
theorem paramWriteThenReadReturnsByte : Obligations.ParamWriteThenReadReturnsByte := by
  intro s addr data h haddr
  have hread := Memory.read_write h.params_wf addr.toNat data
  refine ⟨exec_paramRead_of_mapped haddr s, _, exec_paramWrite_of_mapped haddr data s, hread, ?_⟩
  rw [exec_paramRead_of_mapped haddr, hread, if_pos rfl]

/-- Settles O20. -/
theorem vbufWriteStoresByte : Obligations.VbufWriteStoresByte := fun s _ data h hoffset =>
  ⟨_, exec_vbufWrite_of_lt hoffset data s, Memory.read_write h.vbuf_wf _ data⟩

/-! ## R605: what each command writes -/

/-- A list of writes stores its bytes and leaves every other address. -/
theorem storesOnly_writeAll (ws : List (Nat × Byte)) (m : Memory) : StoresOnly ws m (Memory.writeAll m ws) :=
  ⟨rfl, fun _ ha => Memory.read_writeAll_other m ha⟩

/-- NOTE_ON changes the voices, the LFO and the counter only. -/
theorem synthNoteOn_frame (T : Rom) (note vel : BitVec 7) (s : State) :
    synthNoteOn T note vel s =
      { s with
        voices := (synthNoteOn T note vel s).voices, lfo := (synthNoteOn T note vel s).lfo
        counter := nextCounter s.counter } := by
  rcases synthNoteOn_cases T note vel s with ⟨-, e⟩ | ⟨-, f, -, ⟨-, e⟩ | ⟨-, e⟩⟩ | ⟨-, -, e⟩ <;> rw [e] <;> rfl

/-- NOTE_OFF changes the voices only. -/
theorem synthNoteOff_frame (T : Rom) (note : BitVec 7) (s : State) :
    synthNoteOff T note s = { s with voices := (synthNoteOff T note s).voices } := by
  rcases synthNoteOff_cases T note s with ⟨v, -, e⟩ | ⟨-, e⟩ <;> rw [e]
  rfl

/-- While S.configured is 0 the note commands have no effect (R550, R555). -/
theorem exec_note_of_unconfigured {s : State} (h : s.configured = false) (note vel : BitVec 7) :
    exec (.noteOn note vel) s = .next s ∧ exec (.noteOff note) s = .next s := by
  obtain ⟨-, -, hgate⟩ := configuredBitGatesBlock
  obtain ⟨-, hon, hoff⟩ := hgate s h
  exact ⟨hon note vel, hoff note⟩

/-- NOTE_OFF of a configured block is synth_note_off (R555). -/
theorem exec_noteOff_of_configured {s : State} (h : s.configured = true) (note : BitVec 7) :
    exec (.noteOff note) s = .next (synthNoteOff rom note s) := by
  rw [exec_of_wellFormed rfl, commandEffect_noteOff, if_pos h]

/-- NOTE_OFF changes the voices only, whatever S.configured is. -/
theorem exec_noteOff_frame (note : BitVec 7) (s : State) : ∃ V, exec (.noteOff note) s = .next { s with voices := V } := by
  by_cases hc : s.configured = true
  · exact ⟨_, (exec_noteOff_of_configured hc note).trans (congrArg _ (synthNoteOff_frame rom note s))⟩
  · exact ⟨s.voices, (exec_note_of_unconfigured (Bool.eq_false_of_not_eq_true hc) note 0).2⟩

/-- Bit 23 is reserved in every format (R201). -/
theorem formatReserved_bit_23 (f : Format) : (formatReserved f).getLsbD 23 = true := by cases f <;> rfl

/-- The word of a command with bit 23 set keeps the command's opcode. -/
theorem encode_or_bit_23_opcode (i : Instr) : (encode i ||| 0x00800000#32).toNat / 2 ^ 24 = (encode i).toNat / 2 ^ 24 := by
  rw [← wordOpcode_toNat, ← wordOpcode_toNat]
  delta wordOpcode
  rw [BitVec.extractLsb'_or]
  have hbit : (0x00800000#32).extractLsb' 24 8 = 0#8 := by decide
  rw [hbit, BitVec.or_zero]

/-- With bit 23 set the word of a command is rejected for a reserved bit, code 2. -/
theorem commandStep_encode_or_bit_23 (i : Instr) (s : State) :
    commandStep (encode i ||| 0x00800000#32) s = .next { s with cmdErr := true, errCode := 2#4 } := by
  refine commandStep_of_error (decode_of_reservedBits (f := commandFormat i) ?_ fun h => ?_) s
  · rw [encode_or_bit_23_opcode]
    exact opcodeFormat_encode i
  · have hbit := congrArg (fun w : Word => w.getLsbD 23) h
    rw [BitVec.getLsbD_and, BitVec.getLsbD_or, formatReserved_bit_23] at hbit
    simp at hbit

/-- Settles O17, a line for each row of R605's table: the stores by their writes, the rejections by the checks of R205. -/
theorem commandsWriteOnlyTheirState : Obligations.CommandsWriteOnlyTheirState := by
  intro s
  refine ⟨rfl, exec_note_of_unconfigured,
    fun hc note vel => ⟨(synthNoteOn rom note vel s).voices, (synthNoteOn rom note vel s).lfo, ?_⟩,
    fun note => exec_noteOff_frame note s,
    fun value => ⟨_, rfl, storesOnly_writeAll [(_, value)] _⟩, fun value => ⟨_, rfl, storesOnly_writeAll [(_, value)] _⟩,
    fun b => ⟨_, rfl, storesOnly_writeAll _ _⟩,
    fun b => ⟨_, rfl, storesOnly_writeAll [(_, b.setWidth 8)] _⟩,
    fun addr data haddr => ⟨_, exec_paramWrite_of_mapped haddr data s, storesOnly_writeAll [(_, data)] _⟩,
    ⟨_, exec_voiceLoad s, storesOnly_writeAll _ _⟩,
    fun offset data ho => ⟨_, exec_vbufWrite_of_lt ho data s, storesOnly_writeAll [(_, data)] _⟩, rfl, rfl,
    fun addr haddr => exec_paramRead_of_mapped haddr s, fun reg r hr => exec_regRead_of_mapped hr s,
    fun w f hf hr => commandStep_of_error (decode_of_reservedBits hf hr) s,
    fun i => commandStep_encode_or_bit_23 i s, fun i c hc => ⟨exec_of_reject hc s, ?_⟩⟩
  · exact (exec_noteOn_of_configured hc note vel).trans (congrArg _ (synthNoteOn_frame rom note vel s))
  · exact (commandStep_of_ok (decodeOfEncode i) s).trans (exec_of_reject hc s)

/-! ## Steps (00_scope.md section 3) -/

theorem step_of_no_event {s : State} (he : s.events = []) : step s = .next s := by
  delta step
  rw [takeEvent_nil he]

/-- Settles O10: a pending event is taken, and without one the state stays. -/
theorem everyEventCompletes : Obligations.EveryEventCompletes := by
  refine ⟨fun s => ?_, fun s => ⟨rfl, rfl, rfl⟩⟩
  cases he : s.events with
  | nil => exact ⟨s, step_of_no_event he, he⟩
  | cons e rest => exact step_takes_event he

/-- The step of a command word is the command's step on the state without that event. -/
theorem step_of_command {s : State} {w : Word} {rest : List Event} (he : s.events = .command w :: rest) :
    step s = commandStep w { s with events := rest } := by
  delta step
  rw [takeEvent_cons he]

/-- Settles O8. -/
theorem stepRunsDecodedCommand : Obligations.StepRunsDecodedCommand := fun _ _ _ _ he hd _ =>
  (step_of_command he).trans (commandStep_of_ok hd _)

/-- A word that any check of R205 rejects leaves the state, but for CMD_ERR and ERR_CODE (R632). -/
theorem commandStep_of_commandReject {w : Word} {c : RejectCode} (h : commandReject w = some c) (s : State) :
    commandStep w s = .next (rejectCommand c s) := by
  cases hd : decode w with
  | error d =>
    rw [commandReject_of_error hd] at h
    rw [commandStep_of_error hd, Option.some.inj h]
  | ok i =>
    rw [commandReject_of_ok hd] at h
    rw [commandStep_of_ok hd, exec_of_reject h]

/-- Settles O9, by the event. -/
theorem stepOfOtherEvents : Obligations.StepOfOtherEvents :=
  ⟨fun _ _ _ _ he hr => (step_of_command he).trans (commandStep_of_commandReject hr _),
    fun _ _ he => by delta step; rw [takeEvent_cons he], fun _ _ he => by delta step; rw [takeEvent_cons he]; rfl,
    fun _ he => step_of_no_event he⟩

end Sys2Proof.Machine

/-! SUPPORT. The hardware's own tables (spec/20_memory.md section 3, 45_algorithm.md section 1): every fixed entry is the spec's, and
every free entry lies in the limits that its type carries. -/

namespace Sys2Proof.Machine

/-- A free entry given by its bit pattern is that pattern. -/
theorem ofNat_fin_toNat {m : Nat} (hm : m ≤ 2 ^ 32) (k : Fin m) : (BitVec.ofNat 32 k.val).toNat = k.val := by
  have hk := k.isLt
  rw [BitVec.toNat_ofNat, Nat.mod_eq_of_lt (by omega)]

/-! ## The tables with free entries -/

theorem rom_detune_lt (k : Nat) : (rom.detune k).toNat < 0x447A0000 := by
  delta rom
  dsimp only
  split
  · decide
  · rw [ofNat_fin_toNat (by decide)]
    exact (Config.detuneOpen k).isLt

theorem rom_lfoSpeed_positive (k : Nat) : 0 < (rom.lfoSpeed k).toNat ∧ (rom.lfoSpeed k).toNat < 0x7F800000 := by
  have hopen := (Config.lfoSpeedOpen k).isLt
  delta rom
  dsimp only
  split_ifs
  · decide
  · decide
  · rw [BitVec.toNat_ofNat]
    omega

theorem rom_lfoDelay_lt (k : Nat) : (rom.lfoDelay k).toNat < 0x47BD7400 := by
  delta rom
  dsimp only
  split_ifs
  · decide
  · decide
  · rw [ofNat_fin_toNat (by decide)]
    exact (Config.lfoDelayOpen k).isLt

theorem rom_lfoPms_le (k : Nat) : (rom.lfoPms k).toNat ≤ 0x3F800000 := by
  delta rom
  dsimp only
  split_ifs
  · decide
  · decide
  · rw [ofNat_fin_toNat (by decide)]
    exact Nat.le_of_lt_succ (Config.lfoPmsOpen k).isLt

theorem rom_pitchenvTab_range (k : Nat) : -128 ≤ rom.pitchenvTab k ∧ rom.pitchenvTab k ≤ 127 := by
  have hge := BitVec.le_toInt (x := Config.pitchenvTabOpen k)
  have hlt := BitVec.toInt_lt (x := Config.pitchenvTabOpen k)
  delta rom
  dsimp only
  split_ifs <;> omega

/-! ## The routing catalogue -/

/-- A check of R432 that runs on a routing record. -/
def routingCheck (A : Algorithm) : Bool :=
  coreIndices.all (fun i => (algMods A i).all (fun j => decide (i < j)) && decide ((algMods A i).Pairwise (· < ·))) &&
    decide (algMods A A.fbOp = []) && coreIndices.any (algCarrier A)

theorem routingOk_of_check {A : Algorithm} (h : routingCheck A = true) : RoutingOk A := by
  revert h
  delta routingCheck
  simp only [Bool.and_eq_true, List.all_eq_true, List.any_eq_true, decide_eq_true_iff]
  intro h
  obtain ⟨⟨hmods, hfb⟩, i, -, hi⟩ := h
  exact ⟨fun i => (hmods i (mem_coreIndices i)).1, fun i => (hmods i (mem_coreIndices i)).2, hfb, i, hi⟩

/-- Every record of the default catalogue passes the check, and so does the all-carrier record beyond it. -/
theorem rom_routingOk (a : Nat) : RoutingOk (rom.algorithms a) := by
  have hall : ∀ A ∈ catalogueDefault, routingCheck A = true := by decide
  delta rom
  dsimp only
  rcases Nat.lt_or_ge a catalogueDefault.length with h | h
  · rw [List.getD_eq_getElem _ _ h]
    exact routingOk_of_check (hall _ (List.getElem_mem h))
  · rw [List.getD_eq_default _ _ h]
    exact routingOk_of_check (by decide)

/-! ## All constraints -/

/-- The model's tables meet every constraint on the OPEN tables. -/
theorem rom_admissible : RomAdmissible rom where
  levelLut_fixed := by decide
  levelLut_le k _ := (rom_levelLut_le k).trans (by decide)
  statics_lt k _ := (Config.staticsOpen k).isLt
  detune_fixed := rfl
  detune_range k _ _ := rom_detune_lt k
  velTable_finite s k hs hk := f32Finite_of_le (rom_velTableBounded s k hs hk) (by decide)
  lfoSpeed_fixed := by decide
  lfoSpeed_positive k _ := rom_lfoSpeed_positive k
  lfoDelay_fixed := ⟨rfl, rfl⟩
  lfoDelay_range k _ := rom_lfoDelay_lt k
  lfoPms_fixed := ⟨rfl, rfl⟩
  lfoPms_range k _ := rom_lfoPms_le k
  pitchenvTab_fixed := ⟨rfl, rfl, rfl⟩
  pitchenvTab_range k _ := rom_pitchenvTab_range k
  pitchenvRate_le k _ := (Config.pitchenvRateOpen k).isLt
  routing a _ := rom_routingOk a
  allCarriers_fixed := rfl
  lfoSeed_ne_zero := by decide

/-- Settles O56: the constraints by table, and the two premises from the types of the free entries. -/
theorem romMeetsTableConstraints : Obligations.RomMeetsTableConstraints where
  admissible := rom_admissible
  stages_end _ _ := Nat.le_add_left _ _
  vel_bounded := rom_velTableBounded

end Sys2Proof.Machine

/-! SUPPORT. Rounding (spec/00_scope.md section 5): the value that the rounded bits stand for is a multiple of the last place, nearest
to the quotient among these, and every binary32 that is no multiple of it lies below the quotient's binade. Then frac, which is
exact where its value is a binary32. -/

namespace Sys2Proof.Machine

/-! ## The nearest integer -/

/-- No integer is closer to the quotient than the rounded one, and one as close is given up for an even one. -/
theorem divNearestEven_nearest (num : Nat) {den m : Nat} (hd : 0 < den) (hm : m ≠ divNearestEven num den) :
    |(divNearestEven num den * den : Int) - num| < |(m * den : Int) - num| ∨
      |(divNearestEven num den * den : Int) - num| = |(m * den : Int) - num| ∧ divNearestEven num den % 2 = 0 := by
  have hdiv := Nat.div_add_mod num den
  have hmod := Nat.mod_lt num hd
  revert hm
  delta divNearestEven
  intro hm
  generalize num / den = q at *
  generalize num % den = r at *
  have hnum : (num : Int) = q * den + r := by rw [← hdiv]; push_cast; ring
  have hsucc : ((q + 1 : Nat) : Int) * den = q * den + den := by push_cast; ring
  have hbelow : m + 1 ≤ q → (m : Int) * den + den ≤ q * den := fun h => by
    have hle := Nat.mul_le_mul_right den h
    rw [Nat.succ_mul] at hle
    exact_mod_cast hle
  have habove : q + 2 ≤ m → (q : Int) * den + 2 * den ≤ m * den := fun h => by
    have hle := Nat.mul_le_mul_right den h
    rw [Nat.add_mul] at hle
    exact_mod_cast hle
  have hnear : m = q ∨ m = q + 1 ∨ m + 1 ≤ q ∨ q + 2 ≤ m := by omega
  simp only [Bool.or_eq_true, Bool.and_eq_true, decide_eq_true_iff, beq_iff_eq, Int.abs_eq_natAbs] at hm ⊢
  split at hm <;> rename_i hup
  · rw [if_pos hup, hnum, hsucc]
    rcases hnear with rfl | rfl | h | h
    · omega
    · exact absurd rfl hm
    · have := hbelow h
      omega
    · have := habove h
      omega
  · rw [if_neg hup, hnum]
    rcases hnear with rfl | rfl | h | h
    · exact absurd rfl hm
    · rw [hsucc]
      omega
    · have := hbelow h
      omega
    · have := habove h
      omega

/-! ## Magnitudes by their last place -/

/-- Bits written as a place `e` and a significand `s`, normalised but at the lowest place, stand for `s * 2^e`; a significand of 2^24
carries into the place. -/
theorem magOfBits_place {e s : Nat} (h : e = 0 ∨ 2 ^ 23 ≤ s) (hs : s ≤ 2 ^ 24) : magOfBits (e * 2 ^ 23 + s) = s * 2 ^ e := by
  delta magOfBits
  rcases Nat.lt_or_ge s (2 ^ 23) with hlow | hlow
  · obtain rfl : e = 0 := h.resolve_right (by omega)
    rw [if_pos (by omega)]
    omega
  · rw [if_neg (by omega)]
    rcases Nat.lt_or_eq_of_le hs with hlt | rfl
    · rw [show (e * 2 ^ 23 + s) / 2 ^ 23 - 1 = e by omega, show 2 ^ 23 + (e * 2 ^ 23 + s) % 2 ^ 23 = s by omega]
    · rw [show (e * 2 ^ 23 + 2 ^ 24) / 2 ^ 23 - 1 = e + 1 by omega,
        show 2 ^ 23 + (e * 2 ^ 23 + 2 ^ 24) % 2 ^ 23 = 2 ^ 23 by omega]
      ring

/-- Every magnitude's bits have a place and a significand below 2^24. -/
theorem exists_place (b : Nat) : ∃ e s, b = e * 2 ^ 23 + s ∧ (e = 0 ∨ 2 ^ 23 ≤ s) ∧ s < 2 ^ 24 :=
  ⟨b / 2 ^ 23 - 1, b - (b / 2 ^ 23 - 1) * 2 ^ 23, by omega, by omega, by omega⟩

/-- The magnitudes rise strictly with their bits. -/
theorem magOfBits_strictMono : StrictMono magOfBits := by
  refine strictMono_nat_of_lt_succ fun b => ?_
  obtain ⟨e, s, rfl, hnorm, hs⟩ := exists_place b
  rw [Nat.add_assoc, magOfBits_place hnorm hs.le, magOfBits_place (by omega) hs]
  exact Nat.mul_lt_mul_of_pos_right (Nat.lt_succ_self s) (Nat.two_pow_pos e)

/-- A magnitude is a multiple of a place's unit, or lies below the binade of the place. -/
theorem magOfBits_multiple_or_below (b p : Nat) :
    (∃ m, magOfBits b = m * 2 ^ p) ∨ (0 < p ∧ magOfBits b < 2 ^ 23 * 2 ^ p) := by
  obtain ⟨e, s, rfl, hnorm, hs⟩ := exists_place b
  rcases Nat.lt_or_ge e p with hep | hpe
  · refine .inr ⟨by omega, ?_⟩
    have hplace : magOfBits (p * 2 ^ 23 + 2 ^ 23) = 2 ^ 23 * 2 ^ p := magOfBits_place (by omega) (by decide)
    rw [← hplace]
    exact magOfBits_strictMono (by omega)
  · obtain ⟨k, rfl⟩ := Nat.exists_eq_add_of_le hpe
    refine .inl ⟨s * 2 ^ k, ?_⟩
    rw [magOfBits_place hnorm hs.le]
    ring

/-! ## The rounded bits -/

theorem lastPlace_eq (num den : Nat) : lastPlace num den = Nat.log2 (num / den) - 23 := rfl

/-- The significand that the rounding gives at its last place is normalised, but at the lowest place, and at most 2^24. -/
theorem roundedSignificand_range {num den : Nat} (hd : 0 < den) :
    (lastPlace num den = 0 ∨ 2 ^ 23 * (den * 2 ^ lastPlace num den) ≤ num) ∧ num ≤ 2 ^ 24 * (den * 2 ^ lastPlace num den) := by
  have hunit (k p : Nat) : 2 ^ k * (den * 2 ^ p) = 2 ^ (p + k) * den := by ring
  rw [hunit, hunit]
  constructor
  · by_cases hp : lastPlace num den = 0
    · exact .inl hp
    · have hne : num / den ≠ 0 := by
        intro hq
        rw [lastPlace_eq, hq] at hp
        exact hp rfl
      have hlog : lastPlace num den + 23 = Nat.log2 (num / den) := by
        rw [lastPlace_eq] at hp ⊢
        omega
      rw [hlog]
      exact .inr ((Nat.le_div_iff_mul_le hd).mp (Nat.log2_self_le hne))
  · have hlt : num / den < 2 ^ (lastPlace num den + 24) :=
      lt_of_lt_of_le Nat.lt_log2_self (Nat.pow_le_pow_right (by decide) (by rw [lastPlace_eq]; omega))
    exact ((Nat.div_lt_iff_lt_mul hd).mp hlt).le

/-- A finite rounding stands for its significand at its last place, and is odd exactly where the significand is. -/
theorem magOfBits_roundBits {num den : Nat} (hd : 0 < den) (hfin : roundBits num den < 0x7F800000) :
    magOfBits (roundBits num den) = divNearestEven num (den * 2 ^ lastPlace num den) * 2 ^ lastPlace num den ∧
      roundBits num den % 2 = divNearestEven num (den * 2 ^ lastPlace num den) % 2 := by
  obtain ⟨hnorm, hle⟩ := roundedSignificand_range (num := num) hd
  have hpos : 0 < den * 2 ^ lastPlace num den := Nat.mul_pos hd (Nat.two_pow_pos _)
  have hsig := divNearestEven_le_of_le hpos hle
  have hnorm' : lastPlace num den = 0 ∨ 2 ^ 23 ≤ divNearestEven num (den * 2 ^ lastPlace num den) :=
    hnorm.imp_right fun h => ((Nat.le_div_iff_mul_le hpos).mpr h).trans (le_divNearestEven _ _)
  have hbits : roundBits num den = lastPlace num den * 2 ^ 23 + divNearestEven num (den * 2 ^ lastPlace num den) := by
    revert hfin
    delta roundBits
    omega
  rw [hbits]
  exact ⟨magOfBits_place hnorm' hsig, by omega⟩

/-- Settles O53: a magnitude at the last place or above is one of the integers that the significand was chosen from, and one below
the quotient's binade is farther than the binade's own least value. -/
theorem roundingIsNearestEven : Obligations.RoundingIsNearestEven := by
  intro num den hd hfin b _ hb
  obtain ⟨hmag, hparity⟩ := magOfBits_roundBits hd hfin
  obtain ⟨hnorm, -⟩ := roundedSignificand_range (num := num) hd
  have hne : magOfBits b ≠ magOfBits (roundBits num den) := fun h => hb (StrictMono.injective magOfBits_strictMono h)
  have hunit (m : Nat) : ((m * 2 ^ lastPlace num den : Nat) : Int) * den = m * ((den * 2 ^ lastPlace num den : Nat) : Int) := by
    push_cast
    ring
  have hnear (m : Nat) := divNearestEven_nearest (m := m) num (Nat.mul_pos hd (Nat.two_pow_pos (lastPlace num den)))
  rw [hparity]
  rw [hmag] at hne ⊢
  rcases magOfBits_multiple_or_below b (lastPlace num den) with ⟨m, hm⟩ | ⟨hp, hlt⟩
  · rw [hm] at hne ⊢
    rw [hunit, hunit]
    exact hnear m fun h => hne (by rw [h])
  · have hleast := hnorm.resolve_left hp.ne'
    have hfar : magOfBits b * den < 2 ^ 23 * (den * 2 ^ lastPlace num den) := by
      calc magOfBits b * den < 2 ^ 23 * 2 ^ lastPlace num den * den := Nat.mul_lt_mul_of_pos_right hlt hd
        _ = _ := by ring
    have hbeyond : |((2 ^ 23 : Nat) * (den * 2 ^ lastPlace num den : Nat) : Int) - num| < |(magOfBits b * den : Int) - num| := by
      zify at hfar hleast
      push_cast
      rw [abs_of_nonpos (by omega), abs_of_nonpos (by omega)]
      omega
    rw [hunit]
    by_cases hsig : 2 ^ 23 = divNearestEven num (den * 2 ^ lastPlace num den)
    · rw [← hsig]
      exact .inl hbeyond
    · rcases hnear (2 ^ 23) hsig with hcloser | ⟨htie, -⟩
      · exact .inl (hcloser.trans hbeyond)
      · exact .inl (htie.trans_lt hbeyond)

end Sys2Proof.Machine

/-! SUPPORT. The exact cases of the datapath: a value that is a binary32 rounds to itself, so frac of a non-negative value is exact
(spec/00_scope.md section 5), and an exact root is its table entry, so lut_exp2 is exact at the ends of its range (40_lut.md
section 3). -/

namespace Sys2Proof.Machine

/-! ## Exact values -/

/-- A magnitude rounds to its own bits. -/
theorem roundBits_magOfBits {b : Nat} (hb : b < 0x7F800000) : roundBits (magOfBits b) 1 = b := by
  have hle : roundBits (magOfBits b) 1 ≤ b := roundBits_le_of_le Nat.one_pos (Nat.mul_one _).ge
  by_contra hne
  have hself : |(magOfBits b * (1 : Nat) : Int) - magOfBits b| = 0 := by simp
  have hnear := roundingIsNearestEven (magOfBits b) 1 Nat.one_pos (by omega) b hb (Ne.symm hne)
  rw [hself] at hnear
  rcases hnear with hcloser | ⟨hsame, -⟩
  · exact absurd hcloser (abs_nonneg _).not_gt
  · have hmag : magOfBits (roundBits (magOfBits b) 1) = magOfBits b := by
      have := abs_eq_zero.mp hsame
      omega
    exact hne (StrictMono.injective magOfBits_strictMono hmag)

/-- A significand below 2^24 at a place below the overflow is a finite magnitude. -/
theorem exists_bits_of_significand {a k : Nat} (ha : a < 2 ^ 24) (hk : k ≤ 253) :
    ∃ b, b < 0x7F800000 ∧ magOfBits b = a * 2 ^ k := by
  induction k generalizing a with
  | zero => exact ⟨0 * 2 ^ 23 + a, by omega, magOfBits_place (.inl rfl) ha.le⟩
  | succ k ih =>
    rcases Nat.lt_or_ge a (2 ^ 23) with hlow | hlow
    · obtain ⟨b, hb, hmag⟩ := ih (a := 2 * a) (by omega) (by omega)
      exact ⟨b, hb, by rw [hmag]; ring⟩
    · exact ⟨(k + 1) * 2 ^ 23 + a, by omega, magOfBits_place (.inr hlow) ha.le⟩

/-- The remainder of a magnitude by 1.0, 2^149 units, is a magnitude below 1.0. -/
theorem exists_bits_of_fraction (b : Nat) : ∃ c, c < 0x3F800000 ∧ magOfBits c = magOfBits b % 2 ^ 149 := by
  have hone : magOfBits 0x3F800000 = 2 ^ 149 := by decide
  suffices hex : ∃ c, magOfBits c = magOfBits b % 2 ^ 149 by
    obtain ⟨c, hc⟩ := hex
    refine ⟨c, Iff.mp (StrictMono.lt_iff_lt magOfBits_strictMono) ?_, hc⟩
    rw [hc, hone]
    exact Nat.mod_lt _ (by positivity)
  obtain ⟨e, s, rfl, hnorm, hs⟩ := exists_place b
  rw [magOfBits_place hnorm hs.le]
  rcases Nat.lt_or_ge e 149 with he | he
  · obtain ⟨c, -, hc⟩ := exists_bits_of_significand (a := s % 2 ^ (149 - e)) (k := e)
      (lt_of_le_of_lt (Nat.mod_le _ _) hs) (by omega)
    refine ⟨c, hc.trans ?_⟩
    have hsplit : (2 : Nat) ^ 149 = 2 ^ (149 - e) * 2 ^ e := by rw [← Nat.pow_add, Nat.sub_add_cancel he.le]
    rw [hsplit, Nat.mul_mod_mul_right]
  · exact ⟨0, (Nat.mod_eq_zero_of_dvd (Dvd.dvd.mul_left (Nat.pow_dvd_pow 2 he) s)).symm⟩

theorem f32Sign_eq (x : F32) : f32Sign x = x.msb := rfl

theorem f32Bits_eq (x : F32) : f32Bits x = x.toNat % 2 ^ 31 := rfl

/-- A value without the sign bit is its 31 bits. -/
theorem toNat_of_sign {x : F32} (h : f32Sign x = false) : x.toNat = f32Bits x := by
  rw [f32Sign_eq, BitVec.msb_eq_decide, decide_eq_false_iff_not] at h
  rw [f32Bits_eq, Nat.mod_eq_of_lt (by omega)]

/-- A finite value that is not negative is its magnitude. -/
theorem f32Scaled_of_nonneg {x : F32} (h : 0 ≤ f32Scaled x) : f32Scaled x = magOfBits (f32Bits x) := by
  have habs := natAbs_f32Scaled x
  omega

/-- A magnitude given as an integer count is packed exactly. -/
theorem f32OfScaled_magOfBits {b : Nat} (hb : b < 0x7F800000) : f32OfScaled (magOfBits b) = f32Pack false b := by
  delta f32OfScaled
  rw [Int.natAbs_natCast, roundBits_magOfBits hb, decide_eq_false (by omega)]

theorem f32Scaled_pack_false {b : Nat} (hb : b < 2 ^ 31) : f32Scaled (f32Pack false b) = magOfBits b := by
  delta f32Scaled
  rw [f32Sign_pack_false hb, f32Bits_pack false hb, if_neg Bool.false_ne_true]

/-! ## frac -/

/-- frac lies in [0, 1): it is not negative and at most 1.0, and a rounded 1.0 is mapped to +0.0 (R15). -/
theorem f32Frac_inUnitInterval (x : F32) : InUnitInterval (f32Frac x) := by
  obtain ⟨hle, hsign⟩ := f32Frac_le x
  have hbits := toNat_of_sign hsign
  have hne : f32Frac x ≠ 0x3F800000#32 := by
    delta f32Frac
    split
    · split
      · decide
      · assumption
    · have hopen := (Config.fracOpen x).isLt
      refine fun h => hopen.ne ?_
      have hnat := congrArg BitVec.toNat h
      rw [BitVec.toNat_ofNat, BitVec.toNat_ofNat] at hnat
      omega
  have hnat : (f32Frac x).toNat ≠ 0x3F800000 := fun h => hne (BitVec.eq_of_toNat_eq h)
  change (f32Frac x).toNat < 0x3F800000
  omega

/-- Settles O54: the remainder by 1.0 is a binary32 below 1.0, so its rounding changes nothing. -/
theorem fracInUnitIntervalAndExact : Obligations.FracInUnitIntervalAndExact := by
  refine ⟨f32Frac_inUnitInterval, fun x hfin hnonneg => ?_⟩
  obtain ⟨c, hc, hmag⟩ := exists_bits_of_fraction (f32Bits x)
  have hrem : f32Scaled x % 2 ^ 149 = (magOfBits c : Int) := by
    rw [f32Scaled_of_nonneg hnonneg, hmag]
    norm_cast
  have hround : f32OfScaled (f32Scaled x % 2 ^ 149) = f32Pack false c := by
    rw [hrem, f32OfScaled_magOfBits (by omega)]
  have hne : f32Pack false c ≠ 0x3F800000#32 := fun h => by
    have hnat := congrArg BitVec.toNat h
    rw [f32Pack_false_toNat (by omega), BitVec.toNat_ofNat] at hnat
    omega
  delta f32Frac
  rw [if_pos hfin, hround, if_neg hne, f32Scaled_pack_false (by omega), hrem]

/-! ## Roots -/

/-- The bitwise search finds the integer root, from any part of it found so far. -/
theorem rootBits_eq {q x R b r : Nat} (hlo : R ^ q ≤ x) (hhi : x < (R + 1) ^ q) (hr : r ≤ R) (hR : R < r + 2 ^ b) :
    rootBits q x b r = R := by
  induction b generalizing r with
  | zero =>
    have hzero : rootBits q x 0 r = r := rfl
    omega
  | succ b ih =>
    have hsucc : rootBits q x (b + 1) r = rootBits q x b (if (r + 2 ^ b) ^ q ≤ x then r + 2 ^ b else r) := rfl
    rw [hsucc]
    rw [Nat.pow_succ] at hR
    split
    · rename_i hbit
      have hlt : r + 2 ^ b < R + 1 := lt_of_pow_lt_pow_left' q (lt_of_le_of_lt hbit hhi)
      exact ih (by omega) (by omega)
    · rename_i hbit
      have hlt : R < r + 2 ^ b := lt_of_pow_lt_pow_left' q (lt_of_le_of_lt hlo (Nat.not_le.mp hbit))
      exact ih hr hlt

theorem two_pow_mul_two_pow {a b c d : Nat} (h : a + b = c + d) : 2 ^ a * 2 ^ b = 2 ^ c * 2 ^ d := by
  rw [← Nat.pow_add, ← Nat.pow_add, h]

theorem mul_two_pow_inj {a b : Nat} (d : Nat) : a * 2 ^ d = b * 2 ^ d ↔ a = b := Nat.mul_left_inj (Nat.two_pow_pos d).ne'

/-- An entry of EXP2_LUT from the integer root of its radicand at the 50 fraction bits of the search, 2^(2k) * 2^(50 * 273) / 2^5460:
exact, or half a unit above the root. -/
theorem exp2Lut_of_root {k R : Nat} (hR : R < 2 ^ 64) (hlo : R ^ 273 ≤ 2 ^ (2 * k + 8190)) (hhi : 2 ^ (2 * k + 8190) < (R + 1) ^ 273) :
    exp2Lut k =
      f32Pack false (roundBits ((2 * R + if R ^ 273 = 2 ^ (2 * k + 8190) then 0 else 1) * 2 ^ 149) (2 ^ 51)) := by
  have hsplit : 2 ^ (2 * k) * 2 ^ (50 * 273) = 2 ^ (2 * k + 8190) * 2 ^ 5460 := two_pow_mul_two_pow (by omega)
  have hroot : rootBits 273 (2 ^ (2 * k) * 2 ^ (50 * 273) / 2 ^ 5460) 64 0 = R := by
    rw [hsplit, Nat.mul_div_cancel _ (Nat.two_pow_pos _)]
    exact rootBits_eq hlo hhi (Nat.zero_le R) (by omega)
  have hcut : R ^ 273 * 2 ^ 5460 = 2 ^ (2 * k) * 2 ^ (50 * 273) ↔ R ^ 273 = 2 ^ (2 * k + 8190) := by
    rw [hsplit]
    exact mul_two_pow_inj _
  delta exp2Lut f32OfRoot
  rw [hroot]
  simp only [hcut]

theorem pow_lt_succ_pow (a : Nat) {n : Nat} (hn : n ≠ 0) : a ^ n < (a + 1) ^ n := Nat.pow_lt_pow_left (Nat.lt_succ_self a) hn

/-- An entry whose radicand is the 273rd power of a power of two is exact. -/
theorem exp2Lut_of_exactRoot {k j : Nat} (hj : j < 64) (h : j * 273 = 2 * k + 8190) :
    exp2Lut k = f32Pack false (roundBits (2 * 2 ^ j * 2 ^ 149) (2 ^ 51)) := by
  have hR : 2 ^ j < 2 ^ 64 := Nat.pow_lt_pow_right (by decide) hj
  have hpow : (2 ^ j) ^ 273 = 2 ^ (2 * k + 8190) := (pow_mul 2 j 273).symm.trans (congrArg _ h)
  have hhi : 2 ^ (2 * k + 8190) < (2 ^ j + 1) ^ 273 := by
    rw [← hpow]
    exact pow_lt_succ_pow _ (by decide)
  rw [exp2Lut_of_root hR hpow.le hhi, if_pos hpow, Nat.add_zero]

/-- An entry by a root that is not exact, with both powers written in factors of at most 256. -/
theorem exp2Lut_of_inexactRoot {k R u v a b c : Nat} (hR : R < 2 ^ 64) (hroot : u * v = 273)
    (hsplit : a * b + c = 2 * k + 8190) (hlo : (R ^ u) ^ v < (2 ^ a) ^ b * 2 ^ c) (hhi : (2 ^ a) ^ b * 2 ^ c < ((R + 1) ^ u) ^ v) :
    exp2Lut k = f32Pack false (roundBits ((2 * R + 1) * 2 ^ 149) (2 ^ 51)) := by
  rw [← pow_mul, ← pow_mul, hroot, ← pow_add, hsplit] at hlo hhi
  rw [exp2Lut_of_root hR hlo.le hhi, if_neg hlo.ne]

/-! The entries at both ends of EXP2_LUT: 2^-20 and 2^10, and their neighbours. -/

theorem exp2Lut_zero : exp2Lut 0 = 0x35800000#32 :=
  (exp2Lut_of_exactRoot (j := 30) (by decide) (by decide)).trans (by decide)

theorem exp2Lut_one : exp2Lut 1 = 0x3580A6D2#32 :=
  (exp2Lut_of_inexactRoot (R := 1079208153) (u := 91) (v := 3) (a := 128) (b := 64) (c := 0) (by decide) (by decide) (by decide)
    (by decide)
    (by decide)).trans (by decide)

theorem exp2Lut_4094 : exp2Lut 4094 = 0x447EB40D#32 :=
  (exp2Lut_of_inexactRoot (R := 1147081807225479915) (u := 91) (v := 3) (a := 178) (b := 92) (c := 2) (by decide) (by decide)
    (by decide) (by decide)
    (by decide)).trans (by decide)

theorem exp2Lut_4095 : exp2Lut 4095 = 0x44800000#32 :=
  (exp2Lut_of_exactRoot (j := 60) (by decide) (by decide)).trans (by decide)

/-! ## lut_exp2 at the ends of its range -/

/-- lut_exp2 depends on a non-zero argument by its clamp alone. -/
theorem lutExp2_of_clamp {x : F32} (hnan : f32IsNaN x = false) (hzero : f32Eq x f32Zero = false) :
    lutExp2 x =
      let pos := exp2Pos (exp2Clamp x)
      let i0 := min (f32Floor pos).toNat 4094
      interpolate (exp2Lut i0) (exp2Lut (i0 + 1)) (f32Sub pos (f32OfInt i0)) := by
  delta lutExp2
  rw [if_neg (by simp [hnan]), if_neg (by simp [hzero])]

/-- At the clamp's lower end the position is 0 and the value the first entry. -/
theorem lutExp2_of_clamp_low {x : F32} (hnan : f32IsNaN x = false) (hzero : f32Eq x f32Zero = false)
    (hclamp : exp2Clamp x = f32OfInt (-20)) : lutExp2 x = 0x35800000#32 := by
  have hpos : exp2Pos (f32OfInt (-20)) = 0#32 := by decide
  have hindex : min (f32Floor 0#32).toNat 4094 = 0 := by decide
  rw [lutExp2_of_clamp hnan hzero, hclamp, hpos]
  simp only [hindex]
  rw [exp2Lut_zero, exp2Lut_one]
  decide

/-- At the clamp's upper end the position rounds to 4095, which the index guard takes to the last interval (R256). -/
theorem lutExp2_of_clamp_high {x : F32} (hnan : f32IsNaN x = false) (hzero : f32Eq x f32Zero = false)
    (hclamp : exp2Clamp x = exp2Xmax) : lutExp2 x = 0x44800000#32 := by
  have hpos : exp2Pos exp2Xmax = 0x457FF000#32 := by decide
  have hindex : min (f32Floor 0x457FF000#32).toNat 4094 = 4094 := by decide
  rw [lutExp2_of_clamp hnan hzero, hclamp, hpos]
  simp only [hindex]
  rw [exp2Lut_4094, exp2Lut_4095]
  decide

/-- The comparisons, for operands that are no NaN, compare places in the order. -/
theorem f32Le_iff {x y : F32} :
    f32Le x y = true ↔ f32IsNaN x = false ∧ f32IsNaN y = false ∧ f32Order x ≤ f32Order y := by
  delta f32Le
  simp [and_assoc]

theorem f32Lt_iff {x y : F32} :
    f32Lt x y = true ↔ f32IsNaN x = false ∧ f32IsNaN y = false ∧ f32Order x < f32Order y := by
  delta f32Lt
  simp [and_assoc]

theorem f32Eq_iff {x y : F32} :
    f32Eq x y = true ↔ f32IsNaN x = false ∧ f32IsNaN y = false ∧ f32Order x = f32Order y := by
  delta f32Eq
  simp [and_assoc]

theorem natAbs_f32Order (x : F32) : (f32Order x).natAbs = f32Bits x := by
  delta f32Order
  split <;> simp

/-- A value is its sign and its 31 bits. -/
theorem toNat_eq_sign_bits (x : F32) : x.toNat = (if f32Sign x then 2 ^ 31 else 0) + f32Bits x := by
  have hlt := x.isLt
  rw [f32Sign_eq, BitVec.msb_eq_decide, f32Bits_eq]
  simp only [decide_eq_true_iff]
  split <;> omega

/-- A non-zero place in the order is one value's. -/
theorem eq_of_f32Order_eq {x y : F32} (h : f32Order x = f32Order y) (hne : f32Order y ≠ 0) : x = y := by
  have hbits : f32Sign x = f32Sign y ∧ f32Bits x = f32Bits y := by
    revert h hne
    delta f32Order
    intro h hne
    cases hsx : f32Sign x <;> cases hsy : f32Sign y <;> simp only [hsx, hsy, if_true, Bool.false_eq_true, if_false] at h hne
    · exact ⟨rfl, by omega⟩
    · exfalso
      omega
    · exfalso
      omega
    · exact ⟨rfl, by omega⟩
  apply BitVec.eq_of_toNat_eq
  rw [toNat_eq_sign_bits, toNat_eq_sign_bits, hbits.1, hbits.2]

/-- At both zeros lut_exp2 is 1.0 without the table. -/
theorem lutExp2_of_eq_zero {x : F32} (h : f32Eq x f32Zero = true) : lutExp2 x = f32One := by
  obtain ⟨hx, -, -⟩ := Iff.mp f32Eq_iff h
  have hx' : ¬ f32IsNaN x = true := by rw [hx]; exact Bool.false_ne_true
  delta lutExp2
  rw [if_neg hx', if_pos h]

/-- Settles O55: from -20.0 down and from 10.0 up the clamp is at its end, and a zero takes no table. -/
theorem exp2SaturatesAtRangeEnds : Obligations.Exp2SaturatesAtRangeEnds := by
  have hlow : f32IsNaN (f32OfInt (-20)) = false ∧ f32Order (f32OfInt (-20)) = -0x41A00000 := by decide
  have hhigh : f32Order (f32OfInt 10) = 0x41200000 := by decide
  have hmax : f32IsNaN exp2Xmax = false ∧ f32Order exp2Xmax = 0x411FFFFF := by decide
  have hzero : f32Order f32Zero = 0 := by decide
  intro x
  have hnonzero (h : f32Order x ≠ 0) : f32Eq x f32Zero = false :=
    Bool.eq_false_of_not_eq_true fun heq => h ((Iff.mp f32Eq_iff heq).2.2.trans hzero)
  refine ⟨fun h => ?_, fun h => ?_, fun h => ?_⟩
  · obtain ⟨hx, -, hle⟩ := Iff.mp f32Le_iff h
    rw [hlow.2] at hle
    refine lutExp2_of_clamp_low hx (hnonzero (by omega)) ?_
    rcases Int.lt_or_eq_of_le hle with hlt | heq
    · exact if_pos (Iff.mpr f32Lt_iff ⟨hx, hlow.1, by rwa [hlow.2]⟩)
    · rw [eq_of_f32Order_eq (heq.trans hlow.2.symm) (by rw [hlow.2]; decide)]
      decide
  · obtain ⟨-, hx, hle⟩ := Iff.mp f32Le_iff h
    rw [hhigh] at hle
    refine lutExp2_of_clamp_high hx (hnonzero (by omega)) ?_
    have hnotLow : ¬ f32Lt x (f32OfInt (-20)) = true := fun hlt => by
      obtain ⟨-, -, hlt⟩ := Iff.mp f32Lt_iff hlt
      rw [hlow.2] at hlt
      omega
    exact (if_neg hnotLow).trans (if_pos (Iff.mpr f32Lt_iff ⟨hmax.1, hx, by rw [hmax.2]; omega⟩))
  · exact lutExp2_of_eq_zero h

end Sys2Proof.Machine

/-! SUPPORT. The velocity factor (spec/44_operator.md section 3) and the LFO (spec/46_lfo.md section 2): the interpolation over the
breakpoints, the two depths at 0, and the xorshift word, which is never 0. -/

namespace Sys2Proof.Machine

/-! ## The velocity factor -/

/-- The head of a falling list is its greatest element. -/
theorem getElem_le_head {b : Nat} {l : List Nat} (h : (b :: l).Pairwise (· > ·)) {j : Nat} (hj : j < (b :: l).length) :
    (b :: l)[j] ≤ b := by
  cases j with
  | zero => exact le_rfl
  | succ j => exact (List.rel_of_pairwise_cons h (List.getElem_mem _)).le

theorem velInterpolate_cons_cons (row : Nat → F32) (vv k hi lo : Nat) (l : List Nat) :
    velInterpolate row vv k (hi :: lo :: l) =
      if vv = hi then row k
      else if lo < vv then interpolate (row (k + 1)) (row k) (f32OfRat (vv - lo) (hi - lo))
      else velInterpolate row vv (k + 1) (lo :: l) := rfl

/-- Over falling breakpoints, a velocity at one of them gives its entry. -/
theorem velInterpolate_at (row : Nat → F32) {l : List Nat} (hl : l.Pairwise (· > ·)) (k : Nat) {j : Nat} (hj : j < l.length) :
    velInterpolate row l[j] k l = row (k + j) := by
  induction l generalizing k j with
  | nil => exact absurd hj (Nat.not_lt_zero j)
  | cons hi l ih =>
    obtain ⟨hbelow, hl⟩ := List.pairwise_cons.mp hl
    cases l with
    | nil =>
      obtain rfl : j = 0 := by simpa using hj
      rfl
    | cons lo l =>
      rw [velInterpolate_cons_cons]
      cases j with
      | zero => exact if_pos rfl
      | succ j =>
        have hj' : j < (lo :: l).length := Nat.lt_of_succ_lt_succ hj
        have hlt : (lo :: l)[j] < hi := hbelow _ (List.getElem_mem hj')
        have hle : (lo :: l)[j] ≤ lo := getElem_le_head hl _
        rw [List.getElem_cons_succ, if_neg hlt.ne, if_neg hle.not_gt, ih hl (k + 1) hj', Nat.add_right_comm, Nat.add_assoc]

/-- Over falling breakpoints, a velocity between two of them gives the interpolation of their entries. -/
theorem velInterpolate_between (row : Nat → F32) {l : List Nat} (hl : l.Pairwise (· > ·)) (k : Nat) {vv j : Nat}
    (hj : j + 1 < l.length) (hlo : l[j + 1] < vv) (hhi : vv < l[j]) :
    velInterpolate row vv k l =
      interpolate (row (k + j + 1)) (row (k + j)) (f32OfRat ((vv : Int) - l[j + 1]) (l[j] - l[j + 1])) := by
  induction l generalizing k j with
  | nil => exact absurd hj (Nat.not_lt_zero _)
  | cons hi l ih =>
    obtain ⟨hbelow, hl⟩ := List.pairwise_cons.mp hl
    cases l with
    | nil => simp at hj
    | cons lo l =>
      rw [velInterpolate_cons_cons]
      cases j with
      | zero => exact (if_neg hhi.ne).trans (if_pos hlo)
      | succ j =>
        have hj' : j + 1 < (lo :: l).length := Nat.lt_of_succ_lt_succ hj
        have hle : (lo :: l)[j] ≤ lo := getElem_le_head hl _
        have hlt : (lo :: l)[j] < hi := hbelow _ (List.getElem_mem _)
        have hvv : vv < (lo :: l)[j] := hhi
        rw [if_neg (hvv.trans hlt).ne, if_neg (hvv.trans_le hle).not_gt, ih hl (k + 1) hj' hlo hhi]
        rw [show k + 1 + j = k + (j + 1) by omega]
        rfl

/-- A velocity in 1..127 is its own clamp (R395). -/
theorem velFactor_of_range (T : Rom) (P : Memory) (i : Fin 6) {vel : Nat} (h : 1 ≤ vel) (h' : vel ≤ 127) :
    velFactor T P i vel = velInterpolate (T.velTable (opParam P i .velSens)) vel 0 velBreakpoints := by
  delta velFactor
  rw [max_eq_left h, min_eq_left h']

/-- Settles O57: velocity 0 is clamped to 1, and the breakpoints fall from 127 to 1. -/
theorem velocityFactorInterpolates : Obligations.VelocityFactorInterpolates := by
  intro T P i row bp
  have hfall : velBreakpoints.Pairwise (· > ·) := by decide
  have hbp (k : Nat) (hk : k < velBreakpoints.length) : bp k = velBreakpoints[k] := List.getD_eq_getElem _ _ hk
  have hlen : velBreakpoints.length = 9 := rfl
  have hrange (k : Nat) (hk : k < velBreakpoints.length) : 1 ≤ bp k ∧ bp k ≤ 127 := by
    have hall : ∀ b ∈ velBreakpoints, 1 ≤ b ∧ b ≤ 127 := by decide
    rw [hbp k hk]
    exact hall _ (List.getElem_mem _)
  refine ⟨rfl, fun k hk => ?_, fun k vel hk hlo hhi => ?_⟩
  · obtain ⟨h1, h127⟩ := hrange k hk
    rw [velFactor_of_range T P i h1 h127, hbp k hk, velInterpolate_at _ hfall 0 hk, Nat.zero_add]
    rfl
  · obtain ⟨h1, -⟩ := hrange (k + 1) (by omega)
    obtain ⟨-, h127⟩ := hrange k (by omega)
    rw [velFactor_of_range T P i (by omega) (by omega)]
    rw [hbp (k + 1) (by omega)] at hlo
    rw [hbp k (by omega)] at hhi
    rw [hbp (k + 1) (by omega), hbp k (by omega), velInterpolate_between _ hfall 0 (by omega) hlo hhi, Nat.zero_add,
      Nat.cast_sub hlo.le]
    rfl

/-! ## The depths at 0 -/

theorem f32IsNaN_of_bits_zero {x : F32} (h : f32Bits x = 0) : f32IsNaN x = false := by
  delta f32IsNaN
  rw [h]
  rfl

/-- A value is a zero where its 31 bits are 0. -/
theorem f32Eq_zero_of_bits {x : F32} (h : f32Bits x = 0) : f32Eq x f32Zero = true := by
  have hzero : f32IsNaN f32Zero = false ∧ f32Order f32Zero = 0 := by decide
  have horder : f32Order x = 0 := Int.natAbs_eq_zero.mp ((natAbs_f32Order x).trans h)
  exact Iff.mpr f32Eq_iff ⟨f32IsNaN_of_bits_zero h, hzero.1, horder.trans hzero.2.symm⟩

/-- lut_exp2 is 1.0 at both zeros (R256). -/
theorem lutExp2_of_bits_zero {x : F32} (h : f32Bits x = 0) : lutExp2 x = f32One :=
  lutExp2_of_eq_zero (f32Eq_zero_of_bits h)

theorem f32Bits_le_of_finite {x : F32} (h : f32Finite x = true) : f32Bits x ≤ 0x7F7FFFFF := by
  have hlt : f32Bits x < 0x7F800000 := of_decide_eq_true h
  omega

/-- A finite value times a zero, on either side, is a zero. -/
theorem f32Mul_zero_right {x y : F32} (hx : f32Finite x = true) (hy : f32Bits y = 0) : f32Bits (f32Mul x y) = 0 :=
  Nat.le_zero.mp (f32Mul_le (f32Bits_le_of_finite hx) hy.le (by decide) (by decide) (by decide) (by decide))

theorem f32Mul_zero_left {x y : F32} (hx : f32Bits x = 0) (hy : f32Finite y = true) : f32Bits (f32Mul x y) = 0 :=
  Nat.le_zero.mp (f32Mul_le hx.le (f32Bits_le_of_finite hy) (by decide) (by decide) (by decide) (by decide))

/-- A zero divided by 99 is a zero. -/
theorem f32Div_zero_99 {x : F32} (hx : f32Bits x = 0) : f32Bits (f32Div x (f32OfInt 99)) = 0 := by
  have h99 : f32Bits (f32OfInt 99) = 0x42C60000 := by decide
  exact Nat.le_zero.mp (f32Div_le hx.le h99 (by decide) (by decide) (by decide) (by decide) (by decide))

/-- A parameter whose byte is 0 is 0. -/
theorem globalParam_of_zero {P : Memory} {f : GlobalField} (h : Memory.read P (globalAddr f) = 0#8) : globalParam P f = 0 := by
  delta globalParam rawGlobal
  rw [h]
  exact Nat.zero_min _

theorem RomAdmissible.lfoPms_finite {T : Rom} (hT : RomAdmissible T) (P : Memory) :
    f32Finite (T.lfoPms (globalParam P .lfoPms)) = true := by
  have hle : globalParam P .lfoPms ≤ 7 := globalParam_le P .lfoPms
  have hpms := hT.lfoPms_range _ (Nat.lt_succ_of_le hle)
  exact f32Finite_of_le ((Nat.mod_le _ _).trans hpms) (by decide)

/-- With LFO_PMD 0 the argument of lut_exp2 is a zero. -/
theorem lfoPitchMod_of_depth_zero {T : Rom} (hT : RomAdmissible T) {P : Memory} (hP : globalParam P .lfoPmd = 0) {value : F32}
    (hvalue : f32Finite value = true) : lfoPitchMod T P value = f32One := by
  have hproduct : f32Bits (f32Mul value (f32OfInt (globalParam P .lfoPmd))) = 0 :=
    f32Mul_zero_right hvalue (by rw [hP]; decide)
  exact lutExp2_of_bits_zero (f32Mul_zero_left (f32Div_zero_99 hproduct) (hT.lfoPms_finite P))

/-- Half of a finite value and a half is finite. -/
theorem half_add_half_finite {value : F32} (h : f32Finite value = true) :
    f32Finite (f32Add (f32Mul value f32Half) f32Half) = true := by
  have hhalf : f32Bits (f32Mul value f32Half) ≤ 0x7EFFFFFF :=
    f32Mul_le (b := 0x3F000000) (f32Bits_le_of_finite h) (by decide) (by decide) (by decide) (by decide) (by decide)
  exact f32Finite_of_le (f32Add_le (b := 0x3F000000) (c := 0x7F000000) hhalf (by decide) (by decide) (by decide) (by decide)
    (by decide)) (by decide)

/-- With LFO_AMD 0 the amplitude amount is a zero. -/
theorem lfoAmpMod_of_depth_zero {P : Memory} (hP : globalParam P .lfoAmd = 0) {value : F32} (hvalue : f32Finite value = true) :
    f32Bits (lfoAmpMod P value) = 0 :=
  f32Div_zero_99 (f32Mul_zero_right (half_add_half_finite hvalue) (by rw [hP]; decide))

/-- A value in [-1, 1] has a magnitude of at most 1.0. -/
theorem f32Bits_le_one {value : F32} (hlo : f32Le (f32OfInt (-1)) value = true) (hhi : f32Le value f32One = true) :
    f32Bits value ≤ 0x3F800000 := by
  have horder : f32Order (f32OfInt (-1)) = -0x3F800000 ∧ f32Order f32One = 0x3F800000 := by decide
  obtain ⟨-, -, hge⟩ := Iff.mp f32Le_iff hlo
  obtain ⟨-, -, hle⟩ := Iff.mp f32Le_iff hhi
  have habs := natAbs_f32Order value
  omega

/-- Half of a value in [-1, 1] and a half is not negative (R477). -/
theorem half_add_half_sign {value : F32} (h : f32Bits value ≤ 0x3F800000) :
    f32Sign (f32Add (f32Mul value f32Half) f32Half) = false := by
  have hhalf : f32Bits (f32Mul value f32Half) ≤ 0x3F000000 :=
    f32Mul_le (b := 0x3F000000) h (by decide) (by decide) (by decide) (by decide) (by decide)
  have hscaled := natAbs_f32Scaled_le hhalf
  have hunit : magOfBits 0x3F000000 = 2 ^ 148 ∧ f32Scaled f32Half = 2 ^ 148 := by decide
  rw [hunit.1] at hscaled
  exact f32Add_sign (f32Finite_of_le hhalf (by decide)) (by decide) (by decide) (by rw [hunit.2]; omega)

/-- A quotient by 99 of a value without the sign bit has no sign bit. -/
theorem f32Div_99_sign {x : F32} (hx : f32Finite x = true) (hs : f32Sign x = false) : f32Sign (f32Div x (f32OfInt 99)) = false := by
  have h99 : f32Finite (f32OfInt 99) = true ∧ (f32Bits (f32OfInt 99) != 0) = true ∧ f32Sign (f32OfInt 99) = false := by decide
  obtain ⟨hfin, hne, hsign⟩ := h99
  delta f32Div
  rw [if_pos (by rw [hx, hfin, hne]; rfl), hs, hsign]
  exact f32Sign_pack_false (lt_of_le_of_lt (roundBits_le _ _) (by decide))

/-- With LFO_AMD 0 and a value in [-1, 1] no operation gives a sign bit, so the zero is +0.0. -/
theorem lfoAmpMod_eq_zero {P : Memory} (hP : globalParam P .lfoAmd = 0) {value : F32} (h : f32Bits value ≤ 0x3F800000) :
    lfoAmpMod P value = 0#32 := by
  have hvalue := f32Finite_of_le h (by decide)
  have hsum := half_add_half_finite hvalue
  have hzero : f32Finite (f32OfInt (globalParam P .lfoAmd)) = true ∧ f32Sign (f32OfInt (globalParam P .lfoAmd)) = false ∧
      f32Bits (f32OfInt (globalParam P .lfoAmd)) = 0 := by
    rw [hP]
    decide
  obtain ⟨hfin, hsign, hbits⟩ := hzero
  have hproduct := f32Mul_sign hsum hfin (half_add_half_sign h) hsign
  have hproductFinite := f32Finite_of_le (f32Mul_zero_right hsum hbits).le (by decide)
  have hquotient : f32Sign (lfoAmpMod P value) = false := f32Div_99_sign hproductFinite hproduct
  apply BitVec.eq_of_toNat_eq
  rw [toNat_of_sign hquotient, lfoAmpMod_of_depth_zero hP hvalue]
  rfl

/-- Settles O60: a depth of 0 makes a product a zero, and every later operation keeps it one. -/
theorem lfoDepthZeroIsNeutral : Obligations.LfoDepthZeroIsNeutral := by
  intro T hT P value hvalue
  refine ⟨fun h => lfoPitchMod_of_depth_zero hT (globalParam_of_zero h) hvalue, fun h => ?_, fun h hlo hhi => ?_⟩
  · exact f32Eq_zero_of_bits (lfoAmpMod_of_depth_zero (globalParam_of_zero h) hvalue)
  · exact lfoAmpMod_eq_zero (globalParam_of_zero h) (f32Bits_le_one hlo hhi)

/-! ## The xorshift word -/

/-- Only 0 is its own shift, to the left or to the right: each bit is a bit `k` places on, and beyond the word they are 0. -/
theorem eq_zero_of_eq_shiftLeft {w k : Nat} (hk : 0 < k) {x : BitVec w} (h : x = x <<< k) : x = 0#w := by
  have hbit : ∀ j, x.getLsbD j = false := by
    intro j
    induction j using Nat.strong_induction_on with
    | _ j ih =>
      rw [h, BitVec.getLsbD_shiftLeft]
      by_cases hj : j < k
      · simp [hj]
      · rw [ih (j - k) (by omega), Bool.and_false]
  exact BitVec.eq_of_getLsbD_eq fun j _ => by simp [hbit j]

theorem eq_zero_of_eq_ushiftRight {w k : Nat} (hk : 0 < k) {x : BitVec w} (h : x = x >>> k) : x = 0#w := by
  have hbit : ∀ n j, w ≤ j + n → x.getLsbD j = false := by
    intro n
    induction n with
    | zero => exact fun j hj => BitVec.getLsbD_of_ge x j hj
    | succ n ih =>
      intro j hj
      rw [h, BitVec.getLsbD_ushiftRight]
      exact ih (k + j) (by omega)
  exact BitVec.eq_of_getLsbD_eq fun j _ => by simp [hbit w j (by omega)]

/-- Each of the three xorshift moves takes only 0 to 0 (R475). -/
theorem xor_shiftLeft_ne_zero {w k : Nat} (hk : 0 < k) {x : BitVec w} (h : x ≠ 0#w) : x ^^^ x <<< k ≠ 0#w :=
  fun hz => h (eq_zero_of_eq_shiftLeft hk (BitVec.xor_eq_zero_iff.mp hz))

theorem xor_ushiftRight_ne_zero {w k : Nat} (hk : 0 < k) {x : BitVec w} (h : x ≠ 0#w) : x ^^^ x >>> k ≠ 0#w :=
  fun hz => h (eq_zero_of_eq_ushiftRight hk (BitVec.xor_eq_zero_iff.mp hz))

theorem xorshift32_ne_zero {x : BitVec 32} (h : x ≠ 0#32) : xorshift32 x ≠ 0#32 :=
  xor_shiftLeft_ne_zero (by decide) (xor_ushiftRight_ne_zero (by decide) (xor_shiftLeft_ne_zero (by decide) h))

/-- An LFO step keeps the word or takes its xorshift. -/
theorem lfoStep_prng_ne_zero (T : Rom) (P : Memory) {L : Lfo} (h : L.prng ≠ 0#32) : (lfoStep T P L).prng ≠ 0#32 := by
  rcases lfoStep_cases T P L with ⟨-, hstep⟩ | ⟨-, -, -, ⟨hprng, -⟩ | ⟨hprng, -⟩⟩
  · rw [hstep]
    exact h
  · rwa [hprng]
  · rw [hprng]
    exact xorshift32_ne_zero h

/-- Settles O46: a tick steps the word, a reset loads the seed, and no command writes it. -/
theorem stepKeepsPrngNonzero : Obligations.StepKeepsPrngNonzero := fun _ _ =>
  step_induction (Q := fun s => s.lfo.prng ≠ 0#32) (fun _ _ h => h)
    (fun s h => by
      rw [tick_lfo]
      split
      · exact lfoStep_prng_ne_zero rom s.params h
      · exact h)
    (fun _ => RomAdmissible.lfoSeed_ne_zero rom_admissible) (fun _ _ h => h) fun i s _ h => by
      rcases commandEffect_lfo_cases i s with hkept | ⟨_, _, -, htrigger⟩
      · rwa [hkept]
      · rw [htrigger]
        exact h

end Sys2Proof.Machine

/-! SUPPORT. Invariants of the voices (spec/10_state.md section 6): what every operation on one voice, or on one operator, keeps, every
step keeps of all of them. With it the ranges of the envelopes (42_envelope.md section 5, 43_pitch_envelope.md section 4), of the
phases and of the notes. -/

namespace Sys2Proof.Machine

/-! ## One induction for all voices and all operators -/

/-- A property of a voice that reset gives and every operation on the voice keeps: a new age, a note's start and release, a tick. -/
def VoiceInvariant (Q : Voice → Prop) : Prop :=
  Q Voice.reset ∧ (∀ vc a, Q vc → Q { vc with age := a }) ∧ (∀ P note vel vc, Q vc → Q (voiceNoteOn rom P note vel vc)) ∧
    (∀ P vc, Q vc → Q (voiceNoteOff rom P vc)) ∧ ∀ P L vc, Q vc → Q (voiceStep rom P L vc).1

/-- A property of an operator that reset gives and a trigger, a release and a tick keep. -/
def OperatorInvariant (Q : Operator → Prop) : Prop :=
  Q Operator.reset ∧ (∀ P n vel i o, Q o → Q (opTrigger rom P n vel i o)) ∧ (∀ P i o, Q o → Q (opRelease rom P i o)) ∧
    ∀ P i pm pmod amod fb o, Q o → Q (opStep rom P i pm pmod amod fb o).1

/-- An invariant of operators is one of the voices that hold them. -/
theorem OperatorInvariant.voice {Q : Operator → Prop} (h : OperatorInvariant Q) :
    VoiceInvariant fun vc => ∀ i : Fin 6, Q vc.ops[i] := by
  obtain ⟨hreset, htrigger, hrelease, htick⟩ := h
  refine ⟨fun i => ?_, fun _ _ hvc => hvc, fun P note vel vc hvc i => ?_, fun P vc hvc i => ?_, fun P L vc hvc => ?_⟩
  · have hop : Voice.reset.ops[i] = Operator.reset := Vector.getElem_replicate i.isLt
    rw [hop]
    exact hreset
  · rw [voiceNoteOn_op]
    exact htrigger P _ _ i _ (hvc i)
  · rw [voiceNoteOff_op]
    exact hrelease P i _ (hvc i)
  · exact algStep_ops_induction rom P (Q := fun _ => Q) (fun i pm pmod amod fb o => htick P i pm pmod amod fb o) _ _ _ hvc

theorem resetOf_voice (seed : BitVec 32) (v : Fin 8) : (State.resetOf seed).voices[v] = Voice.reset :=
  Vector.getElem_replicate v.isLt

/-- Changing one voice by an operation that keeps `Q` keeps it of all. -/
theorem forall_voice_updateVoice {Q : Voice → Prop} {s : State} (hs : ∀ v : Fin 8, Q s.voices[v]) {f : Voice → Voice}
    (hf : ∀ vc, Q vc → Q (f vc)) (v w : Fin 8) :
    Q (updateVoice v f s).voices[w] := by
  by_cases hw : w = v
  · subst hw
    rw [updateVoice_same]
    exact hf _ (hs w)
  · rw [updateVoice_other hw]
    exact hs w

section
variable {Q : Voice → Prop} (h : VoiceInvariant Q) {s : State} (hs : ∀ v : Fin 8, Q s.voices[v])
include h

theorem VoiceInvariant.reset : Q Voice.reset := h.1

theorem VoiceInvariant.age (vc : Voice) (a : BitVec 64) (hvc : Q vc) : Q { vc with age := a } := h.2.1 vc a hvc

theorem VoiceInvariant.noteOn (P : Memory) (note vel : BitVec 7) (vc : Voice) (hvc : Q vc) :
    Q (voiceNoteOn rom P note vel vc) := h.2.2.1 P note vel vc hvc

theorem VoiceInvariant.noteOff (P : Memory) (vc : Voice) (hvc : Q vc) : Q (voiceNoteOff rom P vc) := h.2.2.2.1 P vc hvc

theorem VoiceInvariant.tickStep (P : Memory) (L : Lfo) (vc : Voice) (hvc : Q vc) : Q (voiceStep rom P L vc).1 :=
  h.2.2.2.2 P L vc hvc

include hs

theorem VoiceInvariant.after_startNote (v : Fin 8) (note vel : BitVec 7) (w : Fin 8) :
    Q (startNote rom v note vel s).voices[w] :=
  forall_voice_updateVoice (s := bumpAge v s)
    (forall_voice_updateVoice (s := { s with counter := nextCounter s.counter }) hs (fun vc => h.age vc _) v)
    (h.noteOn s.params note vel) v w

theorem VoiceInvariant.after_synthNoteOn (note vel : BitVec 7) (w : Fin 8) : Q (synthNoteOn rom note vel s).voices[w] := by
  rcases synthNoteOn_cases rom note vel s with ⟨-, e⟩ | ⟨-, f, -, ⟨-, e⟩ | ⟨-, e⟩⟩ | ⟨-, -, e⟩ <;> rw [e]
  · refine h.after_startNote (s := triggerLfo rom (releaseAll rom s)) (fun v => ?_) 0 note vel w
    rw [triggerLfo_voices, releaseAll_voice]
    exact h.noteOff _ _ (hs v)
  · exact h.after_startNote hs f note vel w
  · exact h.after_startNote hs f note vel w
  · exact h.after_startNote (forall_voice_updateVoice hs (h.noteOff s.params) _) _ note vel w

theorem VoiceInvariant.after_synthNoteOff (note : BitVec 7) (w : Fin 8) : Q (synthNoteOff rom note s).voices[w] := by
  rcases synthNoteOff_cases rom note s with ⟨v, -, e⟩ | ⟨-, e⟩ <;> rw [e]
  · exact forall_voice_updateVoice hs (h.noteOff s.params) v w
  · exact hs w

theorem VoiceInvariant.after_tick (v : Fin 8) : Q (tick rom s).voices[v] := by
  cases hc : s.configured with
  | false =>
    rw [tick_unconfigured hc]
    exact hs v
  | true =>
    rw [tick_voice hc]
    cases ha : voiceActive true s.params s.voices[v] with
    | true =>
      rw [voiceTurn_of_active rom _ ha]
      exact h.tickStep _ _ _ (hs v)
    | false =>
      rw [voiceTurn_of_inactive rom _ ha]
      exact hs v

/-- Every step keeps an invariant of the voices, of every voice. -/
theorem VoiceInvariant.after_step {t : State} (hstep : Machine.step s = .next t) : ∀ v : Fin 8, Q t.voices[v] :=
  step_induction (Q := fun s => ∀ v : Fin 8, Q s.voices[v]) (fun _ _ hs => hs) (fun _ hs => h.after_tick hs)
    (fun _ v => by rw [hardwareReset_voices, resetOf_voice]; exact h.reset) (fun _ _ hs => hs)
    (fun i _ _ hs => commandEffect_induction (Q := fun s => ∀ v : Fin 8, Q s.voices[v]) hs (h.after_synthNoteOn hs)
      (h.after_synthNoteOff hs) (fun _ _ hv v => by rw [hv]; exact hs v) i) hs hstep

end

/-! ## Amplitude envelopes (R88, R89, R317) -/

/-- A static count fits its register (R305). -/
theorem RomAdmissible.envStaticCount_lt {T : Rom} (hT : RomAdmissible T) (P : Memory) (i : Fin 6) (d : BitVec 32) (n : Fin 4) :
    envStaticCount T P i d n < 2 ^ 31 := by
  have hstatics := hT.statics_lt (envStaticRate P i d n)
  rw [envStaticCount_eq]
  dsimp only
  split_ifs <;> omega

/-- The range of an envelope says nothing of its bits. -/
theorem EnvelopeInRange.with_keyDown {e : Envelope} (h : EnvelopeInRange e) (k : Bool) : EnvelopeInRange { e with keyDown := k } :=
  { h with }

theorem EnvelopeInRange.with_armed {e : Envelope} (h : EnvelopeInRange e) (k : Bool) : EnvelopeInRange { e with armed := k } :=
  { h with }

/-- Ending a pause keeps the range. -/
theorem EnvelopeInRange.with_static_zero {e : Envelope} (h : EnvelopeInRange e) : EnvelopeInRange { e with staticCount := 0#32 } :=
  { h with static_nonneg := le_rfl, static_idle := fun _ => rfl }

/-- Reaching the target keeps the range. -/
theorem EnvelopeInRange.with_level_target {e : Envelope} (h : EnvelopeInRange e) : EnvelopeInRange { e with level := e.target } :=
  { h with level_nonneg := h.target_nonneg, level_le := h.target_le }

/-- So does a level between 0 and its limit. -/
theorem EnvelopeInRange.with_level {e : Envelope} (h : EnvelopeInRange e) {l : Int} (hl : 0 ≤ l) (hl' : l ≤ 15 * 2 ^ 24) :
    EnvelopeInRange { e with level := toI32 l } := by
  have hint : (toI32 l).toInt = l := toI32_toInt (by omega) (by omega)
  exact { h with level_nonneg := hint.symm ▸ hl, level_le := hint.symm ▸ hl' }

/-- A stage entry puts target, increment and static count into their ranges; idle is entered without a pause. -/
theorem EnvelopeInRange.after_advance {T : Rom} (hT : RomAdmissible T) (P : Memory) (i : Fin 6) {e : Envelope}
    (h : EnvelopeInRange e) {st : Stage} (hst : st = .idle → e.staticCount = 0#32) :
    EnvelopeInRange (envAdvance T P i st e) := by
  cases hn : stageIndex st with
  | none =>
    obtain rfl := Iff.mp stageIndex_none hn
    rw [envAdvance_idle]
    exact { h with static_idle := fun _ => hst rfl }
  | some n =>
    have hidle : st ≠ .idle := fun he => by simp [Iff.mpr stageIndex_none he] at hn
    obtain ⟨htlo, hthi⟩ := hT.envTarget_range P i n
    obtain ⟨hilo, hihi⟩ := envIncOf_range (envQRate_le P i e.rsDelta n)
    have hslt := hT.envStaticCount_lt P i e.rsDelta n
    have htarget : (toI32 (envTarget T P i n)).toInt = envTarget T P i n := toI32_toInt (by omega) (by omega)
    have hinc : (toI32 (envIncOf (envQRate P i e.rsDelta n))).toInt = envIncOf (envQRate P i e.rsDelta n) :=
      toI32_toInt (by omega) (by omega)
    have hstatic : (toI32 (envStaticCount T P i e.rsDelta n)).toInt = envStaticCount T P i e.rsDelta n :=
      toI32_toInt (by omega) (by omega)
    rw [envAdvance_of_stageIndex T P i hn]
    exact { h with
      target_nonneg := by dsimp only; omega
      target_le := by dsimp only; omega
      inc_nonneg := by dsimp only; omega
      inc_le := by dsimp only; omega
      static_nonneg := by
        dsimp only
        split
        · omega
        · exact le_rfl
      static_idle := fun he => absurd he hidle }

theorem EnvelopeInRange.after_countdown {T : Rom} (hT : RomAdmissible T) (P : Memory) (i : Fin 6) {e : Envelope}
    (h : EnvelopeInRange e) : EnvelopeInRange (envCountdown T P i e) := by
  rcases envCountdown_cases T P i e with ⟨-, heq⟩ | ⟨-, -, heq⟩ | ⟨hgt, heq⟩ <;> rw [heq]
  · exact h
  · exact h.with_static_zero.after_advance hT P i fun _ => rfl
  · have hlt := BitVec.toInt_lt (x := e.staticCount)
    have hcount : (toI32 (e.staticCount.toInt - 1)).toInt = e.staticCount.toInt - 1 := toI32_toInt (by omega) (by omega)
    exact { h with
      static_nonneg := by dsimp only; omega
      static_idle := fun he => by rw [h.static_idle he] at hgt; exact absurd hgt (by decide) }

/-- A rising step ends between the jump target and the target, both within the level's range. -/
theorem EnvelopeInRange.envRisen_nonneg {e : Envelope} (h : EnvelopeInRange e) : 0 ≤ envRisen e.level.toInt e.inc.toInt := by
  have hlevel := h.level_le
  have hquot : 0 ≤ (17 * 2 ^ 24 - max e.level.toInt envJumpTarget) / 2 ^ 24 := by
    delta envJumpTarget
    omega
  have hrise := Int.mul_nonneg hquot h.inc_nonneg
  have hjump : 0 ≤ envJumpTarget := by decide
  delta envRisen
  omega

theorem EnvelopeInRange.after_integrate {T : Rom} (hT : RomAdmissible T) (P : Memory) (i : Fin 6) {e : Envelope}
    (h : EnvelopeInRange e) : EnvelopeInRange (envIntegrate T P i e) := by
  have htlo := h.target_nonneg
  have hthi := h.target_le
  rcases envIntegrate_cases T P i e with ⟨-, heq⟩ | ⟨-, hzero, -, heq⟩ | ⟨-, -, -, hlt, heq⟩ | ⟨-, -, -, hlt, heq⟩ <;> rw [heq]
  · exact h
  · exact h.with_level_target.after_advance hT P i fun _ => hzero
  · exact h.with_level h.envRisen_nonneg (by omega)
  · have hlevel := h.level_le
    have hinc := h.inc_nonneg
    exact h.with_level (by omega) (by omega)

/-- A tick keeps an envelope in range, whatever the live parameters are. -/
theorem EnvelopeInRange.after_envStep {T : Rom} (hT : RomAdmissible T) (P : Memory) (i : Fin 6) {e : Envelope}
    (h : EnvelopeInRange e) : EnvelopeInRange (envStep T P i e).1 :=
  (h.after_countdown hT P i).after_integrate hT P i

theorem EnvelopeInRange.after_release {T : Rom} (hT : RomAdmissible T) (P : Memory) (i : Fin 6) {e : Envelope}
    (h : EnvelopeInRange e) : EnvelopeInRange (envRelease T P i e) := by
  rcases Nat.lt_or_ge (stageCode e.stage) 3 with hst | hst
  · rw [envRelease_of_lt T P i hst]
    exact (h.with_keyDown false).after_advance hT P i fun he => by cases he
  · rw [envRelease_of_ge T P i hst]
    exact h.with_keyDown false

/-- A note's rate delta is in range, and so is the stage-0 entry that reads it. -/
theorem EnvelopeInRange.after_trigger {T : Rom} (hT : RomAdmissible T) (P : Memory) (i : Fin 6) (n : Nat) {e : Envelope}
    (h : EnvelopeInRange e) : EnvelopeInRange (envTrigger T P i { e with rsDelta := toI32 (rateDelta P i n) }) := by
  obtain ⟨hlo, hhi⟩ := rateDelta_range P i n
  have hint : (toI32 (rateDelta P i n)).toInt = rateDelta P i n := toI32_toInt (by omega) (by omega)
  have hrs : EnvelopeInRange { e with rsDelta := toI32 (rateDelta P i n) } :=
    { h with rs_nonneg := hint.symm ▸ hlo, rs_le := hint.symm ▸ hhi }
  exact ((hrs.with_keyDown true).with_armed true).after_advance hT P i fun he => by cases he

theorem envelopeInRange_reset : EnvelopeInRange Envelope.reset := by
  constructor <;> decide

theorem envelopeInRange_invariant : OperatorInvariant fun o => EnvelopeInRange o.env := by
  refine ⟨envelopeInRange_reset, fun P n vel i o h => ?_, fun P i o h => h.after_release rom_admissible P i,
    fun P i pm pmod amod fb o h => ?_⟩
  · show EnvelopeInRange (opTrigger rom P n vel i o).env
    rw [opTrigger_env]
    exact h.after_trigger rom_admissible P i n
  · rcases opStep_cases rom P i pm pmod amod fb o with ⟨-, e⟩ | ⟨-, y, e⟩ <;> rw [e]
    · exact h
    · exact h.after_envStep rom_admissible P i

/-- Settles O42: an operator's trigger, release and step each keep its envelope in range. -/
theorem stepKeepsEnvelopesInRange : Obligations.StepKeepsEnvelopesInRange := fun _ _ h hs =>
  VoiceInvariant.after_step (OperatorInvariant.voice envelopeInRange_invariant) h hs

/-! ## Pitch envelopes (R362) -/

/-- A pitch target lies in [-2^26, 127 * 2^19] under every admissible PITCHENV_TAB (R351). -/
theorem RomAdmissible.peTarget_range {T : Rom} (hT : RomAdmissible T) (P : Memory) (n : Fin 4) :
    -2 ^ 26 ≤ peTarget T P n ∧ peTarget T P n ≤ 127 * 2 ^ 19 := by
  have hpl : globalParam P (.pl n) ≤ 99 := globalParam_le P (.pl n)
  obtain ⟨hlo, hhi⟩ := hT.pitchenvTab_range _ (Nat.lt_succ_of_le hpl)
  delta peTarget
  omega

theorem PitchEnvelopeInRange.with_keyDown {p : PitchEnvelope} (h : PitchEnvelopeInRange p) (k : Bool) :
    PitchEnvelopeInRange { p with keyDown := k } := { h with }

theorem PitchEnvelopeInRange.with_level {p : PitchEnvelope} (h : PitchEnvelopeInRange p) {l : Int} (hl : -2 ^ 26 ≤ l)
    (hl' : l ≤ 127 * 2 ^ 19) : PitchEnvelopeInRange { p with level := toI32 l } := by
  have hint : (toI32 l).toInt = l := toI32_toInt (by omega) (by omega)
  exact { h with level_ge := hint.symm ▸ hl, level_le := hint.symm ▸ hl' }

/-- A stage entry puts target and increment into their ranges. -/
theorem PitchEnvelopeInRange.after_advance {T : Rom} (hT : RomAdmissible T) (P : Memory) (st : Stage) {p : PitchEnvelope}
    (h : PitchEnvelopeInRange p) : PitchEnvelopeInRange (peAdvance T P st p) := by
  cases hn : stageIndex st with
  | none =>
    obtain rfl := Iff.mp stageIndex_none hn
    rw [peAdvance_idle]
    exact { h with }
  | some n =>
    obtain ⟨htlo, hthi⟩ := hT.peTarget_range P n
    have hilt := hT.peInc_lt P n
    have htarget : (toI32 (peTarget T P n)).toInt = peTarget T P n := toI32_toInt (by omega) (by omega)
    have hinc : (toI32 (peInc T P n)).toInt = peInc T P n := toI32_toInt (by omega) (by omega)
    rw [peAdvance_of_stageIndex T P hn]
    exact { h with
      target_ge := by dsimp only; omega
      target_le := by dsimp only; omega
      inc_nonneg := by dsimp only; omega
      inc_lt := by dsimp only; omega }

/-- A tick keeps a pitch envelope in range: it moves the level towards the target and stops there. -/
theorem PitchEnvelopeInRange.after_move {T : Rom} (hT : RomAdmissible T) (P : Memory) {p : PitchEnvelope}
    (h : PitchEnvelopeInRange p) : PitchEnvelopeInRange (peMove T P p) := by
  have hllo := h.level_ge
  have hlhi := h.level_le
  have htlo := h.target_ge
  have hthi := h.target_le
  have hinc := h.inc_nonneg
  rcases peMove_cases T P p with ⟨-, heq⟩ | ⟨-, -, heq⟩ | ⟨-, -, hlt, heq⟩ | ⟨-, -, hlt, heq⟩ <;> rw [heq]
  · exact h
  · have hreached : PitchEnvelopeInRange { p with level := p.target } := { h with level_ge := htlo, level_le := hthi }
    exact hreached.after_advance hT P _
  · exact h.with_level (by omega) (by omega)
  · exact h.with_level (by omega) (by omega)

theorem PitchEnvelopeInRange.after_release {T : Rom} (hT : RomAdmissible T) (P : Memory) {p : PitchEnvelope}
    (h : PitchEnvelopeInRange p) : PitchEnvelopeInRange (peRelease T P p) := by
  rcases Nat.lt_or_ge (stageCode p.stage) 3 with hst | hst
  · rw [peRelease_of_lt T P hst]
    exact (h.with_keyDown false).after_advance hT P _
  · rw [peRelease_of_ge T P hst]
    exact h.with_keyDown false

theorem pitchEnvelopeInRange_reset : PitchEnvelopeInRange PitchEnvelope.reset := by
  constructor <;> decide

theorem pitchEnvelopeInRange_invariant : VoiceInvariant fun vc => PitchEnvelopeInRange vc.pe :=
  ⟨pitchEnvelopeInRange_reset, fun _ _ h => h,
    fun P _ _ _ h => (h.with_keyDown true).after_advance rom_admissible P .attack,
    fun P _ h => h.after_release rom_admissible P, fun P _ _ h => h.after_move rom_admissible P⟩

/-- Settles O43: a voice's start, release and step each keep its pitch envelope in range. -/
theorem stepKeepsPitchEnvelopesInRange : Obligations.StepKeepsPitchEnvelopesInRange := fun _ _ h hs =>
  VoiceInvariant.after_step pitchEnvelopeInRange_invariant h hs

/-! ## Phases (R90) -/

/-- An oscillator's phase is a frac, or +0.0 after a key sync, or as it was. -/
theorem oscPhase_invariant : OperatorInvariant fun o => InUnitInterval o.osc.phase := by
  refine ⟨by decide, fun P n vel i o h => ?_, fun _ _ _ h => h, fun P i pm pmod amod fb o h => ?_⟩
  · show InUnitInterval (opTrigger rom P n vel i o).osc.phase
    rw [opTrigger_osc]
    by_cases hsync : Memory.read P (0x20 * i.val + 0x16) = 0#8
    · rw [oscKeySyncAt_phase_of_eq hsync, oscSetFreq_phase]
      exact h
    · rw [oscKeySyncAt_phase_of_ne hsync]
      exact (by decide : InUnitInterval 0#32)
  · rcases opStep_cases rom P i pm pmod amod fb o with ⟨-, e⟩ | ⟨-, y, e⟩ <;> rw [e]
    · exact h
    · exact f32Frac_inUnitInterval _

/-- An LFO step keeps the phase or takes a frac. -/
theorem lfoStep_phase_inUnitInterval (T : Rom) (P : Memory) {L : Lfo} (h : InUnitInterval L.phase) :
    InUnitInterval (lfoStep T P L).phase := by
  rcases lfoStep_cases T P L with ⟨-, hstep⟩ | ⟨-, -, hphase, -⟩
  · rw [hstep]
    exact h
  · rw [hphase]
    exact f32Frac_inUnitInterval _

/-- Every step keeps the LFO phase in [0, 1): a tick steps it, NOTE_ON and reset put it to +0.0. -/
theorem step_lfoPhase_inUnitInterval {s t : State} (h : InUnitInterval s.lfo.phase) (hs : step s = .next t) :
    InUnitInterval t.lfo.phase :=
  step_induction (Q := fun s => InUnitInterval s.lfo.phase) (fun _ _ h => h)
    (fun s h => by
      rw [tick_lfo]
      split
      · exact lfoStep_phase_inUnitInterval rom s.params h
      · exact h)
    (fun _ => (by decide : InUnitInterval 0#32)) (fun _ _ h => h)
    (fun i s _ h => by
      rcases commandEffect_lfo_cases i s with hkept | ⟨_, _, -, htrigger⟩
      · rwa [hkept]
      · rw [htrigger]
        exact (by decide : InUnitInterval f32Zero)) h hs

theorem phasesInRange_reset : PhasesInRange State.reset where
  osc v i := by
    have hv : State.reset.voices[v] = Voice.reset := resetOf_voice _ v
    rw [hv]
    exact VoiceInvariant.reset (OperatorInvariant.voice oscPhase_invariant) i
  lfo := by decide

/-- Settles O44: the oscillators' phases by their invariant, the LFO's by its writers. -/
theorem stepKeepsPhasesInRange : Obligations.StepKeepsPhasesInRange :=
  ⟨phasesInRange_reset, fun _ _ h hs =>
    ⟨VoiceInvariant.after_step (OperatorInvariant.voice oscPhase_invariant) h.osc hs, step_lfoPhase_inUnitInterval h.lfo hs⟩⟩

/-! ## Notes (R65) -/

/-- A voice's note is a 7-bit note or 0xFF, and a 7-bit note where the voice is held. -/
def NoteLegal (vc : Voice) : Prop := (vc.note.toNat < 128 ∨ vc.note = 0xFF#8) ∧ (vc.held = true → vc.note.toNat < 128)

theorem noteLegal_invariant : VoiceInvariant NoteLegal := by
  refine ⟨⟨.inr rfl, fun hheld => by cases hheld⟩, fun _ _ h => h, fun P note vel vc _ => ?_,
    fun _ _ h => ⟨h.1, fun hheld => by cases hheld⟩, fun _ _ _ h => h⟩
  have hlt : (note.setWidth 8).toNat < 128 := by
    rw [BitVec.toNat_setWidth]
    exact lt_of_le_of_lt (Nat.mod_le _ _) note.isLt
  exact ⟨.inl hlt, fun _ => hlt⟩

/-- Settles O47: a start gives a 7-bit note, a release drops the held bit, and nothing else writes either. -/
theorem stepKeepsNotesLegal : Obligations.StepKeepsNotesLegal := fun _ _ h hs =>
  VoiceInvariant.after_step noteLegal_invariant h hs

/-! ## After reset -/

/-- Settles O48: each voice invariant holds of a reset voice, and the rest is read off the reset state. -/
theorem resetMeetsInvariants : Obligations.ResetMeetsInvariants := by
  have hv (v : Fin 8) : State.reset.voices[v] = Voice.reset := resetOf_voice _ v
  refine ⟨memoryCanonical_hardwareReset rom State.reset, statusConsistent_of_clear rfl rfl, fun v i => ?_, fun v => ?_,
    phasesInRange_reset, AgesOrdered.after_hardwareReset rom State.reset, RomAdmissible.lfoSeed_ne_zero rom_admissible, fun v => ?_,
    nothingArmed_hardwareReset rom State.reset, rfl⟩
  · rw [hv]
    exact VoiceInvariant.reset (OperatorInvariant.voice envelopeInRange_invariant) i
  · rw [hv]
    exact pitchEnvelopeInRange_reset
  · rw [hv]
    exact VoiceInvariant.reset noteLegal_invariant

end Sys2Proof.Machine

/-! SUPPORT. What a tick leaves alone (spec/47_voice_synth.md R511, R520): the cached state of voices and operators, the other voices, and
the disabled operators. -/

namespace Sys2Proof.Machine

/-! ## Cached state -/

/-- What a tick never writes of an operator: what its trigger and release set. -/
def cachedOf (o : Operator) : F32 × F32 × F32 × F32 × Bool × Bool × BitVec 32 :=
  (o.freq, o.velF, o.lsF, o.osc.inc, o.env.keyDown, o.env.armed, o.env.rsDelta)

/-- An envelope's step leaves the key bit and the rate delta (R307). -/
theorem envStep_keyDown_rsDelta (T : Rom) (P : Memory) (i : Fin 6) (e : Envelope) :
    (envStep T P i e).1.keyDown = e.keyDown ∧ (envStep T P i e).1.rsDelta = e.rsDelta := by
  have hint (e : Envelope) : (envIntegrate T P i e).keyDown = e.keyDown ∧ (envIntegrate T P i e).rsDelta = e.rsDelta := by
    rcases envIntegrate_cases T P i e with ⟨-, h⟩ | ⟨-, -, -, h⟩ | ⟨-, -, -, -, h⟩ | ⟨-, -, -, -, h⟩ <;> simp [h]
  have hcount : (envCountdown T P i e).keyDown = e.keyDown ∧ (envCountdown T P i e).rsDelta = e.rsDelta := by
    rcases envCountdown_cases T P i e with ⟨-, h⟩ | ⟨-, -, h⟩ | ⟨-, h⟩ <;> simp [h]
  obtain ⟨hkey, hrs⟩ := hint (envCountdown T P i e)
  exact ⟨hkey.trans hcount.1, hrs.trans hcount.2⟩

/-- A pitch envelope's step leaves the key bit (R354). -/
theorem peMove_keyDown (T : Rom) (P : Memory) (p : PitchEnvelope) : (peMove T P p).keyDown = p.keyDown := by
  rcases peMove_cases T P p with ⟨-, h⟩ | ⟨-, -, h⟩ | ⟨-, -, -, h⟩ | ⟨-, -, -, h⟩ <;> simp [h]

/-- An operator's step keeps its cached state (R400). -/
theorem cachedOf_opStep (T : Rom) (P : Memory) (i : Fin 6) (pm pmod amod : F32) (fb : Bool) (o : Operator) :
    cachedOf (opStep T P i pm pmod amod fb o).1 = cachedOf o := by
  rcases opStep_cases T P i pm pmod amod fb o with ⟨-, e⟩ | ⟨-, y, e⟩ <;> rw [e]
  obtain ⟨hkey, hrs⟩ := envStep_keyDown_rsDelta T P i o.env
  delta cachedOf
  simp only [hkey, hrs, envStep_armed]

theorem cachedOf_tick (T : Rom) (s : State) (v : Fin 8) (i : Fin 6) :
    cachedOf (tick T s).voices[v].ops[i] = cachedOf s.voices[v].ops[i] := by
  rcases tick_ops_cases T s v with e | ⟨pmod, amod, e⟩ <;> rw [e]
  exact algStep_ops_induction T s.params (Q := fun j o => cachedOf o = cachedOf s.voices[v].ops[j])
    (fun _ _ _ _ _ _ h => (cachedOf_opStep ..).trans h) pmod amod _ (fun _ => rfl) i

theorem tick_pe_keyDown (T : Rom) (s : State) (v : Fin 8) : (tick T s).voices[v].pe.keyDown = s.voices[v].pe.keyDown := by
  cases hc : s.configured with
  | false => rw [tick_unconfigured hc]
  | true =>
    rw [tick_voice hc]
    cases ha : voiceActive true s.params s.voices[v] with
    | false => rw [voiceTurn_of_inactive T _ ha]
    | true =>
      rw [voiceTurn_of_active T _ ha]
      exact peMove_keyDown T s.params s.voices[v].pe

/-- A tick writes output, LFO and voices only. -/
theorem tick_frame (T : Rom) (s : State) :
    tick T s = { s with out := (tick T s).out, lfo := (tick T s).lfo, voices := (tick T s).voices } := by
  rcases Bool.eq_false_or_eq_true s.configured with hc | hc
  · rw [tick_of_configured T hc]
  · rw [tick_unconfigured hc]

/-- Settles O34, from the frame of the state, of a voice and of an operator. -/
theorem tickKeepsCachedState : Obligations.TickKeepsCachedState := by
  refine fun T s => ⟨tick_frame T s, fun v => ?_⟩
  obtain ⟨hnote, hheld, hage⟩ := tick_voice_fields T s v
  refine ⟨hnote, hheld, hage, tick_pe_keyDown T s v, fun i => ?_⟩
  have hcached := cachedOf_tick T s v i
  exact ⟨congrArg (·.1) hcached, congrArg (·.2.1) hcached, congrArg (·.2.2.1) hcached, congrArg (·.2.2.2.1) hcached,
    congrArg (·.2.2.2.2.1) hcached, congrArg (·.2.2.2.2.2.1) hcached, congrArg (·.2.2.2.2.2.2) hcached⟩

/-! ## Isolation -/

/-- A tick leaves a voice that is not active (R511). -/
theorem tick_voice_of_inactive (T : Rom) {s : State} {v : Fin 8} (h : activeIn s v = false) :
    (tick T s).voices[v] = s.voices[v] := by
  cases hc : s.configured with
  | false => rw [tick_unconfigured hc]
  | true =>
    rw [activeIn_of_configured hc] at h
    rw [tick_voice hc, voiceTurn_of_inactive T _ h]

/-- Settles O35: a voice after a tick is its own turn, which reads the configured bit, the parameters, the LFO and the voice. -/
theorem tickIsolatesVoices : Obligations.TickIsolatesVoices := by
  refine ⟨fun T _ _ h => tick_voice_of_inactive T h, fun T s t v hconf hparams hlfo hvoice => ⟨?_, ?_⟩⟩
  · cases hc : t.configured with
    | false => rw [tick_unconfigured hc, tick_unconfigured (hconf.trans hc), hvoice]
    | true => rw [tick_voice hc, tick_voice (hconf.trans hc), hparams, hlfo, hvoice]
  · rw [tick_lfo, tick_lfo, hconf, hparams, hlfo]

/-! ## Disabled operators -/

/-- A disabled operator's step is nothing, and its sample +0.0 (R400). -/
theorem opStep_of_disabled (T : Rom) {P : Memory} {i : Fin 6} (h : Memory.read P (0x20 * i.val) = 0#8) (pm pmod amod : F32)
    (fb : Bool) (o : Operator) : opStep T P i pm pmod amod fb o = (o, f32Zero) := by
  rcases opStep_cases T P i pm pmod amod fb o with ⟨-, e⟩ | ⟨hen, -⟩
  · exact e
  · exact absurd h (Iff.mp (opFlag_enabled_iff P i) hen)

/-- Settles O37: no turn of the pass writes the operator, since its own step does nothing. -/
theorem disabledOperatorIsFrozen : Obligations.DisabledOperatorIsFrozen := by
  intro T s v i h
  refine ⟨?_, fun pm pmod amod fb => opStep_of_disabled T h pm pmod amod fb _⟩
  rcases tick_ops_cases T s v with e | ⟨pmod, amod, e⟩ <;> rw [e]
  have hstep (j : Fin 6) (pm pmod amod : F32) (fb : Bool) (o : Operator) (ho : j = i → o = s.voices[v].ops[i]) :
      j = i → (opStep T s.params j pm pmod amod fb o).1 = s.voices[v].ops[i] := by
    rintro rfl
    rw [opStep_of_disabled T h]
    exact ho rfl
  exact algStep_ops_induction T s.params (Q := fun j o => j = i → o = s.voices[v].ops[i]) hstep pmod amod _
    (fun _ hj => by rw [hj]) i rfl

end Sys2Proof.Machine

/-! SUPPORT. What NOTE_OFF releases and what a started or stolen voice is (spec/47_voice_synth.md R531, R532, R534), and where an
envelope rests (42_envelope.md R307, 43_pitch_envelope.md R354). -/

namespace Sys2Proof.Machine

/-! ## NOTE_OFF -/

theorem synthNoteOff_of_held (T : Rom) {note : BitVec 7} {s : State} {v : Fin 8} (h : heldVoice note s = some v) :
    synthNoteOff T note s = updateVoice v (voiceNoteOff T s.params) s := by
  rcases synthNoteOff_cases T note s with ⟨w, hw, e⟩ | ⟨hnone, -⟩
  · obtain rfl : w = v := Option.some.inj (hw.symm.trans h)
    exact e
  · exact absurd (h.symm.trans hnone) (Option.some_ne_none v)

theorem synthNoteOff_of_not_held (T : Rom) {note : BitVec 7} {s : State} (h : heldVoice note s = none) :
    synthNoteOff T note s = s := by
  rcases synthNoteOff_cases T note s with ⟨w, hw, -⟩ | ⟨-, e⟩
  · exact absurd (hw.symm.trans h) (Option.some_ne_none w)
  · exact e

/-- Settles O31: the voice that NOTE_OFF finds is the lowest one held with the note. -/
theorem noteOffReleasesLowestHeldVoice : Obligations.NoteOffReleasesLowestHeldVoice := by
  intro s note hc
  refine ⟨fun v hheld hnote hlowest => ?_, fun hnone => ?_⟩ <;> rw [exec_noteOff_of_configured hc]
  · rw [synthNoteOff_of_held rom (Iff.mpr heldVoice_eq_some ⟨⟨hheld, hnote⟩, hlowest⟩)]
    exact ⟨_, rfl, rfl, updateVoice_same v _ s, fun w hw => updateVoice_other hw _ s⟩
  · rw [synthNoteOff_of_not_held rom (Iff.mpr heldVoice_eq_none hnone)]

/-! ## A started voice -/

/-- A note's start arms every envelope and puts it into stage 0 (R313). -/
theorem voiceNoteOn_env (T : Rom) (P : Memory) (note vel : BitVec 7) (vc : Voice) (i : Fin 6) :
    (voiceNoteOn T P note vel vc).ops[i].env.armed = true ∧ (voiceNoteOn T P note vel vc).ops[i].env.stage = .attack := by
  rw [voiceNoteOn_op, opTrigger_env]
  exact ⟨envAdvance_armed .., envAdvance_stage ..⟩

/-- So the started voice is active exactly if some operator is enabled (R86, R87). -/
theorem voiceActive_voiceNoteOn_iff (T : Rom) (P : Memory) (note vel : BitVec 7) (vc : Voice) :
    voiceActive true P (voiceNoteOn T P note vel vc) = true ↔ ∃ i : Fin 6, opFlag P i .enabled = true := by
  rw [voiceActive_iff]
  refine exists_congr fun i => and_iff_left ?_
  obtain ⟨harmed, hstage⟩ := voiceNoteOn_env T P note vel vc i
  exact Iff.mpr (envActive_iff ..) ⟨rfl, harmed, .inl (by rw [hstage]; decide)⟩

/-- An active voice has an enabled operator. -/
theorem enabled_of_activeIn {s : State} {v : Fin 8} (h : activeIn s v = true) : ∃ i : Fin 6, opFlag s.params i .enabled = true := by
  obtain ⟨i, hi, -⟩ := Iff.mp (voiceActive_iff ..) h
  exact ⟨i, hi⟩

/-- A steal leaves every voice active: the stolen one has an enabled operator already (R534). -/
theorem activeIn_stealVoice (T : Rom) (note vel : BitVec 7) {s : State} (hc : s.configured = true)
    (hfull : ∀ v, activeIn s v = true) (v : Fin 8) : activeIn (stealVoice T note vel s) v = true := by
  rw [activeIn_of_configured ((stealVoice_configured ..).trans hc), stealVoice_params]
  by_cases hv : v = oldestVoice s
  · subst hv
    rw [stealVoice_same]
    exact Iff.mpr (voiceActive_voiceNoteOn_iff ..) (enabled_of_activeIn (hfull (oldestVoice s)))
  · rw [stealVoice_other T note vel s hv]
    exact (activeIn_of_configured hc v).symm.trans (hfull v)

/-- NOTE_ON starts the lowest free voice of a polyphonic block, whatever it does to the LFO (R531). -/
theorem synthNoteOn_voice_of_free (T : Rom) (note vel : BitVec 7) {s : State} {f : Fin 8}
    (hpoly : globalFlag s.params .mono = false) (hf : firstFree s = some f) :
    (synthNoteOn T note vel s).voices[f] = voiceNoteOn T s.params note vel { s.voices[f] with age := nextCounter s.counter } := by
  rw [synthNoteOn_of_free T note vel hpoly hf]
  split <;> exact startNote_same T f note vel s

/-- Settles O32: a full pool steals its oldest voice, and a free voice starts. -/
theorem voicePoolStaysFull : Obligations.VoicePoolStaysFull := by
  intro s note vel hc hmono
  refine ⟨fun hfull => ?_, fun f hf hbelow => ?_⟩
  · refine ⟨_, oldestVoice s, exec_noteOn_of_full hc hmono hfull note vel, activeIn_stealVoice rom note vel hc hfull,
      fun v => (oldestVoice_spec s v).1, fun v hv => stealVoice_other rom note vel s hv, ?_⟩
    rw [stealVoice_same]
    exact ⟨rfl, fun i => voiceNoteOn_env ..⟩
  · have hvoice := synthNoteOn_voice_of_free rom note vel (Iff.mpr (globalFlag_eq_false_iff _ _) hmono)
      (Iff.mpr firstFree_eq_some ⟨hf, hbelow⟩)
    refine ⟨_, exec_noteOn_of_configured hc note vel, by rw [hvoice]; rfl, ?_⟩
    rw [activeIn_of_configured ((synthNoteOn_configured ..).trans hc), synthNoteOn_params, hvoice, voiceActive_voiceNoteOn_iff]
    exact exists_congr fun i => opFlag_enabled_iff s.params i

/-! ## Envelopes at rest -/

theorem toI32_toInt_sub_one (x : BitVec 32) : toI32 (x.toInt - 1) = x - 1#32 := by
  apply BitVec.eq_of_toInt_eq
  delta toI32
  rw [BitVec.toInt_ofInt, BitVec.toInt_sub]
  rfl

/-- An envelope that does not move keeps its state in the integration (R307). -/
theorem envIntegrate_of_rest (T : Rom) (P : Memory) (i : Fin 6) {e : Envelope} (h : stageMoves e.stage e.keyDown = false) :
    envIntegrate T P i e = e := by
  rcases envIntegrate_cases T P i e with ⟨-, heq⟩ | ⟨hm, -⟩ | ⟨hm, -⟩ | ⟨hm, -⟩
  · exact heq
  all_goals exact absurd (hm.symm.trans h) (by simp)

/-- Without a pause a step is the integration alone. -/
theorem envStep_of_no_pause (T : Rom) (P : Memory) (i : Fin 6) {e : Envelope} (h : e.staticCount = 0#32) :
    (envStep T P i e).1 = envIntegrate T P i e := by
  have hcount : envCountdown T P i e = e := if_pos h
  exact congrArg (envIntegrate T P i) hcount

/-- An envelope without a pause that does not move is fixed by its step. -/
theorem envStep_of_rest (T : Rom) (P : Memory) (i : Fin 6) {e : Envelope} (hm : stageMoves e.stage e.keyDown = false)
    (hs : e.staticCount = 0#32) : (envStep T P i e).1 = e := by
  rw [envStep_of_no_pause T P i hs, envIntegrate_of_rest T P i hm]

/-- A pause of stage 3 that ends leads into idle at the same level (R307). -/
theorem envStep_of_release_pause_end (T : Rom) (P : Memory) (i : Fin 6) {e : Envelope} (hst : e.stage = .release)
    (hs : e.staticCount = 1#32) : (envStep T P i e).1 = { e with stage := .idle, staticCount := 0#32 } := by
  have hnext : nextStage e.stage = .idle := by rw [hst]; rfl
  rw [envStep_of_pause_end T P i hs, hnext, envAdvance_idle, envIntegrate_of_rest T P i rfl]

/-- In stage 3 the key holds the level, in a pause or not. -/
theorem envStep_level_of_held_release (T : Rom) (P : Memory) (i : Fin 6) {e : Envelope} (hst : e.stage = .release)
    (hkey : e.keyDown = true) : (envStep T P i e).1.level = e.level := by
  obtain ⟨hlevel, hrest⟩ : (envCountdown T P i e).level = e.level ∧
      stageMoves (envCountdown T P i e).stage (envCountdown T P i e).keyDown = false := by
    rcases envCountdown_cases T P i e with ⟨-, heq⟩ | ⟨-, -, heq⟩ | ⟨-, heq⟩ <;> rw [heq]
    · rw [hst, hkey]
      exact ⟨rfl, rfl⟩
    · rw [envAdvance_level, envAdvance_stage, hst]
      exact ⟨rfl, rfl⟩
    · rw [hst, hkey]
      exact ⟨rfl, rfl⟩
  exact (congrArg Envelope.level (envIntegrate_of_rest T P i hrest)).trans hlevel

theorem peMove_of_idle (T : Rom) (P : Memory) {p : PitchEnvelope} (hst : p.stage = .idle) : peMove T P p = p := by
  have hrest : stageMoves p.stage p.keyDown = false := by rw [hst]; rfl
  rcases peMove_cases T P p with ⟨-, heq⟩ | ⟨hm, -⟩ | ⟨hm, -⟩ | ⟨hm, -⟩
  · exact heq
  all_goals exact absurd (hm.symm.trans hrest) (by simp)

/-- Settles O50, from the three cases of a static pause and the stages that do not move. -/
theorem sustainAndIdleHoldLevel : Obligations.SustainAndIdleHoldLevel := by
  refine ⟨fun T P i e hst hkey => ⟨envStep_level_of_held_release T P i hst hkey, fun hs => ?_,
    envStep_of_release_pause_end T P i hst, fun hs => ?_⟩, fun T P i e hst hs => ?_, fun T P p => ?_⟩
  · exact envStep_of_rest T P i (by rw [hst, hkey]; rfl) hs
  · rw [envStep_of_pause T P i hs, toI32_toInt_sub_one]
  · exact envStep_of_rest T P i (by rw [hst]; rfl) hs
  · rintro (⟨hst, hkey⟩ | hst)
    · exact peMove_of_held_release T P hst hkey
    · exact peMove_of_idle T P hst

end Sys2Proof.Machine

/-! SUPPORT. A released envelope comes to rest in stage 4 (spec/42_envelope.md R306, R307, R314): its tick iterated, with a distance
that every moving tick lowers. -/

namespace Sys2Proof.Machine

/-! ## Rest and reaching it -/

/-- At rest in stage 4 at the given level, with no pause left. -/
def IdleAt (level : Int) (e : Envelope) : Prop := e.stage = .idle ∧ e.staticCount = 0#32 ∧ e.level.toInt = level

/-- The envelope after `k` ticks. -/
def envAfter (T : Rom) (P : Memory) (i : Fin 6) (k : Nat) (e : Envelope) : Envelope := (fun x => (envStep T P i x).1)^[k] e

/-- Some number of ticks leads to rest in stage 4 at the given level. -/
def ReachesIdle (T : Rom) (P : Memory) (i : Fin 6) (e : Envelope) (level : Int) : Prop :=
  ∃ n, IdleAt level (envAfter T P i n e)

section
variable {T : Rom} {P : Memory} {i : Fin 6} {e : Envelope} {level : Int}

theorem envAfter_succ (k : Nat) : envAfter T P i (k + 1) e = (envStep T P i (envAfter T P i k e)).1 :=
  Function.iterate_succ_apply' ..

theorem envAfter_add (m n : Nat) : envAfter T P i (m + n) e = envAfter T P i m (envAfter T P i n e) :=
  Function.iterate_add_apply ..

/-- A tick leaves an envelope at rest. -/
theorem IdleAt.envStep_eq (h : IdleAt level e) : (envStep T P i e).1 = e :=
  envStep_of_rest T P i (by rw [h.1]; rfl) h.2.1

/-- At rest with L4 = 0 the gain is +0.0, whatever the level (R310). -/
theorem IdleAt.gain_eq_zero (h : IdleAt level e) (hl4 : opParam P i (.l 3) = 0) : (envStep T P i e).2 = 0#32 := by
  have hgain : (envStep T P i e).2 = envGain P i e := congrArg (envGain P i) h.envStep_eq
  rw [hgain]
  delta envGain
  rw [if_pos (And.intro h.1 hl4)]
  split <;> rfl

/-- At rest with L4 = 0 an envelope is not active (R86). -/
theorem IdleAt.not_active (h : IdleAt level e) (hl4 : opParam P i (.l 3) = 0) : envActive true P i e = false := by
  have hnot : ¬envActive true P i e = true := fun hactive => by
    obtain ⟨-, -, hstage | hpos⟩ := Iff.mp (envActive_iff ..) hactive
    · rw [h.1] at hstage
      exact absurd hstage (by decide)
    · exact absurd hl4 hpos.ne'
  exact Bool.eq_false_iff.mpr hnot

theorem ReachesIdle.of_idleAt (h : IdleAt level e) : ReachesIdle T P i e level := ⟨0, h⟩

theorem ReachesIdle.of_iterate (n : Nat) (h : ReachesIdle T P i (envAfter T P i n e) level) :
    ReachesIdle T P i e level := by
  obtain ⟨m, hm⟩ := h
  exact ⟨m + n, by rwa [envAfter_add]⟩

theorem ReachesIdle.of_envStep (h : ReachesIdle T P i (envStep T P i e).1 level) : ReachesIdle T P i e level :=
  h.of_iterate 1

/-- Rest, once reached, lasts. -/
theorem ReachesIdle.lasts (h : ReachesIdle T P i e level) :
    ∃ n, ∀ k, n ≤ k → IdleAt level (envAfter T P i k e) := by
  obtain ⟨n, hn⟩ := h
  refine ⟨n, fun k hk => ?_⟩
  induction k, hk using Nat.le_induction with
  | base => exact hn
  | succ k _ ih =>
    rw [envAfter_succ, ih.envStep_eq]
    exact ih

/-- At rest the envelope is in stage 4 at the level, and with L4 = 0 silent and not active. -/
theorem ReachesIdle.restsAt (h : ReachesIdle T P i e level) :
    ∃ n, ∀ k, n ≤ k →
      (envAfter T P i k e).stage = .idle ∧ (envAfter T P i k e).level.toInt = level ∧
        (opParam P i (.l 3) = 0 → (envStep T P i (envAfter T P i k e)).2 = 0#32 ∧
          envActive true P i (envAfter T P i k e) = false) := by
  obtain ⟨n, hn⟩ := h.lasts
  refine ⟨n, fun k hk => ?_⟩
  obtain ⟨hstage, -, hlevel⟩ := hn k hk
  exact ⟨hstage, hlevel, fun hl4 => ⟨(hn k hk).gain_eq_zero hl4, (hn k hk).not_active hl4⟩⟩

end

/-! ## A pause of stage 3 -/

/-- A static pause of stage 3 ends in stage 4 at the level it had (R307). -/
theorem reachesIdle_of_pause (T : Rom) (P : Memory) (i : Fin 6) {e : Envelope} (hst : e.stage = .release)
    (hpos : 0 < e.staticCount.toInt) : ReachesIdle T P i e e.level.toInt := by
  obtain ⟨k, hk⟩ : ∃ k : Nat, e.staticCount.toInt = k + 1 := ⟨e.staticCount.toInt.toNat - 1, by omega⟩
  have hlast : toI32 (e.staticCount.toInt - k) = 1#32 := by
    rw [hk, add_sub_cancel_left]
    rfl
  have hend : (envStep T P i { e with staticCount := 1#32 }).1 = { e with stage := .idle, staticCount := 0#32 } :=
    envStep_of_release_pause_end T P i hst rfl
  refine ReachesIdle.of_iterate k (ReachesIdle.of_envStep ?_)
  delta envAfter
  rw [envStep_iterate_of_pause T P i e (by omega), hlast, hend]
  exact .of_idleAt ⟨rfl, rfl, rfl⟩

/-! ## The moving level -/

/-- A rising step with a positive increment rises. -/
theorem level_lt_envRisen {level inc : Int} (hlevel : level ≤ 15 * 2 ^ 24) (hinc : 0 < inc) : level < envRisen level inc := by
  have hquot : 0 < (17 * 2 ^ 24 - max level envJumpTarget) / 2 ^ 24 := by
    delta envJumpTarget
    omega
  have hrise := Int.mul_pos hquot hinc
  delta envRisen
  omega

/-- Released in stage 3 with no pause the level moves to its target and ends there in stage 4: each tick that does not end the move
shortens the way left. -/
theorem reachesIdle_of_release {T : Rom} (P : Memory) (i : Fin 6) {e : Envelope} (h : EnvelopeInRange e)
    (hst : e.stage = .release) (hkey : e.keyDown = false) (hs : e.staticCount = 0#32) (hinc : 0 < e.inc.toInt) :
    ReachesIdle T P i e e.target.toInt := by
  induction hd : (e.target.toInt - e.level.toInt).natAbs using Nat.strong_induction_on generalizing e with
  | _ d ih =>
  have hmoves : stageMoves e.stage e.keyDown = true := by rw [hst, hkey]; rfl
  have hnext : nextStage e.stage = .idle := by rw [hst]; rfl
  have htlo := h.target_nonneg
  have hthi := h.target_le
  have hlevel := h.level_le
  have hlater {l : Int} (hl : 0 ≤ l) (hl' : l ≤ 15 * 2 ^ 24) (hcloser : (e.target.toInt - l).natAbs < d) :
      ReachesIdle T P i { e with level := toI32 l } e.target.toInt := by
    have hint : (toI32 l).toInt = l := toI32_toInt (by omega) (by omega)
    exact ih _ (hint.symm ▸ hcloser) (h.with_level hl hl') hst hkey hs hinc rfl
  refine ReachesIdle.of_envStep ?_
  rw [envStep_of_no_pause T P i hs]
  rcases envIntegrate_cases T P i e with ⟨hstay, -⟩ | ⟨-, -, -, heq⟩ | ⟨-, -, -, hlt, heq⟩ | ⟨-, -, -, hlt, heq⟩
  · rcases hstay with hm | hne
    · exact absurd (hmoves.symm.trans hm) (by simp)
    · exact absurd hs hne
  · rw [heq, hnext, envAdvance_idle]
    exact .of_idleAt ⟨rfl, hs, rfl⟩
  · have hrise := level_lt_envRisen hlevel hinc
    rw [heq]
    exact hlater h.envRisen_nonneg (by omega) (by omega)
  · rw [heq]
    exact hlater (by omega) (by omega) (by omega)

/-! ## The release -/

/-- A stage-3 entry starts a pause at its target, or a move towards it with an increment of at least 16 (R306, R317). -/
theorem reachesIdle_of_release_entry {T : Rom} (hT : RomAdmissible T) (P : Memory) (i : Fin 6) {e : Envelope}
    (h : EnvelopeInRange e) (hkey : e.keyDown = false) :
    ReachesIdle T P i (envAdvance T P i .release e) (envTarget T P i 3) := by
  obtain ⟨htlo, hthi⟩ := hT.envTarget_range P i 3
  obtain ⟨hilo, hihi⟩ := envIncOf_range (envQRate_le P i e.rsDelta 3)
  have htarget : (toI32 (envTarget T P i 3)).toInt = envTarget T P i 3 := toI32_toInt (by omega) (by omega)
  have hinc : (toI32 (envIncOf (envQRate P i e.rsDelta 3))).toInt = envIncOf (envQRate P i e.rsDelta 3) :=
    toI32_toInt (by omega) (by omega)
  have hentry := h.after_advance hT P i (st := .release) (by simp)
  have hnonneg := hentry.static_nonneg
  have hstage : (envAdvance T P i .release e).stage = .release := envAdvance_stage ..
  have heq := envAdvance_of_stageIndex T P i (st := .release) (n := 3) rfl e
  by_cases hs : (envAdvance T P i .release e).staticCount = 0#32
  · have hentryTarget : (envAdvance T P i .release e).target.toInt = envTarget T P i 3 := by rw [heq]; exact htarget
    have hentryInc : 0 < (envAdvance T P i .release e).inc.toInt := by
      rw [heq]
      dsimp only
      omega
    rw [← hentryTarget]
    exact reachesIdle_of_release P i hentry hstage ((envAdvance_keyDown ..).trans hkey) hs hentryInc
  · have hlevel : (envAdvance T P i .release e).level.toInt = envTarget T P i 3 := by
      rw [envAdvance_level]
      by_contra hne
      refine hs ?_
      rw [heq]
      exact if_neg fun h => h.elim (fun h => hne h.symm) fun h => absurd h.1 (by decide)
    have hpos : 0 < (envAdvance T P i .release e).staticCount.toInt :=
      lt_of_le_of_ne hnonneg fun h => hs (BitVec.eq_of_toInt_eq h.symm)
    rw [← hlevel]
    exact reachesIdle_of_pause T P i hstage hpos

/-- Settles O49: the release enters stage 3, or leaves the envelope in its pause, its move or its rest. -/
theorem releasedEnvelopeReachesIdle : Obligations.ReleasedEnvelopeReachesIdle := by
  intro T hT P i e h
  dsimp only
  have hreleased (hst : 3 ≤ stageCode e.stage) : envRelease T P i e = { e with keyDown := false } := envRelease_of_ge T P i hst
  refine ⟨fun hst => ReachesIdle.restsAt ?_, fun hst hinc hs => ReachesIdle.restsAt ?_,
    fun hst hs => ReachesIdle.restsAt ?_, fun hst => ReachesIdle.restsAt ?_⟩
  · rw [envRelease_of_lt T P i hst]
    exact reachesIdle_of_release_entry hT P i (h.with_keyDown false) rfl
  · rw [hreleased (by rw [hst]; decide)]
    exact reachesIdle_of_release P i (h.with_keyDown false) hst rfl hs (by dsimp only; omega)
  · rw [hreleased (by rw [hst]; decide)]
    have hpos : 0 < e.staticCount.toInt := lt_of_le_of_ne h.static_nonneg fun h => hs (BitVec.eq_of_toInt_eq h.symm)
    exact reachesIdle_of_pause T P i hst hpos
  · rw [hreleased (by rw [hst]; decide)]
    exact .of_idleAt ⟨hst, h.static_idle hst, rfl⟩

end Sys2Proof.Machine

/-! SUPPORT. A rejection is precise (spec/60_exceptions.md R632): a tick and every accepted command but STATUS_CLEAR and the read of
STATUS neither read nor write CMD_ERR and ERR_CODE, so they run after a rejection as they run without it. -/

namespace Sys2Proof.Machine

/-- The later rejection decides both fields. -/
theorem rejectCommand_rejectCommand (c d : RejectCode) (s : State) :
    rejectCommand d (rejectCommand c s) = rejectCommand d s := rfl

/-- A rejection and a write of the parameter store commute. Rewriting with it keeps `rfl` from running the writes of VOICE_LOAD. -/
theorem rejectCommand_withParams (c : RejectCode) (P : Memory) (s : State) :
    { rejectCommand c s with params := P } = rejectCommand c { s with params := P } := rfl

/-! ## What does not read STATUS commutes with a rejection -/

theorem tick_rejectCommand (T : Rom) (c : RejectCode) (s : State) :
    tick T (rejectCommand c s) = rejectCommand c (tick T s) := by
  unfold tick
  rw [rejectCommand_configured]
  split <;> rfl

/-- NOTE_ON's three tests read nothing of STATUS, nor does what it does in each case. -/
theorem synthNoteOn_rejectCommand (T : Rom) (note vel : BitVec 7) (c : RejectCode) (s : State) :
    synthNoteOn T note vel (rejectCommand c s) = rejectCommand c (synthNoteOn T note vel s) := by
  have hfree : firstFree (rejectCommand c s) = firstFree s := rfl
  have hany : anyActive (rejectCommand c s) = anyActive s := rfl
  unfold synthNoteOn
  rw [hfree, hany, rejectCommand_params]
  split
  · rfl
  · split
    · split <;> rfl
    · rfl

theorem synthNoteOff_rejectCommand (T : Rom) (note : BitVec 7) (c : RejectCode) (s : State) :
    synthNoteOff T note (rejectCommand c s) = rejectCommand c (synthNoteOff T note s) := by
  have hheld : heldVoice note (rejectCommand c s) = heldVoice note s := rfl
  unfold synthNoteOff
  rw [hheld]
  split <;> rfl

/-- Of the registers only STATUS shows CMD_ERR and ERR_CODE. -/
theorem regValue_rejectCommand {r : Reg} (h : r ≠ .status) (c : RejectCode) (s : State) :
    regValue (rejectCommand c s) r = regValue s r := by
  cases r with
  | status => exact absurd rfl h
  | _ => rfl

/-- Only number 0 is that of STATUS (R100). -/
theorem regOf_ne_status {reg : Byte} (h : reg ≠ 0) : regOf reg.toNat ≠ some .status := fun hr =>
  h (BitVec.eq_of_toNat_eq (eq_regNumber_of_regOf hr))

theorem readReg_rejectCommand {n : Nat} (h : regOf n ≠ some .status) (c : RejectCode) (s : State) :
    readReg n (rejectCommand c s) = rejectCommand c (readReg n s) := by
  rw [readReg_eq, readReg_eq]
  cases hr : regOf n with
  | none => rfl
  | some r =>
    have hvalue : regValue (rejectCommand c s) r = regValue s r :=
      regValue_rejectCommand (fun hstatus => h (hr.trans (congrArg some hstatus))) c s
    rw [Option.elim_some, Option.elim_some, hvalue]
    rfl

/-- Every command but STATUS_CLEAR and REG_READ 0 has the same effect after a rejection, with the rejection's fields kept. -/
theorem commandEffect_rejectCommand {i : Instr} (hclear : i ≠ .statusClear) (hread : i ≠ .regRead 0) (c : RejectCode)
    (s : State) : commandEffect i (rejectCommand c s) = rejectCommand c (commandEffect i s) := by
  cases i with
  | statusClear => exact absurd rfl hclear
  | noteOn note vel =>
    rw [commandEffect_noteOn, commandEffect_noteOn, rejectCommand_configured, synthNoteOn_rejectCommand]
    split <;> rfl
  | noteOff note =>
    rw [commandEffect_noteOff, commandEffect_noteOff, rejectCommand_configured, synthNoteOff_rejectCommand]
    split <;> rfl
  | regRead reg =>
    have hreg : reg ≠ 0 := fun h => hread (congrArg Instr.regRead h)
    exact readReg_rejectCommand (regOf_ne_status hreg) c s
  | setOscKeySync b =>
    rw [commandEffect_setOscKeySync, commandEffect_setOscKeySync, rejectCommand_withParams, rejectCommand_params]
  | voiceLoad =>
    rw [commandEffect_voiceLoad, commandEffect_voiceLoad, rejectCommand_withParams, rejectCommand_params,
      rejectCommand_vbuf]
  | _ => rfl

/-- Settles O12: the rejected word by the checks of R205, and a later command by its effect, since its operand is accepted. -/
theorem rejectionIsPrecise : Obligations.RejectionIsPrecise := by
  refine ⟨fun w c s h => commandStep_of_commandReject h s, rejectCommand_rejectCommand, tick_rejectCommand rom,
    fun c i s t hwf hclear hread hs => ?_⟩
  have ht : commandEffect i s = t := Host.Outcome.next.inj ((exec_of_wellFormed hwf s).symm.trans hs)
  rw [exec_of_wellFormed hwf, commandEffect_rejectCommand hclear hread, ht]

end Sys2Proof.Machine
